-- ==== Sys2Proof/Word.lean ====
section
/-! DEFINITION. The words of the flux2 CORE: bytes and 32-bit host words (spec R9, R33). -/

namespace Sys2Proof

/-- A byte, 8 bits, value 0..255 (R9). -/
abbrev Byte := BitVec 8

/-- A 32-bit host word (R33). -/
abbrev Word := BitVec 32

end Sys2Proof
end

