-- ==== Sys2Proof/Config.lean ====
section
/-! DEFINITION. What an implementation fixes (spec R8) and the free values the spec leaves unspecified (R360, R404). -/

namespace Sys2Proof

/-- What a set preset-dictionary flag does (R8, R303). -/
inductive FdictMode where
  /-- fault ErrPresetDict; this hardware's value (R303, decision D8) -/
  | fail
  /-- the four DICTID bytes are read and discarded; the original program's behaviour -/
  | skip4
deriving DecidableEq, Repr, Inhabited

/-- The parameters of R8 that a model takes as arguments. IN_CAP and OUT_CAP are below 2^32 (R8), hence words. R8 gives PIX_CAP no upper
bound; that it is a word too is the model's (DESIGN CHOICE, log 3). -/
structure Params where
  /-- IN_CAP, capacity of IN in bytes -/
  inCap : Word
  /-- OUT_CAP, capacity of OUT in bytes -/
  outCap : Word
  /-- PIX_CAP, capacity of PIX in bytes; below 2^32 in the model alone (DESIGN CHOICE, log 3) -/
  pixCap : Word
  /-- N_MAX, the largest n of GETBITS(n) -/
  nMax : Nat
  /-- ACC_W, the width of ACC in bits -/
  accW : Nat
  /-- FDICT_MODE -/
  fdictMode : FdictMode
deriving DecidableEq, Repr, Inhabited

/-- The default values of R8: all capacities 2^32 - 1, N_MAX = 24, ACC_W = 32, FDICT_MODE = fail. -/
def Params.default : Params :=
  { inCap := 0xFFFFFFFF, outCap := 0xFFFFFFFF, pixCap := 0xFFFFFFFF, nMax := 24, accW := 32, fdictMode := .fail }

/-- The constraints R8 puts on the parameters. Its bounds IN_CAP, OUT_CAP < 2^32 hold of words; on PIX_CAP it puts none. -/
structure Params.Wf (p : Params) : Prop where
  inCap_pos : 0 < p.inCap.toNat
  outCap_pos : 0 < p.outCap.toNat
  /-- "fixed by FLUX2 §4.1"; R132: "0 <= n <= N_MAX = 24" -/
  nMax_eq : p.nMax = 24
  accW_ge : p.nMax + 7 ≤ p.accW

namespace Config

/-- FREE VALUE. The value of a register or table entry after the `event`-th fault: unspecified (R360), so
nothing is known of it. `slot` names the register, `index` the entry of an array, `w` is its width (log 4). -/
opaque freeBits (w event slot index : Nat) : BitVec w

/-- FREE VALUE. The contents of a memory after the `event`-th fault: unspecified (R360). `slot` names the
memory (log 4). -/
opaque freeCells (event slot : Nat) : List (Nat × BitVec 8)

end Config

end Sys2Proof
end

