-- ==== Sys2Proof/Syntax.lean ====
section
/-! DEFINITION. The elements of the compressed stream, which are the instructions of the flux2 CORE (spec R90, R107): one
constructor for every mnemonic of spec/opcode_table.json, with the raw fields of its format as operands (R106). -/

namespace Sys2Proof

/-- One element. The 256 rows LIT of the table differ only in the literal byte, the operand of `lit` (R213). -/
inductive Instr where
  /-- ZHDR, format ZH: the bytes CMF and FLG (R92, R301). -/
  | zhdr (cmf flg : Byte)
  /-- BLK.STORED, format BH: BFINAL, with BTYPE = 0 (R93, R173). -/
  | blkStored (bfinal : Bool)
  /-- BLK.FIXED, BTYPE = 1 (R174). -/
  | blkFixed (bfinal : Bool)
  /-- BLK.DYN, BTYPE = 2 (R176). -/
  | blkDyn (bfinal : Bool)
  /-- BLK.RSVD, BTYPE = 3 (R175). -/
  | blkRsvd (bfinal : Bool)
  /-- STOREDBODY, format ST: LEN and NLEN (R94, R177). The LEN raw bytes that follow are moved by READBYTES. -/
  | storedbody (len nlen : BitVec 16)
  /-- DYNHDR, format DH: the raw count fields and the HCLEN code-length-code lengths in transmission order (R95, R183, R184). -/
  | dynhdr (hlit5 hdist5 : BitVec 5) (hclen4 : BitVec 4) (lengths : List (BitVec 3))
  /-- CL0: the next code length is 0 (R97, R188). -/
  | cl0
  /-- CL1: the next code length is 1 (R97, R188). -/
  | cl1
  /-- CL2: the next code length is 2 (R97, R188). -/
  | cl2
  /-- CL3: the next code length is 3 (R97, R188). -/
  | cl3
  /-- CL4: the next code length is 4 (R97, R188). -/
  | cl4
  /-- CL5: the next code length is 5 (R97, R188). -/
  | cl5
  /-- CL6: the next code length is 6 (R97, R188). -/
  | cl6
  /-- CL7: the next code length is 7 (R97, R188). -/
  | cl7
  /-- CL8: the next code length is 8 (R97, R188). -/
  | cl8
  /-- CL9: the next code length is 9 (R97, R188). -/
  | cl9
  /-- CL10: the next code length is 10 (R97, R188). -/
  | cl10
  /-- CL11: the next code length is 11 (R97, R188). -/
  | cl11
  /-- CL12: the next code length is 12 (R97, R188). -/
  | cl12
  /-- CL13: the next code length is 13 (R97, R188). -/
  | cl13
  /-- CL14: the next code length is 14 (R97, R188). -/
  | cl14
  /-- CL15: the next code length is 15 (R97, R188). -/
  | cl15
  /-- CL16: repeat the previous length 3 + e times (R97, R190). -/
  | cl16 (e : BitVec 2)
  /-- CL17: 3 + e zeros (R97, R191). -/
  | cl17 (e : BitVec 3)
  /-- CL18: 11 + e zeros (R97, R192). -/
  | cl18 (e : BitVec 7)
  /-- LIT: the literal byte (R98, R213). -/
  | lit (b : Byte)
  /-- EOB: end of block (R98, R215). -/
  | eob
  /-- LEN257, 0 extra bits (R99, R220). -/
  | len257
  /-- LEN258, 0 extra bits (R99, R221). -/
  | len258
  /-- LEN259, 0 extra bits (R99, R222). -/
  | len259
  /-- LEN260, 0 extra bits (R99, R223). -/
  | len260
  /-- LEN261, 0 extra bits (R99, R224). -/
  | len261
  /-- LEN262, 0 extra bits (R99, R225). -/
  | len262
  /-- LEN263, 0 extra bits (R99, R226). -/
  | len263
  /-- LEN264, 0 extra bits (R99, R227). -/
  | len264
  /-- LEN265, 1 extra bits (R99, R228). -/
  | len265 (e : BitVec 1)
  /-- LEN266, 1 extra bits (R99, R229). -/
  | len266 (e : BitVec 1)
  /-- LEN267, 1 extra bits (R99, R230). -/
  | len267 (e : BitVec 1)
  /-- LEN268, 1 extra bits (R99, R231). -/
  | len268 (e : BitVec 1)
  /-- LEN269, 2 extra bits (R99, R232). -/
  | len269 (e : BitVec 2)
  /-- LEN270, 2 extra bits (R99, R233). -/
  | len270 (e : BitVec 2)
  /-- LEN271, 2 extra bits (R99, R234). -/
  | len271 (e : BitVec 2)
  /-- LEN272, 2 extra bits (R99, R235). -/
  | len272 (e : BitVec 2)
  /-- LEN273, 3 extra bits (R99, R236). -/
  | len273 (e : BitVec 3)
  /-- LEN274, 3 extra bits (R99, R237). -/
  | len274 (e : BitVec 3)
  /-- LEN275, 3 extra bits (R99, R238). -/
  | len275 (e : BitVec 3)
  /-- LEN276, 3 extra bits (R99, R239). -/
  | len276 (e : BitVec 3)
  /-- LEN277, 4 extra bits (R99, R240). -/
  | len277 (e : BitVec 4)
  /-- LEN278, 4 extra bits (R99, R241). -/
  | len278 (e : BitVec 4)
  /-- LEN279, 4 extra bits (R99, R242). -/
  | len279 (e : BitVec 4)
  /-- LEN280, 4 extra bits (R99, R243). -/
  | len280 (e : BitVec 4)
  /-- LEN281, 5 extra bits (R99, R244). -/
  | len281 (e : BitVec 5)
  /-- LEN282, 5 extra bits (R99, R245). -/
  | len282 (e : BitVec 5)
  /-- LEN283, 5 extra bits (R99, R246). -/
  | len283 (e : BitVec 5)
  /-- LEN284, 5 extra bits (R99, R247). -/
  | len284 (e : BitVec 5)
  /-- LEN285, 0 extra bits (R99, R248). -/
  | len285
  /-- LL286: reserved literal/length symbol (R249). -/
  | ll286
  /-- LL287: reserved literal/length symbol (R249). -/
  | ll287
  /-- DIST0, 0 extra bits (R101, R252). -/
  | dist0
  /-- DIST1, 0 extra bits (R101, R253). -/
  | dist1
  /-- DIST2, 0 extra bits (R101, R254). -/
  | dist2
  /-- DIST3, 0 extra bits (R101, R255). -/
  | dist3
  /-- DIST4, 1 extra bits (R101, R256). -/
  | dist4 (e : BitVec 1)
  /-- DIST5, 1 extra bits (R101, R257). -/
  | dist5 (e : BitVec 1)
  /-- DIST6, 2 extra bits (R101, R258). -/
  | dist6 (e : BitVec 2)
  /-- DIST7, 2 extra bits (R101, R259). -/
  | dist7 (e : BitVec 2)
  /-- DIST8, 3 extra bits (R101, R260). -/
  | dist8 (e : BitVec 3)
  /-- DIST9, 3 extra bits (R101, R261). -/
  | dist9 (e : BitVec 3)
  /-- DIST10, 4 extra bits (R101, R262). -/
  | dist10 (e : BitVec 4)
  /-- DIST11, 4 extra bits (R101, R263). -/
  | dist11 (e : BitVec 4)
  /-- DIST12, 5 extra bits (R101, R264). -/
  | dist12 (e : BitVec 5)
  /-- DIST13, 5 extra bits (R101, R265). -/
  | dist13 (e : BitVec 5)
  /-- DIST14, 6 extra bits (R101, R266). -/
  | dist14 (e : BitVec 6)
  /-- DIST15, 6 extra bits (R101, R267). -/
  | dist15 (e : BitVec 6)
  /-- DIST16, 7 extra bits (R101, R268). -/
  | dist16 (e : BitVec 7)
  /-- DIST17, 7 extra bits (R101, R269). -/
  | dist17 (e : BitVec 7)
  /-- DIST18, 8 extra bits (R101, R270). -/
  | dist18 (e : BitVec 8)
  /-- DIST19, 8 extra bits (R101, R271). -/
  | dist19 (e : BitVec 8)
  /-- DIST20, 9 extra bits (R101, R272). -/
  | dist20 (e : BitVec 9)
  /-- DIST21, 9 extra bits (R101, R273). -/
  | dist21 (e : BitVec 9)
  /-- DIST22, 10 extra bits (R101, R274). -/
  | dist22 (e : BitVec 10)
  /-- DIST23, 10 extra bits (R101, R275). -/
  | dist23 (e : BitVec 10)
  /-- DIST24, 11 extra bits (R101, R276). -/
  | dist24 (e : BitVec 11)
  /-- DIST25, 11 extra bits (R101, R277). -/
  | dist25 (e : BitVec 11)
  /-- DIST26, 12 extra bits (R101, R278). -/
  | dist26 (e : BitVec 12)
  /-- DIST27, 12 extra bits (R101, R279). -/
  | dist27 (e : BitVec 12)
  /-- DIST28, 13 extra bits (R101, R280). -/
  | dist28 (e : BitVec 13)
  /-- DIST29, 13 extra bits (R101, R281). -/
  | dist29 (e : BitVec 13)
  /-- DIST30: reserved distance symbol (R282). -/
  | dist30
  /-- DIST31: reserved distance symbol (R282). -/
  | dist31
  /-- ZTRL, format TR: the 32-bit trailer value (R102, R306). -/
  | ztrl (t : Word)
  /-- FT.NONE, filter-type byte 0 (R103, R323). -/
  | ftNone
  /-- FT.SUB, filter-type byte 1 (R324). -/
  | ftSub
  /-- FT.UP, filter-type byte 2 (R325). -/
  | ftUp
  /-- FT.AVG, filter-type byte 3 (R326). -/
  | ftAvg
  /-- FT.PAETH, filter-type byte 4 (R327). -/
  | ftPaeth
  /-- FT.RSVD, filter-type bytes 5..255 (R328). -/
  | ftRsvd (b : Byte)
deriving DecidableEq, Repr

/-- A Huffman table file (R27): `count[L]` symbols have code length L; `symbol` lists the symbols in canonical order. Only the
first sum of COUNT[1..15] entries of SYMBOL hold a value (R27), and the list holds exactly the entries that hold one. -/
structure HuffTable where
  /-- COUNT[0..15], 9 bits each -/
  count : Vector (BitVec 9) 16
  /-- SYMBOL, 9 bits each -/
  symbol : List (BitVec 9)
  /-- VALID (R26) -/
  valid : Bool
deriving DecidableEq, Repr, Inhabited

/-- The context an element is decoded in: decoding is context-driven (R107). One name per format of R92 to R103; the
Huffman-coded formats name the table their code is decoded with. -/
inductive Ctx where
  /-- format ZH, the envelope header (R92) -/
  | zh
  /-- format BH, a block header (R93) -/
  | bh
  /-- format ST, a stored-block body (R94) -/
  | st
  /-- format DH, a dynamic-block header (R95) -/
  | dh
  /-- format CL, a code-length symbol of the table (R97); `hasPrev` says that a previous length exists (LIDX > 0, R190) -/
  | cl (table : HuffTable) (hasPrev : Bool)
  /-- format LL, a literal/length element of the table (R98) -/
  | ll (table : HuffTable)
  /-- format D, a distance element of the table (R100) -/
  | d (table : HuffTable)
  /-- format TR, the trailer (R102) -/
  | tr
  /-- format FT, a filter-type byte (R103) -/
  | ft
deriving DecidableEq, Repr

end Sys2Proof
end

