-- ==== Sys2Proof/WellFormed.lean ====
section
/-! DEFINITION. Well-formedness of an element: the two relations between operands that their types do not already say. -/

namespace Sys2Proof

/-- DYNHDR carries HCLEN = HCLEN4 + 4 code-length-code lengths (R95); FT.RSVD carries a byte 5..255 (R328). Every other operand
has the width of its field, and every value of it is an encoding (R107). -/
def Instr.wf : Instr → Bool
  | .zhdr _ _ => true
  | .blkStored _ => true
  | .blkFixed _ => true
  | .blkDyn _ => true
  | .blkRsvd _ => true
  | .storedbody _ _ => true
  | .dynhdr _ _ hclen4 lengths => lengths.length == hclen4.toNat + 4
  | .cl0 => true
  | .cl1 => true
  | .cl2 => true
  | .cl3 => true
  | .cl4 => true
  | .cl5 => true
  | .cl6 => true
  | .cl7 => true
  | .cl8 => true
  | .cl9 => true
  | .cl10 => true
  | .cl11 => true
  | .cl12 => true
  | .cl13 => true
  | .cl14 => true
  | .cl15 => true
  | .cl16 _ => true
  | .cl17 _ => true
  | .cl18 _ => true
  | .lit _ => true
  | .eob => true
  | .len257 => true
  | .len258 => true
  | .len259 => true
  | .len260 => true
  | .len261 => true
  | .len262 => true
  | .len263 => true
  | .len264 => true
  | .len265 _ => true
  | .len266 _ => true
  | .len267 _ => true
  | .len268 _ => true
  | .len269 _ => true
  | .len270 _ => true
  | .len271 _ => true
  | .len272 _ => true
  | .len273 _ => true
  | .len274 _ => true
  | .len275 _ => true
  | .len276 _ => true
  | .len277 _ => true
  | .len278 _ => true
  | .len279 _ => true
  | .len280 _ => true
  | .len281 _ => true
  | .len282 _ => true
  | .len283 _ => true
  | .len284 _ => true
  | .len285 => true
  | .ll286 => true
  | .ll287 => true
  | .dist0 => true
  | .dist1 => true
  | .dist2 => true
  | .dist3 => true
  | .dist4 _ => true
  | .dist5 _ => true
  | .dist6 _ => true
  | .dist7 _ => true
  | .dist8 _ => true
  | .dist9 _ => true
  | .dist10 _ => true
  | .dist11 _ => true
  | .dist12 _ => true
  | .dist13 _ => true
  | .dist14 _ => true
  | .dist15 _ => true
  | .dist16 _ => true
  | .dist17 _ => true
  | .dist18 _ => true
  | .dist19 _ => true
  | .dist20 _ => true
  | .dist21 _ => true
  | .dist22 _ => true
  | .dist23 _ => true
  | .dist24 _ => true
  | .dist25 _ => true
  | .dist26 _ => true
  | .dist27 _ => true
  | .dist28 _ => true
  | .dist29 _ => true
  | .dist30 => true
  | .dist31 => true
  | .ztrl _ => true
  | .ftNone => true
  | .ftSub => true
  | .ftUp => true
  | .ftAvg => true
  | .ftPaeth => true
  | .ftRsvd b => decide (5 ≤ b.toNat)

end Sys2Proof
end

