-- ==== Sys2Proof/Decode.lean ====
section
/-! DEFINITION. The decoder of stream elements (spec 30_encoding.md and R156), written once over any source of bits, and after it the
encoder, from the same formats and tables. -/

namespace Sys2Proof

/-! ## Bits and bit sources -/

/-- The `n` low bits of `v`, least-significant first (R65). -/
def bitsLsb : Nat → Nat → List Bool
  | 0, _ => []
  | n + 1, v => (v % 2 == 1) :: bitsLsb n (v / 2)

/-- The `n` low bits of `v`, most-significant first: how a Huffman code stands in the stream (R104). -/
def bitsMsb (n v : Nat) : List Bool := (bitsLsb n v).reverse

/-- The number whose bits are given least-significant first (R65). -/
def natOfBits : List Bool → Nat
  | [] => 0
  | b :: bs => b.toNat + 2 * natOfBits bs

/-- Why the decoder gives no element. -/
inductive DecodeError where
  /-- the source ends before the field does (R132: ErrInputExhausted) -/
  | exhausted
  /-- no code matched within 15 bits (R156: ErrHuffNoMatch) -/
  | noMatch
  /-- HDECODE on a table with VALID = 0 (R155, U20: a refusal) -/
  | invalidTable
  /-- a SYMBOL entry that holds no value, or a symbol outside the alphabet (R27, R156: never read) -/
  | noSuchSymbol (k : Nat)
  /-- GETBITS(n) with n > 24 (R133, U2: a refusal) -/
  | tooWide
deriving DecidableEq, Repr

/-- A source of bits: GETBITS(n) and ALIGN() (R130). The machine's source is its bit reader, the tables' and tests' source is a
bit string. -/
structure BitSource (σ : Type) where
  /-- GETBITS(n) -/
  get : Nat → σ → Except DecodeError (Nat × σ)
  /-- ALIGN() -/
  align : σ → σ

/-- A bit string with the position of its first bit in the stream. -/
structure BitString where
  /-- position of the next bit -/
  pos : Nat
  /-- the bits not yet read, in reading order -/
  bits : List Bool
deriving DecidableEq, Repr

/-- How many padding bits ALIGN skips at position `pos` (R25). -/
def padding (pos : Nat) : Nat := (8 - pos % 8) % 8

/-- The number in the first `n` bits, least-significant first, and the bits after them; none if there are fewer (R131). -/
def takeBits : Nat → List Bool → Option (Nat × List Bool)
  | 0, bs => some (0, bs)
  | _ + 1, [] => none
  | n + 1, b :: bs =>
    match takeBits n bs with
    | none => none
    | some (v, rest) => some (b.toNat + 2 * v, rest)

/-- A bit string as a source: GETBITS and ALIGN on the abstract cursor (R131); n > 24 is refused (R132, R133). -/
def bitStringSource : BitSource BitString where
  get n x :=
    if n > 24 then .error .tooWide
    else
      match takeBits n x.bits with
      | none => .error .exhausted
      | some (v, rest) => .ok (v, { pos := x.pos + n, bits := rest })
  align x := { pos := x.pos + padding x.pos, bits := x.bits.drop (padding x.pos) }

/-! ## Constant tables -/

/-- LEXT (R99). -/
def lext : List Nat :=
  [0, 0, 0, 0, 0, 0, 0, 0, 1, 1, 1, 1, 2, 2, 2, 2, 3, 3, 3, 3, 4, 4, 4, 4, 5, 5, 5, 5, 0]

/-- DEXT (R101). -/
def dext : List Nat :=
  [0, 0, 0, 0, 1, 1, 2, 2, 3, 3, 4, 4, 5, 5, 6, 6, 7, 7, 8, 8, 9, 9, 10, 10, 11, 11, 12, 12, 13, 13]

/-- CLORDER (R96): the code-length symbol whose length is sent at each position. -/
def clOrder : List Nat := [16, 17, 18, 0, 8, 7, 9, 6, 10, 5, 11, 4, 12, 3, 13, 2, 14, 1, 15]

/-- FIXLL, the fixed literal/length code lengths (R180). -/
def fixLL : List Nat :=
  List.replicate 144 8 ++ List.replicate 112 9 ++ List.replicate 24 7 ++ List.replicate 8 8

/-- FIXD, the fixed distance code lengths (R180). -/
def fixD : List Nat := List.replicate 32 5

/-- FLLT, the constant literal/length table (R181). -/
def fllt : HuffTable where
  count := #v[0, 0, 0, 0, 0, 0, 0, 24, 152, 112, 0, 0, 0, 0, 0, 0]
  symbol := (List.range' 256 24 ++ List.range' 0 144 ++ List.range' 280 8 ++ List.range' 144 112).map (BitVec.ofNat 9)
  valid := true

/-- FDT, the constant distance table (R181). -/
def fdt : HuffTable where
  count := #v[0, 0, 0, 0, 0, 32, 0, 0, 0, 0, 0, 0, 0, 0, 0, 0]
  symbol := (List.range' 0 32).map (BitVec.ofNat 9)
  valid := true

/-! ## HDECODE (R156) -/

/-- The registers HDECODE leaves (R23): CODE, FIRST, INDEX, HLEN and SYM. -/
structure HuffRegs where
  /-- CODE -/
  code : BitVec 16
  /-- FIRST -/
  first : BitVec 16
  /-- INDEX -/
  index : BitVec 9
  /-- HLEN -/
  hlen : BitVec 4
  /-- SYM -/
  sym : BitVec 9
deriving DecidableEq, Repr, Inhabited

/-- COUNT[L] as a number (R27). -/
def HuffTable.countAt (T : HuffTable) (L : Nat) : Nat := (T.count[L]?.getD 0).toNat

/-- The loop of HDECODE (R156) with `fuel` lengths left, at length `hlen` and with CODE, FIRST and INDEX as they stand before
the next bit. The comparison is `CODE < FIRST + c` (R157(3)). -/
def hdecodeLoop {σ : Type} (S : BitSource σ) (T : HuffTable) :
    (fuel hlen code first index : Nat) → σ → Except DecodeError (HuffRegs × σ)
  | 0, _, _, _, _, _ => .error .noMatch
  | fuel + 1, hlen, code, first, index, x =>
    match S.get 1 x with
    | .error e => .error e
    | .ok (b, x) =>
      let code := code + b
      let c := T.countAt hlen
      if code < first + c then
        match T.symbol[index + (code - first)]? with
        | some s =>
          .ok ({ code := BitVec.ofNat 16 code, first := BitVec.ofNat 16 first, index := BitVec.ofNat 9 index,
                 hlen := BitVec.ofNat 4 hlen, sym := s }, x)
        | none => .error (.noSuchSymbol (index + (code - first)))
      else hdecodeLoop S T fuel (hlen + 1) (2 * code) (2 * (first + c)) (index + c) x

/-- HDECODE(T) (R156), on a valid table only (R155). -/
def hdecode {σ : Type} (S : BitSource σ) (T : HuffTable) (x : σ) : Except DecodeError (HuffRegs × σ) :=
  if T.valid then hdecodeLoop S T 15 1 0 0 0 x else .error .invalidTable

/-! ## Symbols to elements (R97 to R101, R107) -/

/-- Extra bits of a code-length symbol (R97). -/
def clExtra : Nat → Nat
  | 16 => 2
  | 17 => 3
  | 18 => 7
  | _ => 0

/-- Extra bits of a literal/length symbol: LEXT[s-257] for 257..285, else none (R98, R99, R249). -/
def llExtra (s : Nat) : Nat := if 257 ≤ s then lext.getD (s - 257) 0 else 0

/-- Extra bits of a distance symbol: DEXT[d] for 0..29, else none (R100, R101, R282). -/
def dExtra (s : Nat) : Nat := dext.getD s 0

/-- The element of a code-length symbol and its raw extra field (R97). -/
def clInstr (s e : Nat) : Option Instr :=
  match s with
  | 0 => some .cl0
  | 1 => some .cl1
  | 2 => some .cl2
  | 3 => some .cl3
  | 4 => some .cl4
  | 5 => some .cl5
  | 6 => some .cl6
  | 7 => some .cl7
  | 8 => some .cl8
  | 9 => some .cl9
  | 10 => some .cl10
  | 11 => some .cl11
  | 12 => some .cl12
  | 13 => some .cl13
  | 14 => some .cl14
  | 15 => some .cl15
  | 16 => some (.cl16 (BitVec.ofNat 2 e))
  | 17 => some (.cl17 (BitVec.ofNat 3 e))
  | 18 => some (.cl18 (BitVec.ofNat 7 e))
  | _ => none

/-- The element of a length or reserved literal/length symbol, `k` = symbol - 256, and its raw extra field (R98, R99, R215, R249). -/
def lenInstr (k e : Nat) : Option Instr :=
  match k with
  | 0 => some .eob
  | 1 => some .len257
  | 2 => some .len258
  | 3 => some .len259
  | 4 => some .len260
  | 5 => some .len261
  | 6 => some .len262
  | 7 => some .len263
  | 8 => some .len264
  | 9 => some (.len265 (BitVec.ofNat 1 e))
  | 10 => some (.len266 (BitVec.ofNat 1 e))
  | 11 => some (.len267 (BitVec.ofNat 1 e))
  | 12 => some (.len268 (BitVec.ofNat 1 e))
  | 13 => some (.len269 (BitVec.ofNat 2 e))
  | 14 => some (.len270 (BitVec.ofNat 2 e))
  | 15 => some (.len271 (BitVec.ofNat 2 e))
  | 16 => some (.len272 (BitVec.ofNat 2 e))
  | 17 => some (.len273 (BitVec.ofNat 3 e))
  | 18 => some (.len274 (BitVec.ofNat 3 e))
  | 19 => some (.len275 (BitVec.ofNat 3 e))
  | 20 => some (.len276 (BitVec.ofNat 3 e))
  | 21 => some (.len277 (BitVec.ofNat 4 e))
  | 22 => some (.len278 (BitVec.ofNat 4 e))
  | 23 => some (.len279 (BitVec.ofNat 4 e))
  | 24 => some (.len280 (BitVec.ofNat 4 e))
  | 25 => some (.len281 (BitVec.ofNat 5 e))
  | 26 => some (.len282 (BitVec.ofNat 5 e))
  | 27 => some (.len283 (BitVec.ofNat 5 e))
  | 28 => some (.len284 (BitVec.ofNat 5 e))
  | 29 => some .len285
  | 30 => some .ll286
  | 31 => some .ll287
  | _ => none

/-- The element of a literal/length symbol and its raw extra field: 0..255 are literals (R98). -/
def llInstr (s e : Nat) : Option Instr :=
  if s < 256 then some (.lit (BitVec.ofNat 8 s)) else lenInstr (s - 256) e

/-- The element of a distance symbol and its raw extra field (R100, R101, R282). -/
def dInstr (s e : Nat) : Option Instr :=
  match s with
  | 0 => some .dist0
  | 1 => some .dist1
  | 2 => some .dist2
  | 3 => some .dist3
  | 4 => some (.dist4 (BitVec.ofNat 1 e))
  | 5 => some (.dist5 (BitVec.ofNat 1 e))
  | 6 => some (.dist6 (BitVec.ofNat 2 e))
  | 7 => some (.dist7 (BitVec.ofNat 2 e))
  | 8 => some (.dist8 (BitVec.ofNat 3 e))
  | 9 => some (.dist9 (BitVec.ofNat 3 e))
  | 10 => some (.dist10 (BitVec.ofNat 4 e))
  | 11 => some (.dist11 (BitVec.ofNat 4 e))
  | 12 => some (.dist12 (BitVec.ofNat 5 e))
  | 13 => some (.dist13 (BitVec.ofNat 5 e))
  | 14 => some (.dist14 (BitVec.ofNat 6 e))
  | 15 => some (.dist15 (BitVec.ofNat 6 e))
  | 16 => some (.dist16 (BitVec.ofNat 7 e))
  | 17 => some (.dist17 (BitVec.ofNat 7 e))
  | 18 => some (.dist18 (BitVec.ofNat 8 e))
  | 19 => some (.dist19 (BitVec.ofNat 8 e))
  | 20 => some (.dist20 (BitVec.ofNat 9 e))
  | 21 => some (.dist21 (BitVec.ofNat 9 e))
  | 22 => some (.dist22 (BitVec.ofNat 10 e))
  | 23 => some (.dist23 (BitVec.ofNat 10 e))
  | 24 => some (.dist24 (BitVec.ofNat 11 e))
  | 25 => some (.dist25 (BitVec.ofNat 11 e))
  | 26 => some (.dist26 (BitVec.ofNat 12 e))
  | 27 => some (.dist27 (BitVec.ofNat 12 e))
  | 28 => some (.dist28 (BitVec.ofNat 13 e))
  | 29 => some (.dist29 (BitVec.ofNat 13 e))
  | 30 => some .dist30
  | 31 => some .dist31
  | _ => none

/-- The element of a block header (R93): BTYPE selects. -/
def blkInstr (f : Bool) (btype : BitVec 2) : Instr :=
  match btype.toNat with
  | 0 => .blkStored f
  | 1 => .blkFixed f
  | 2 => .blkDyn f
  | _ => .blkRsvd f

/-- The element of a filter-type byte (R103, R328). -/
def filterInstr (b : Byte) : Instr :=
  match b.toNat with
  | 0 => .ftNone
  | 1 => .ftSub
  | 2 => .ftUp
  | 3 => .ftAvg
  | 4 => .ftPaeth
  | _ => .ftRsvd b

/-! ## The decoder -/

/-- What the decoder gives: the element, the registers HDECODE leaves if the element is Huffman-coded, and the source after
the element's last bit. -/
structure Fetched (σ : Type) where
  /-- the element -/
  instr : Instr
  /-- CODE, FIRST, INDEX, HLEN, SYM as HDECODE leaves them; none for an element without a Huffman code -/
  regs : Option HuffRegs
  /-- the source after the element -/
  rest : σ
deriving DecidableEq, Repr

/-- `k` fields of 3 bits (R184). -/
def getLengths {σ : Type} (S : BitSource σ) : Nat → σ → Except DecodeError (List (BitVec 3) × σ)
  | 0, x => .ok ([], x)
  | k + 1, x =>
    match S.get 3 x with
    | .error e => .error e
    | .ok (v, x) =>
      match getLengths S k x with
      | .error e => .error e
      | .ok (vs, x) => .ok (BitVec.ofNat 3 v :: vs, x)

/-- A Huffman-coded element: a code of `T` giving a symbol `s`, then one raw field of `extra s` bits (R97, R98, R100, R106). -/
def decodeCoded {σ : Type} (S : BitSource σ) (T : HuffTable) (extra : Nat → Nat) (mk : Nat → Nat → Option Instr) (x : σ) :
    Except DecodeError (Fetched σ) :=
  match hdecode S T x with
  | .error e => .error e
  | .ok (r, x) =>
    match S.get (extra r.sym.toNat) x with
    | .error e => .error e
    | .ok (e, x) =>
      match mk r.sym.toNat e with
      | some i => .ok { instr := i, regs := some r, rest := x }
      | none => .error (.noSuchSymbol r.sym.toNat)

/-- Extra bits of a code-length symbol as the core reads them: CL16 with no previous length faults before its extra bits are
read (R190), so in that case none are read. -/
def clExtraRead (hasPrev : Bool) (s : Nat) : Nat := if s = 16 ∧ hasPrev = false then 0 else clExtra s

/-- The element at the front of the source, in the given context (R107). Total: it gives an element or names why not. -/
def decode {σ : Type} (S : BitSource σ) (c : Ctx) (x : σ) : Except DecodeError (Fetched σ) :=
  match c with
  | .zh => do
    let (cmf, x) ← S.get 8 x
    let (flg, x) ← S.get 8 x
    .ok { instr := .zhdr (BitVec.ofNat 8 cmf) (BitVec.ofNat 8 flg), regs := none, rest := x }
  | .bh => do
    let (f, x) ← S.get 1 x
    let (t, x) ← S.get 2 x
    .ok { instr := blkInstr (f == 1) (BitVec.ofNat 2 t), regs := none, rest := x }
  | .st => do
    let (len, x) ← S.get 16 (S.align x)
    let (nlen, x) ← S.get 16 x
    .ok { instr := .storedbody (BitVec.ofNat 16 len) (BitVec.ofNat 16 nlen), regs := none, rest := x }
  | .dh => do
    let (hlit, x) ← S.get 5 x
    let (hdist, x) ← S.get 5 x
    let (hclen, x) ← S.get 4 x
    let (ls, x) ← getLengths S ((BitVec.ofNat 4 hclen).toNat + 4) x
    .ok { instr := .dynhdr (BitVec.ofNat 5 hlit) (BitVec.ofNat 5 hdist) (BitVec.ofNat 4 hclen) ls, regs := none, rest := x }
  | .cl T hasPrev => decodeCoded S T (clExtraRead hasPrev) clInstr x
  | .ll T => decodeCoded S T llExtra llInstr x
  | .d T => decodeCoded S T dExtra dInstr x
  | .tr => do
    let (t3, x) ← S.get 8 (S.align x)
    let (t2, x) ← S.get 8 x
    let (t1, x) ← S.get 8 x
    let (t0, x) ← S.get 8 x
    .ok { instr := .ztrl (BitVec.ofNat 32 (((t3 * 256 + t2) * 256 + t1) * 256 + t0)), regs := none, rest := x }
  | .ft => do
    let (b, x) ← S.get 8 x
    .ok { instr := filterInstr (BitVec.ofNat 8 b), regs := none, rest := x }

/-! ## The encoder -/

/-- The symbol, the extra-bit count and the raw extra field of a Huffman-coded element, by alphabet (R97, R99, R101). -/
inductive Shape where
  /-- not Huffman-coded -/
  | raw
  /-- code-length alphabet -/
  | cl (sym width extra : Nat)
  /-- literal/length alphabet -/
  | ll (sym width extra : Nat)
  /-- distance alphabet -/
  | d (sym width extra : Nat)
deriving DecidableEq, Repr

/-- The shape of every element (R97 to R101, R249, R282). -/
def Instr.shape : Instr → Shape
  | .zhdr _ _ => .raw
  | .blkStored _ => .raw
  | .blkFixed _ => .raw
  | .blkDyn _ => .raw
  | .blkRsvd _ => .raw
  | .storedbody _ _ => .raw
  | .dynhdr _ _ _ _ => .raw
  | .cl0 => .cl 0 0 0
  | .cl1 => .cl 1 0 0
  | .cl2 => .cl 2 0 0
  | .cl3 => .cl 3 0 0
  | .cl4 => .cl 4 0 0
  | .cl5 => .cl 5 0 0
  | .cl6 => .cl 6 0 0
  | .cl7 => .cl 7 0 0
  | .cl8 => .cl 8 0 0
  | .cl9 => .cl 9 0 0
  | .cl10 => .cl 10 0 0
  | .cl11 => .cl 11 0 0
  | .cl12 => .cl 12 0 0
  | .cl13 => .cl 13 0 0
  | .cl14 => .cl 14 0 0
  | .cl15 => .cl 15 0 0
  | .cl16 e => .cl 16 2 e.toNat
  | .cl17 e => .cl 17 3 e.toNat
  | .cl18 e => .cl 18 7 e.toNat
  | .lit b => .ll b.toNat 0 0
  | .eob => .ll 256 0 0
  | .len257 => .ll 257 0 0
  | .len258 => .ll 258 0 0
  | .len259 => .ll 259 0 0
  | .len260 => .ll 260 0 0
  | .len261 => .ll 261 0 0
  | .len262 => .ll 262 0 0
  | .len263 => .ll 263 0 0
  | .len264 => .ll 264 0 0
  | .len265 e => .ll 265 1 e.toNat
  | .len266 e => .ll 266 1 e.toNat
  | .len267 e => .ll 267 1 e.toNat
  | .len268 e => .ll 268 1 e.toNat
  | .len269 e => .ll 269 2 e.toNat
  | .len270 e => .ll 270 2 e.toNat
  | .len271 e => .ll 271 2 e.toNat
  | .len272 e => .ll 272 2 e.toNat
  | .len273 e => .ll 273 3 e.toNat
  | .len274 e => .ll 274 3 e.toNat
  | .len275 e => .ll 275 3 e.toNat
  | .len276 e => .ll 276 3 e.toNat
  | .len277 e => .ll 277 4 e.toNat
  | .len278 e => .ll 278 4 e.toNat
  | .len279 e => .ll 279 4 e.toNat
  | .len280 e => .ll 280 4 e.toNat
  | .len281 e => .ll 281 5 e.toNat
  | .len282 e => .ll 282 5 e.toNat
  | .len283 e => .ll 283 5 e.toNat
  | .len284 e => .ll 284 5 e.toNat
  | .len285 => .ll 285 0 0
  | .ll286 => .ll 286 0 0
  | .ll287 => .ll 287 0 0
  | .dist0 => .d 0 0 0
  | .dist1 => .d 1 0 0
  | .dist2 => .d 2 0 0
  | .dist3 => .d 3 0 0
  | .dist4 e => .d 4 1 e.toNat
  | .dist5 e => .d 5 1 e.toNat
  | .dist6 e => .d 6 2 e.toNat
  | .dist7 e => .d 7 2 e.toNat
  | .dist8 e => .d 8 3 e.toNat
  | .dist9 e => .d 9 3 e.toNat
  | .dist10 e => .d 10 4 e.toNat
  | .dist11 e => .d 11 4 e.toNat
  | .dist12 e => .d 12 5 e.toNat
  | .dist13 e => .d 13 5 e.toNat
  | .dist14 e => .d 14 6 e.toNat
  | .dist15 e => .d 15 6 e.toNat
  | .dist16 e => .d 16 7 e.toNat
  | .dist17 e => .d 17 7 e.toNat
  | .dist18 e => .d 18 8 e.toNat
  | .dist19 e => .d 19 8 e.toNat
  | .dist20 e => .d 20 9 e.toNat
  | .dist21 e => .d 21 9 e.toNat
  | .dist22 e => .d 22 10 e.toNat
  | .dist23 e => .d 23 10 e.toNat
  | .dist24 e => .d 24 11 e.toNat
  | .dist25 e => .d 25 11 e.toNat
  | .dist26 e => .d 26 12 e.toNat
  | .dist27 e => .d 27 12 e.toNat
  | .dist28 e => .d 28 13 e.toNat
  | .dist29 e => .d 29 13 e.toNat
  | .dist30 => .d 30 0 0
  | .dist31 => .d 31 0 0
  | .ztrl _ => .raw
  | .ftNone => .raw
  | .ftSub => .raw
  | .ftUp => .raw
  | .ftAvg => .raw
  | .ftPaeth => .raw
  | .ftRsvd _ => .raw

/-- code_first[L] of R104, for L ≥ 1. -/
def codeFirst (T : HuffTable) : Nat → Nat
  | 0 => 0
  | 1 => 0
  | L + 1 => 2 * (codeFirst T L + T.countAt L)

/-- How many symbols have a code shorter than L, for L ≥ 1 (R156: INDEX). -/
def indexFirst (T : HuffTable) : Nat → Nat
  | 0 => 0
  | 1 => 0
  | L + 1 => indexFirst T L + T.countAt L

/-- The code of symbol `s` in table `T`, in reading order (R104, R151): the k-th symbol of length L has the L-bit code
code_first[L] + k. None if the symbol has no code. -/
def codeBits (T : HuffTable) (s : Nat) : Option (List Bool) :=
  (List.range' 1 15).findSome? fun L =>
    (List.range (T.countAt L)).findSome? fun k =>
      if T.symbol[indexFirst T L + k]? = some (BitVec.ofNat 9 s) then some (bitsMsb L (codeFirst T L + k)) else none

/-- The bits of a dynamic header's code-length-code lengths (R184). -/
def lengthsBits : List (BitVec 3) → List Bool
  | [] => []
  | l :: ls => bitsLsb 3 l.toNat ++ lengthsBits ls

/-- The bits of an element in a context, starting at bit position `pos` of the stream; none if the element does not belong to
the context or its symbol has no code. Padding bits are written 0 (R94, R102). In a context with no previous length the
encoding of CL16 ends after its code, which is as far as the core reads (R190). -/
def encode (c : Ctx) (pos : Nat) (i : Instr) : Option (List Bool) :=
  match c with
  | .zh =>
    match i with
    | .zhdr cmf flg => some (bitsLsb 8 cmf.toNat ++ bitsLsb 8 flg.toNat)
    | _ => none
  | .bh =>
    match i with
    | .blkStored f => some (f :: bitsLsb 2 0)
    | .blkFixed f => some (f :: bitsLsb 2 1)
    | .blkDyn f => some (f :: bitsLsb 2 2)
    | .blkRsvd f => some (f :: bitsLsb 2 3)
    | _ => none
  | .st =>
    match i with
    | .storedbody len nlen =>
      some (List.replicate (padding pos) false ++ bitsLsb 16 len.toNat ++ bitsLsb 16 nlen.toNat)
    | _ => none
  | .dh =>
    match i with
    | .dynhdr hlit5 hdist5 hclen4 ls =>
      some (bitsLsb 5 hlit5.toNat ++ bitsLsb 5 hdist5.toNat ++ bitsLsb 4 hclen4.toNat ++ lengthsBits ls)
    | _ => none
  | .cl T hasPrev =>
    match i.shape with
    | .cl s n e =>
      match codeBits T s with
      | none => none
      | some code =>
        if s = 16 ∧ hasPrev = false then (if e = 0 then some code else none) else some (code ++ bitsLsb n e)
    | _ => none
  | .ll T =>
    match i.shape with
    | .ll s n e =>
      match codeBits T s with
      | none => none
      | some code => some (code ++ bitsLsb n e)
    | _ => none
  | .d T =>
    match i.shape with
    | .d s n e =>
      match codeBits T s with
      | none => none
      | some code => some (code ++ bitsLsb n e)
    | _ => none
  | .tr =>
    match i with
    | .ztrl t =>
      some (List.replicate (padding pos) false ++ bitsLsb 8 (t.toNat / 2 ^ 24) ++ bitsLsb 8 (t.toNat / 2 ^ 16)
        ++ bitsLsb 8 (t.toNat / 2 ^ 8) ++ bitsLsb 8 t.toNat)
    | _ => none
  | .ft =>
    match i with
    | .ftNone => some (bitsLsb 8 0)
    | .ftSub => some (bitsLsb 8 1)
    | .ftUp => some (bitsLsb 8 2)
    | .ftAvg => some (bitsLsb 8 3)
    | .ftPaeth => some (bitsLsb 8 4)
    | .ftRsvd b => some (bitsLsb 8 b.toNat)
    | _ => none

/-! ## Words as spec/opcode_table.json numbers them -/

/-- The context in which the table's word `w` of `nbits` bits is read. The table has no context column for a tool, and words of
different phases overlap (R107: the opcode is the pair of phase and value). DESIGN CHOICE, log 8: 16-bit words from 0xC000
are distance elements, other 16-bit words the envelope header; 8-bit words 0..4 are filter-type bytes, 5..7 and words under 8 bits
that fit 3 bits are block headers, 0x40 and 0x48 (DIST8 and DIST9 with extra field 0) are distance elements of a fixed block, the
rest literal/length elements of a fixed block. -/
def tableCtx (nbits w : Nat) : Ctx :=
  if nbits = 16 then (if 0xC000 ≤ w then .d fdt else .zh)
  else if nbits < 5 then .bh
  else if nbits = 5 then .d fdt
  else if nbits = 8 then
    (if w < 5 then .ft else if w < 8 then .bh else if w = 0x40 ∨ w = 0x48 then .d fdt else .ll fllt)
  else .ll fllt

/-- The bits of a table word in reading order: the table shows a Huffman-coded row with its first bit at the left (as the most
significant bit of the number), ZHDR as CMF then FLG each most-significant bit first, a block header as the value whose bit 0 is
read first, and a filter-type byte as the byte. -/
def tableBits (nbits w : Nat) : List Bool :=
  match tableCtx nbits w with
  | .zh => bitsLsb 8 (w / 256) ++ bitsLsb 8 w
  | .ll _ => bitsMsb nbits w
  | .d _ => bitsMsb nbits w
  | _ => bitsLsb nbits w

/-- The bits of a table word and enough zeros for the longest element that could follow from it. -/
def tableStream (nbits w : Nat) : List Bool :=
  tableBits nbits w ++ List.replicate (128 - (tableBits nbits w).length % 8) false

/-- The element the decoder reads from a word of spec/opcode_table.json. -/
def decodeTableWord (nbits w : Nat) : Option Instr :=
  match decode bitStringSource (tableCtx nbits w) { pos := 0, bits := tableStream nbits w } with
  | .ok f => some f.instr
  | .error _ => none

end Sys2Proof
end

