-- ==== Sys2Proof/Machine/State.lean ====
section
/-! DEFINITION. The state of the flux2 CORE as plain data (spec R20), the decode faults (R355), and the outcomes of a step. -/

namespace Sys2Proof.Machine

/-- PHASE (R30). -/
inductive Phase where
  | idle | cfg | zhdr | blkhdr | stored | dynhdr | dynlens | symloop | endchk | trailer | unfilter | done | fault
deriving DecidableEq, Repr, Inhabited

/-- STATUS.STATE (R35). -/
inductive Status where
  | idle | busy | done | fault
deriving DecidableEq, Repr, Inhabited

/-- The decode faults, which are this hardware's exceptions (R355). Raising one is a NEXT state, see `raiseFault` (R360). -/
inductive Err where
  | badConfig | resource | inputExhausted | zlibCheck | zlibMethod | presetDict | blockType | storedLen | huffLenRange
  | huffOver | huffUnder | huffNoMatch | repeatNoPrev | repeatOverrun | badLitLenSym | badDistSym | distTooFar
  | outputOverflow | lengthMismatch | checksum | badFilterType
deriving DecidableEq, Repr, Inhabited

/-- The three memory spaces (R43, R60). -/
inductive Space where
  | inp | out | pix
deriving DecidableEq, Repr, Inhabited

/-- The moves of the host (R350, R352, R400). -/
inductive HostMove where
  /-- write a register of the register block at a byte offset (R33); CTRL.START is among them (R34) -/
  | writeReg (offset : Nat) (v : Word)
  /-- read a register of the register block (R33) -/
  | readReg (offset : Nat)
  /-- write a byte of IN (R401) -/
  | writeIn (a : Nat) (b : Byte)
  /-- read a byte of OUT (R352) -/
  | readOut (a : Nat)
  /-- read a byte of PIX (R352) -/
  | readPix (a : Nat)
  /-- hardware reset (R400) -/
  | hardReset
deriving DecidableEq, Repr

/-- Why a step stops with a fault. Each is an access the spec says cannot exist (R60, R70, R47): SAFE, the model stops where
no run of the hardware goes. None is met from a state that satisfies `Inv` (Safety.lean). Log 14. -/
inductive Fault where
  /-- an address outside the valid range of its space (R60); raised by the checked memory accesses of Machine/Ops.lean. SAFE. -/
  | noSuchAddress (sp : Space) (a : Nat)
  /-- an entry outside the array LENS (R28); raised by `setLen` and CL16. SAFE. -/
  | noSuchEntry (k : Nat)
  /-- a SYMBOL entry that holds no value, or a symbol outside the alphabet (R27, R156); raised by fetching a Huffman-coded
  element. SAFE. -/
  | noSuchSymbol (k : Nat)
deriving DecidableEq, Repr

/-- Why a step is refused. -/
inductive Refusal where
  /-- an instruction without a meaning; raised by exec's arms only. SAFE. -/
  | notModelled (mnemonic : String)
  /-- HDECODE on a table with VALID = 0 (R155, U20 of 93_implementation_defined.md); raised by fetching. SAFE: no run of the
  hardware goes there. -/
  | invalidTable
  /-- GETBITS(n) with n > 24 (R133, U2); no rule issues it. SAFE. -/
  | getbitsTooWide
  /-- a host move that the spec does not give the host in this STATE (R352, R361, R405; U16, U18): a host read of OUT or PIX outside
  DONE or beyond its length, a host read of OUT_LEN or PIX_LEN outside DONE, a host write of IN while BUSY; raised by `hostMove`.
  SAFE. Log 15. -/
  | hostMove (m : HostMove)
deriving DecidableEq, Repr

/-- The bit reader (R21). -/
structure BitReader where
  /-- POS: index into IN of the next byte not yet loaded -/
  pos : BitVec 32
  /-- ACC: buffered bits, bit 0 next; a number below 2^ACC_W, since its width is the parameter ACC_W (R8, R21; log 3) -/
  acc : Nat
  /-- BITCNT: number of valid bits in ACC -/
  bitcnt : BitVec 6
deriving DecidableEq, Repr, Inhabited

/-- A memory: (address, byte) pairs, addresses strictly rising, no byte equal to what an unlisted address reads as (log 2). -/
abbrev Memory := List Host.Cell

/-- The state (R20). The last five fields are the model's own (INVENTORY.md). -/
structure State where
  /-- POS, ACC, BITCNT (R21) -/
  br : BitReader
  /-- CODE, FIRST, INDEX, HLEN, SYM (R23) -/
  hd : HuffRegs
  /-- OPOS (R23) -/
  opos : BitVec 32
  /-- EXPECTED (R23) -/
  expected : BitVec 32
  /-- BFINAL (R26) -/
  bfinal : Bool
  /-- BTYPE (R23) -/
  btype : BitVec 2
  /-- HLIT (R23) -/
  hlit : BitVec 9
  /-- HDIST (R23) -/
  hdist : BitVec 6
  /-- HCLEN (R23) -/
  hclen : BitVec 5
  /-- LIDX (R23) -/
  lidx : BitVec 9
  /-- MLEN (R23) -/
  mlen : BitVec 9
  /-- MDIST (R23) -/
  mdist : BitVec 16
  /-- SLEN (R23) -/
  slen : BitVec 16
  /-- SNLEN (R23) -/
  snlen : BitVec 16
  /-- CLT (R27) -/
  clt : HuffTable
  /-- LLT (R27) -/
  llt : HuffTable
  /-- DT (R27) -/
  dt : HuffTable
  /-- CLLENS[0..18] (R28) -/
  cllens : Vector (BitVec 3) 19
  /-- LENS[0..319] (R28) -/
  lens : Vector (BitVec 4) 320
  /-- PHASE (R30) -/
  phase : Phase
  /-- S1 (R31) -/
  s1 : BitVec 16
  /-- S2 (R31) -/
  s2 : BitVec 16
  /-- ROW (R32) -/
  row : BitVec 32
  /-- COL (R32) -/
  col : BitVec 34
  /-- FT (R32) -/
  ft : BitVec 8
  /-- ROWBYTES (R32) -/
  rowbytes : BitVec 34
  /-- BPP (R32) -/
  bpp : BitVec 3
  /-- ERR.CODE (R36) -/
  err : BitVec 8
  /-- IN_LEN (R37) -/
  inLen : BitVec 32
  /-- WIDTH (R38) -/
  width : BitVec 32
  /-- HEIGHT (R39) -/
  height : BitVec 32
  /-- CHANNELS (R40) -/
  channels : BitVec 3
  /-- OUT_LEN (R41) -/
  outLen : BitVec 32
  /-- PIX_LEN (R42) -/
  pixLen : BitVec 32
  /-- memory IN (R61) -/
  inm : Memory
  /-- memory OUT (R62) -/
  out : Memory
  /-- memory PIX (R63) -/
  pix : Memory
  /-- model: a length element has run and its distance element is next (R216; log 5) -/
  inMatch : Bool
  /-- model: the parameters of R8 (log 3) -/
  par : Params
  /-- model: the host's pending moves, first first; `none` lets the core act (log 6) -/
  sched : List (Option HostMove)
  /-- model: what the host's last read returned (log 6) -/
  rdata : Word
  /-- model: how many times free values have been taken (log 4) -/
  freeCtr : Nat
deriving DecidableEq, Repr, Inhabited

/-- A table file after reset: VALID = 0 (R45); its contents are unspecified (DESIGN CHOICE, log 1: COUNT 0, no SYMBOL). -/
def HuffTable.cleared : HuffTable := { count := Vector.replicate 16 0, symbol := [], valid := false }

/-- The machine right after hardware reset (R45, R400). Registers R45 leaves unspecified are 0 (DESIGN CHOICE, log 1); the
memories list nothing (log 2); the parameters have the defaults of R8 (log 3). -/
def State.reset : State where
  br := { pos := 0, acc := 0, bitcnt := 0 }
  hd := { code := 0, first := 0, index := 0, hlen := 0, sym := 0 }
  opos := 0
  expected := 0
  bfinal := false
  btype := 0
  hlit := 0
  hdist := 0
  hclen := 0
  lidx := 0
  mlen := 0
  mdist := 0
  slen := 0
  snlen := 0
  clt := HuffTable.cleared
  llt := HuffTable.cleared
  dt := HuffTable.cleared
  cllens := Vector.replicate 19 0
  lens := Vector.replicate 320 0
  phase := .idle
  s1 := 0
  s2 := 0
  row := 0
  col := 0
  ft := 0
  rowbytes := 0
  bpp := 0
  err := 0
  inLen := 0
  width := 0
  height := 0
  channels := 0
  outLen := 0
  pixLen := 0
  inm := []
  out := []
  pix := []
  inMatch := false
  par := Params.default
  sched := []
  rdata := 0
  freeCtr := 0

/-- What an instruction or a step answers. -/
abbrev Result := Host.Outcome State Fault Refusal

end Sys2Proof.Machine
end

