-- ==== Sys2Proof/Machine/Ops.lean ====
section
/-! DEFINITION. The shared operations: memory, the projections of the state, fault entry (R360), the bit reader (R130 to R135), EMIT
(R214), the checksum (R305), BUILD (R152), code-length writes (R188, R189), the match copy (R218) and the row loop (R321). -/

namespace Sys2Proof.Machine

/-! ## Memory (R60, R66) -/

/-- What an address that nothing has written reads as. The spec gives no value (R45, R404): DESIGN CHOICE 0x00, log 2. -/
def Memory.default : Byte := 0

/-- MemRead(S, a, 1) on a memory (R10). -/
def Memory.read : Memory → Nat → Byte
  | [], _ => Memory.default
  | (k, b) :: m, a => if a = k then b else if a < k then Memory.default else Memory.read m a

/-- MemWrite(S, a, 1, v) on a memory (R10), keeping the canonical form. -/
def Memory.write : Memory → Nat → Byte → Memory
  | [], a, v => if v = Memory.default then [] else [(a, v)]
  | (k, b) :: m, a, v =>
    if a < k then (if v = Memory.default then (k, b) :: m else (a, v) :: (k, b) :: m)
    else if a = k then (if v = Memory.default then m else (a, v) :: m)
    else (k, b) :: Memory.write m a v

/-- Addresses strictly rising from `lo` on, and no byte equal to the default. -/
def Memory.wfFrom : Nat → Memory → Bool
  | _, [] => true
  | lo, (k, b) :: m => decide (lo ≤ k) && decide (b ≠ Memory.default) && Memory.wfFrom (k + 1) m

/-- The canonical form of a memory. -/
def Memory.wf (m : Memory) : Bool := Memory.wfFrom 0 m

/-- The canonical memory that holds the given cells, a later one over an earlier one. -/
def Memory.ofCells (cells : List (Nat × BitVec 8)) : Memory :=
  cells.foldl (fun m c => Memory.write m c.1 c.2) []

/-! ## Projections of the state -/

/-- STATUS.STATE as the projection of PHASE (R30, R35; log 13). -/
def Phase.status : Phase → Status
  | .idle => .idle
  | .cfg => .busy
  | .zhdr => .busy
  | .blkhdr => .busy
  | .stored => .busy
  | .dynhdr => .busy
  | .dynlens => .busy
  | .symloop => .busy
  | .endchk => .busy
  | .trailer => .busy
  | .unfilter => .busy
  | .done => .done
  | .fault => .fault

/-- STATUS.STATE of a state (R35). -/
def State.status (s : State) : Status := s.phase.status

/-- The two bits of STATUS.STATE (R35). -/
def Status.code : Status → BitVec 2
  | .idle => 0
  | .busy => 1
  | .done => 2
  | .fault => 3

/-- The completion line `done` (R358). -/
def State.doneLine (s : State) : Bool := s.status == .done || s.status == .fault

/-- The bit cursor BP = 8*POS - BITCNT (R24). -/
def BitReader.bp (br : BitReader) : Nat := 8 * br.pos.toNat - br.bitcnt.toNat

/-- BP of a state (R24). -/
def State.bp (s : State) : Nat := s.br.bp

/-! ## Fault entry (R360) -/

/-- The fault codes (R355). -/
def errCode : Err → BitVec 8
  | .badConfig => 1
  | .resource => 2
  | .inputExhausted => 3
  | .zlibCheck => 4
  | .zlibMethod => 5
  | .presetDict => 6
  | .blockType => 7
  | .storedLen => 8
  | .huffLenRange => 9
  | .huffOver => 10
  | .huffUnder => 11
  | .huffNoMatch => 12
  | .repeatNoPrev => 13
  | .repeatOverrun => 14
  | .badLitLenSym => 15
  | .badDistSym => 16
  | .distTooFar => 17
  | .outputOverflow => 18
  | .lengthMismatch => 19
  | .checksum => 20
  | .badFilterType => 21

/-- A table file with unspecified contents (R360): free values at `event`, slots `slot`, `slot`+1, `slot`+2, `n` symbol entries. -/
def freeTable (event slot n : Nat) : HuffTable where
  count := Vector.ofFn fun L : Fin 16 => Config.freeBits 9 event slot L.val
  symbol := (List.range n).map (Config.freeBits 9 event (slot + 1))
  valid := (Config.freeBits 1 event (slot + 2) 0).getLsbD 0

/-- Everything R360 leaves unspecified, set to free values at `event`: every internal register and table, OUT, PIX, OUT_LEN
and PIX_LEN. IN, the configuration registers, PHASE, ERR.CODE and the model's own fields are kept. -/
def unspecify (event : Nat) (s : State) : State :=
  { s with
    br := { pos := Config.freeBits 32 event 0 0, acc := (Config.freeBits s.par.accW event 1 0).toNat, bitcnt := Config.freeBits 6 event 2 0 }
    hd := { code := Config.freeBits 16 event 3 0, first := Config.freeBits 16 event 4 0, index := Config.freeBits 9 event 5 0,
            hlen := Config.freeBits 4 event 6 0, sym := Config.freeBits 9 event 7 0 }
    opos := Config.freeBits 32 event 8 0
    expected := Config.freeBits 32 event 9 0
    bfinal := (Config.freeBits 1 event 10 0).getLsbD 0
    btype := Config.freeBits 2 event 11 0
    hlit := Config.freeBits 9 event 12 0
    hdist := Config.freeBits 6 event 13 0
    hclen := Config.freeBits 5 event 14 0
    lidx := Config.freeBits 9 event 15 0
    mlen := Config.freeBits 9 event 16 0
    mdist := Config.freeBits 16 event 17 0
    slen := Config.freeBits 16 event 18 0
    snlen := Config.freeBits 16 event 19 0
    clt := freeTable event 20 19
    llt := freeTable event 23 288
    dt := freeTable event 26 32
    cllens := Vector.ofFn fun i : Fin 19 => Config.freeBits 3 event 29 i.val
    lens := Vector.ofFn fun i : Fin 320 => Config.freeBits 4 event 30 i.val
    s1 := Config.freeBits 16 event 31 0
    s2 := Config.freeBits 16 event 32 0
    row := Config.freeBits 32 event 33 0
    col := Config.freeBits 34 event 34 0
    ft := Config.freeBits 8 event 35 0
    rowbytes := Config.freeBits 34 event 36 0
    bpp := Config.freeBits 3 event 37 0
    outLen := Config.freeBits 32 event 38 0
    pixLen := Config.freeBits 32 event 39 0
    out := Memory.ofCells (Config.freeCells event 40)
    pix := Memory.ofCells (Config.freeCells event 41) }

/-- Fault entry, `raise e` (R360): ERR.CODE <- code(e), STATUS.STATE <- FAULT, PHASE <- FAULT; the job stops, and all that R360
leaves unspecified takes free values (log 4). -/
def raiseFault (e : Err) (s : State) : State :=
  { unspecify s.freeCtr s with err := errCode e, phase := .fault, inMatch := false, freeCtr := s.freeCtr + 1 }

/-- Why an operation does not complete: it raises a fault of the spec, or the model stops. -/
inductive Stop where
  /-- `raise e` (R10) -/
  | raise (e : Err)
  /-- an access the spec says cannot exist -/
  | fault (f : Fault)
  /-- a call the spec says a model refuses -/
  | refuse (r : Refusal)
deriving DecidableEq, Repr

/-- The answer of an element or phase action that began in state `s`: the state the operation reached, or fault entry from `s`
(R360: whatever the operation had done is unspecified). -/
def finish (s : State) : Except Stop State → Result
  | .ok t => .next t
  | .error (.raise e) => .next (raiseFault e s)
  | .error (.fault f) => .fault f
  | .error (.refuse r) => .refused r

/-- What a decoding failure is to the machine: ErrInputExhausted (R132), ErrHuffNoMatch (R156), or a stop of the model. -/
def decodeStop : DecodeError → Stop
  | .exhausted => .raise .inputExhausted
  | .noMatch => .raise .huffNoMatch
  | .invalidTable => .refuse .invalidTable
  | .noSuchSymbol k => .fault (.noSuchSymbol k)
  | .tooWide => .refuse .getbitsTooWide

/-! ## The bit reader (R130 to R135) -/

/-- The refill loop of GETBITS (R132): whole bytes of IN, only while fewer than `n` bits are buffered; none if IN ends. ACC keeps
`accW` bits (R8, R21). `fuel` is the most bytes the loop may load (each loads 8 bits, so `n` is enough). -/
def refill (inm : Memory) (inLen accW : Nat) : Nat → Nat → BitReader → Option BitReader
  | 0, _, br => some br
  | fuel + 1, n, br =>
    if br.bitcnt.toNat < n then
      if inLen ≤ br.pos.toNat then none
      else
        refill inm inLen accW fuel n
          { acc := (br.acc ||| ((Memory.read inm br.pos.toNat).toNat <<< br.bitcnt.toNat)) % 2 ^ accW
            pos := br.pos + 1
            bitcnt := br.bitcnt + 8 }
    else some br

/-- GETBITS(n) (R132) on the reader's registers, with the N_MAX and ACC_W of `par`; refused for n > N_MAX (R133). -/
def getbits (inm : Memory) (inLen : Nat) (par : Params) (n : Nat) (br : BitReader) : Except DecodeError (Nat × BitReader) :=
  if n > par.nMax then .error .tooWide
  else
    match refill inm inLen par.accW n n br with
    | none => .error .exhausted
    | some r => .ok (r.acc % 2 ^ n, { pos := r.pos, acc := r.acc >>> n, bitcnt := r.bitcnt - BitVec.ofNat 6 n })

/-- ALIGN() (R134). -/
def alignReader (br : BitReader) : BitReader := { br with acc := 0, bitcnt := 0 }

/-- The machine's bit reader as a source of the decoder. -/
def readerSource (inm : Memory) (inLen : Nat) (par : Params) : BitSource BitReader where
  get := getbits inm inLen par
  align := alignReader

/-- GETBITS(n) on the state (R132). -/
def stateGetbits (n : Nat) (s : State) : Except Stop (Nat × State) :=
  match getbits s.inm s.inLen.toNat s.par n s.br with
  | .error e => .error (decodeStop e)
  | .ok (v, br) => .ok (v, { s with br := br })

/-! ## Checked accesses to OUT and PIX (R60, R70) -/

/-- MemRead(OUT, a, 1): valid addresses are 0 .. EXPECTED-1 (R60). -/
def readOut (a : Nat) (s : State) : Except Stop Byte :=
  if a < s.expected.toNat then .ok (Memory.read s.out a) else .error (.fault (.noSuchAddress .out a))

/-- The size of PIX during a job: HEIGHT*ROWBYTES = WIDTH*HEIGHT*CHANNELS bytes (R60, R321). -/
def State.pixSize (s : State) : Nat := s.height.toNat * s.rowbytes.toNat

/-- MemRead(PIX, a, 1): valid addresses are 0 .. WIDTH*HEIGHT*CHANNELS-1 (R60). -/
def readPix (a : Nat) (s : State) : Except Stop Byte :=
  if a < s.pixSize then .ok (Memory.read s.pix a) else .error (.fault (.noSuchAddress .pix a))

/-- MemWrite(PIX, a, 1, v) (R60). -/
def writePix (a : Nat) (v : Byte) (s : State) : Except Stop State :=
  if a < s.pixSize then .ok { s with pix := Memory.write s.pix a v } else .error (.fault (.noSuchAddress .pix a))

/-! ## EMIT and the checksum (R214, R305) -/

/-- The modulus of ADLER_STEP (R305). -/
def adlerMod : Nat := 65521

/-- ADLER_STEP(b) (R305). -/
def adlerStep (b : Byte) (s : State) : State :=
  let s1 := (s.s1.toNat + b.toNat) % adlerMod
  { s with s1 := BitVec.ofNat 16 s1, s2 := BitVec.ofNat 16 ((s.s2.toNat + s1) % adlerMod) }

/-- CHECKSUM = (S2 << 16) | S1 (R305). -/
def State.checksum (s : State) : Word := s.s2 ++ s.s1

/-- The effect of EMIT(b) when the byte fits (R214). -/
def emitByte (b : Byte) (s : State) : State :=
  adlerStep b { s with out := Memory.write s.out s.opos.toNat b, opos := s.opos + 1 }

/-- EMIT(b) (R214). -/
def emit (b : Byte) (s : State) : Except Stop State :=
  if s.expected.toNat ≤ s.opos.toNat then .error (.raise .outputOverflow) else .ok (emitByte b s)

/-! ## READBYTES (R135) -/

/-- The fast path's loop: `len` times EMIT(MemRead(IN, POS, 1)), POS <- POS + 1. -/
def readBytesAligned : Nat → State → Except Stop State
  | 0, s => .ok s
  | k + 1, s =>
    match emit (Memory.read s.inm s.br.pos.toNat) s with
    | .error e => .error e
    | .ok s => readBytesAligned k { s with br := { s.br with pos := s.br.pos + 1 } }

/-- The fallback's loop: `len` times EMIT(GETBITS(8)). -/
def readBytesShifted : Nat → State → Except Stop State
  | 0, s => .ok s
  | k + 1, s =>
    match stateGetbits 8 s with
    | .error e => .error e
    | .ok (v, s) =>
      match emit (BitVec.ofNat 8 v) s with
      | .error e => .error e
      | .ok s => readBytesShifted k s

/-- READBYTES(len) (R135). -/
def readBytes (len : Nat) (s : State) : Except Stop State :=
  if s.br.bitcnt = 0 then
    if s.inLen.toNat < s.br.pos.toNat + len then .error (.raise .inputExhausted) else readBytesAligned len s
  else readBytesShifted len s

/-! ## MATCHCOPY (R218) -/

/-- The copy loop of MATCHCOPY: EMIT(MemRead(OUT, OPOS - MDIST, 1)), one byte after another (R73). -/
def copyLoop : Nat → State → Except Stop State
  | 0, s => .ok s
  | k + 1, s =>
    match readOut (s.opos.toNat - s.mdist.toNat) s with
    | .error e => .error e
    | .ok b =>
      match emit b s with
      | .error e => .error e
      | .ok s => copyLoop k s

/-- MATCHCOPY (R218): the distance check, then the output bound (R219), then the copy. -/
def matchCopy (s : State) : Except Stop State :=
  if s.opos.toNat < s.mdist.toNat then .error (.raise .distTooFar)
  else if s.expected.toNat < s.opos.toNat + s.mlen.toNat then .error (.raise .outputOverflow)
  else copyLoop s.mlen.toNat s

/-! ## BUILD (R152) -/

/-- The Kraft counter of BUILD over COUNT[L], COUNT[L+1], .. (R152): ErrHuffOver as soon as it is negative. -/
def kraftLoop : List Nat → Int → Except Err Int
  | [], left => .ok left
  | c :: cs, left => if 2 * left - c < 0 then .error .huffOver else kraftLoop cs (2 * left - c)

/-- The symbols of code length L, in increasing symbol number, `s` being the number of the first symbol of the list (R151). -/
def symbolsOfLength (L : Nat) : Nat → List Nat → List (BitVec 9)
  | _, [] => []
  | s, l :: ls => if l = L then BitVec.ofNat 9 s :: symbolsOfLength L (s + 1) ls else symbolsOfLength L (s + 1) ls

/-- SYMBOL as BUILD leaves it (R151, R152): the symbols with a code, ordered first by code length, then by symbol number. -/
def canonicalSymbols (lens : List Nat) : List (BitVec 9) :=
  (List.range' 1 15).flatMap fun L => symbolsOfLength L 0 lens

/-- BUILD(T, lens, n) with n the length of the list (R152): the range check, the counts, the Kraft counter, then the symbols. -/
def build (lens : List Nat) : Except Err HuffTable :=
  if lens.any (fun l => 15 < l) then .error .huffLenRange
  else
    match kraftLoop ((List.range' 1 15).map (fun L => lens.count L)) 1 with
    | .error e => .error e
    | .ok left =>
      if 0 < left then .error .huffUnder
      else
        .ok { count := Vector.ofFn fun L : Fin 16 => BitVec.ofNat 9 (lens.count L.val)
              symbol := canonicalSymbols lens
              valid := true }

/-! ## Code lengths (R188, R189) -/

/-- `LENS[LIDX] <- v; LIDX <- LIDX + 1` (R188). -/
def setLen (v : BitVec 4) (s : State) : Except Stop State :=
  if s.lidx.toNat < 320 then .ok { s with lens := s.lens.setIfInBounds s.lidx.toNat v, lidx := s.lidx + 1 }
  else .error (.fault (.noSuchEntry s.lidx.toNat))

/-- `r` times setLen. -/
def setLens : Nat → BitVec 4 → State → Except Stop State
  | 0, _, s => .ok s
  | r + 1, v, s =>
    match setLen v s with
    | .error e => .error e
    | .ok s => setLens r v s

/-- HLIT + HDIST (R186). -/
def State.totalLens (s : State) : Nat := s.hlit.toNat + s.hdist.toNat

/-- REPEAT(v, r) (R189). -/
def repeatLen (v : BitVec 4) (r : Nat) (s : State) : Except Stop State :=
  if s.totalLens < s.lidx.toNat + r then .error (.raise .repeatOverrun) else setLens r v s

/-! ## The row loop of UNFILTER (R321) -/

/-- The neighbour a (left) of byte `col` of the current row, from PIX; 0 where there is none (R321, R329). -/
def readLeft (col : Nat) (s : State) : Except Stop Byte :=
  if s.bpp.toNat ≤ col then readPix (s.row.toNat * s.rowbytes.toNat + col - s.bpp.toNat) s else .ok 0

/-- The neighbour b (above); 0 on row 0 (R321, R329). -/
def readAbove (col : Nat) (s : State) : Except Stop Byte :=
  if 1 ≤ s.row.toNat then readPix ((s.row.toNat - 1) * s.rowbytes.toNat + col) s else .ok 0

/-- The neighbour c (above-left); 0 where there is none (R321, R329). -/
def readAboveLeft (col : Nat) (s : State) : Except Stop Byte :=
  if 1 ≤ s.row.toNat ∧ s.bpp.toNat ≤ col then readPix ((s.row.toNat - 1) * s.rowbytes.toNat + col - s.bpp.toNat) s
  else .ok 0

/-- One byte of the row loop: `PIX[..] <- (x + PRED(FT, a, b, c)) mod 256` (R321, R322). -/
def unfilterByte (pred : Byte → Byte → Byte → Byte) (col : Nat) (s : State) : Except Stop State := do
  let x ← readOut (s.row.toNat * (1 + s.rowbytes.toNat) + 1 + col) s
  let a ← readLeft col s
  let b ← readAbove col s
  let c ← readAboveLeft col s
  writePix (s.row.toNat * s.rowbytes.toNat + col) (x + pred a b c) { s with col := BitVec.ofNat 34 col }

/-- The loop over COL, `k` bytes from byte `col` on (R321). -/
def unfilterLoop (pred : Byte → Byte → Byte → Byte) : Nat → Nat → State → Except Stop State
  | 0, _, s => .ok s
  | k + 1, col, s =>
    match unfilterByte pred col s with
    | .error e => .error e
    | .ok s => unfilterLoop pred k (col + 1) s

/-- One row of UNFILTER of filter type `t` (R321): FT <- t, the ROWBYTES bytes of the row, then the next ROW. -/
def unfilterRow (t : Byte) (pred : Byte → Byte → Byte → Byte) (s : State) : Except Stop State :=
  match unfilterLoop pred s.rowbytes.toNat 0 { s with ft := t } with
  | .error e => .error e
  | .ok s => .ok { s with row := s.row + 1 }

end Sys2Proof.Machine
end

