-- ==== Sys2Proof/Machine/Operands.lean ====
section
/-! DEFINITION. Operand assembly (spec R106) and the predictors of the filters (R329). -/

namespace Sys2Proof.Machine

/-- HLIT = HLIT5 + 257 (R95). -/
def hlitOf (hlit5 : BitVec 5) : BitVec 9 := BitVec.ofNat 9 (hlit5.toNat + 257)

/-- HDIST = HDIST5 + 1 (R95). -/
def hdistOf (hdist5 : BitVec 5) : BitVec 6 := BitVec.ofNat 6 (hdist5.toNat + 1)

/-- HCLEN = HCLEN4 + 4 (R95). -/
def hclenOf (hclen4 : BitVec 4) : BitVec 5 := BitVec.ofNat 5 (hclen4.toNat + 4)

/-- CLLENS after DYNHDR part 2 (R184): all 0, then position i of the transmission order gives CLLENS[CLORDER[i]]. -/
def cllensOf : List Nat → List (BitVec 3) → Vector (BitVec 3) 19 → Vector (BitVec 3) 19
  | _, [], v => v
  | [], _, v => v
  | k :: ks, l :: ls, v => cllensOf ks ls (v.setIfInBounds k l)

/-- A length code: MLEN <- base + e, and a distance element comes next (R216, R217). -/
def lengthElement (base e : Nat) (s : State) : State :=
  { s with mlen := BitVec.ofNat 9 (base + e), inMatch := true }

/-- A distance code: MDIST <- base + e, then MATCHCOPY; the match element ends (R216, R250, R251). -/
def distanceElement (base e : Nat) (s : State) : Except Stop State :=
  matchCopy { s with mdist := BitVec.ofNat 16 (base + e), inMatch := false }

/-- PRED of FT.NONE: 0 (R323). -/
def predNone (_ _ _ : Byte) : Byte := 0

/-- PRED of FT.SUB: a (R324). -/
def predSub (a _ _ : Byte) : Byte := a

/-- PRED of FT.UP: b (R325). -/
def predUp (_ b _ : Byte) : Byte := b

/-- PRED of FT.AVG: (a + b) >> 1, the sum in 9 bits (R326). -/
def predAvg (a b _ : Byte) : Byte := BitVec.ofNat 8 ((a.toNat + b.toNat) / 2)

/-- PRED of FT.PAETH (R327): the candidate nearest to p = a + b - c; ties in the order a, b, c. -/
def predPaeth (a b c : Byte) : Byte :=
  let p : Int := (a.toNat : Int) + b.toNat - c.toNat
  let pa := (p - a.toNat).natAbs
  let pb := (p - b.toNat).natAbs
  let pc := (p - c.toNat).natAbs
  if pa ≤ pb ∧ pa ≤ pc then a else if pb ≤ pc then b else c

end Sys2Proof.Machine
end

