-- ==== Sys2Proof/Machine/Flags.lean ====
section
/-! DEFINITION. The flags (spec R26): BFINAL with BTYPE, and the three VALID bits; and the block sequencing BFINAL decides (R171). There
are no arithmetic condition codes (R26). -/

namespace Sys2Proof.Machine

/-- BLKHDR: BFINAL and BTYPE are latched (R172), and the phase of the block's body follows (R171). -/
def latchHeader (bfinal : Bool) (btype : BitVec 2) (body : Phase) (s : State) : State :=
  { s with bfinal := bfinal, btype := btype, phase := body }

/-- CLT.VALID, LLT.VALID and DT.VALID cleared (R46, R183). -/
def clearValid (s : State) : State :=
  { s with
    clt := { s.clt with valid := false }
    llt := { s.llt with valid := false }
    dt := { s.dt with valid := false } }

/-- The end of a block: the next block header if BFINAL = 0, the end check if BFINAL = 1 (R171). -/
def endOfBlock (s : State) : State := { s with phase := if s.bfinal then .endchk else .blkhdr }

end Sys2Proof.Machine
end

