-- ==== Sys2Proof/Machine/Blocks.lean ====
section
/-! DEFINITION. Block headers, the stored body and the dynamic header (spec 42_block_machine.md). -/

namespace Sys2Proof.Machine

/-- BLK.STORED (R172, R173): the stored body follows. -/
def execBlkStored (bfinal : Bool) (s : State) : Result := .next (latchHeader bfinal 0 .stored s)

/-- BLK.FIXED (R172, R174): the symbol loop with FLLT and FDT follows at the next bit. -/
def execBlkFixed (bfinal : Bool) (s : State) : Result := .next (latchHeader bfinal 1 .symloop s)

/-- BLK.DYN (R172, R176): the dynamic header follows. -/
def execBlkDyn (bfinal : Bool) (s : State) : Result := .next (latchHeader bfinal 2 .dynhdr s)

/-- BLK.RSVD: ErrBlockType (R175). BFINAL and BTYPE are latched first (R172) and are unspecified after the fault (R360). -/
def execBlkRsvd (_bfinal : Bool) (s : State) : Result := .next (raiseFault .blockType s)

/-- STOREDBODY after its two length fields (R177): the complement check, the output bound, the raw bytes, and the end of the
block (R171). -/
def storedBody (len nlen : BitVec 16) (s : State) : Except Stop State :=
  let s := { s with slen := len, snlen := nlen }
  if len ≠ ~~~nlen then .error (.raise .storedLen)
  else if s.expected.toNat < s.opos.toNat + len.toNat then .error (.raise .outputOverflow)
  else
    match readBytes len.toNat s with
    | .error e => .error e
    | .ok s => .ok (endOfBlock s)

/-- STOREDBODY (R177, R178); ALIGN, LEN and NLEN are read when the element is fetched. -/
def execStoredbody (len nlen : BitVec 16) (s : State) : Result := finish s (storedBody len nlen s)

/-- The counts and code-length-code lengths of DYNHDR (R183, R184), and the start of DYNLENS, LIDX <- 0 (R186). -/
def dynhdrRegs (hlit5 hdist5 : BitVec 5) (hclen4 : BitVec 4) (lengths : List (BitVec 3)) (s : State) : State :=
  { clearValid s with
    hlit := hlitOf hlit5
    hdist := hdistOf hdist5
    hclen := hclenOf hclen4
    cllens := cllensOf clOrder lengths (Vector.replicate 19 0)
    lidx := 0
    phase := .dynlens }

/-- DYNHDR parts 1 to 3 (R183, R184, R185): the registers, then BUILD(CLT, CLLENS, 19). -/
def dynHeader (hlit5 hdist5 : BitVec 5) (hclen4 : BitVec 4) (lengths : List (BitVec 3)) (s : State) : Except Stop State :=
  let s := dynhdrRegs hlit5 hdist5 hclen4 lengths s
  match build (s.cllens.toList.map BitVec.toNat) with
  | .error e => .error (.raise e)
  | .ok T => .ok { s with clt := T }

/-- DYNHDR (R183 to R185); its fields are read when the element is fetched. -/
def execDynhdr (hlit5 hdist5 : BitVec 5) (hclen4 : BitVec 4) (lengths : List (BitVec 3)) (s : State) : Result :=
  finish s (dynHeader hlit5 hdist5 hclen4 lengths s)

end Sys2Proof.Machine
end

