-- ==== Sys2Proof/Machine/CodeLengths.lean ====
section
/-! DEFINITION. The code-length symbols (spec R186 to R192). -/

namespace Sys2Proof.Machine

/-- CL0: `LENS[LIDX] <- 0; LIDX <- LIDX + 1` (R188). -/
def execCl0 (s : State) : Result := finish s (setLen 0 s)

/-- CL1: `LENS[LIDX] <- 1; LIDX <- LIDX + 1` (R188). -/
def execCl1 (s : State) : Result := finish s (setLen 1 s)

/-- CL2: `LENS[LIDX] <- 2; LIDX <- LIDX + 1` (R188). -/
def execCl2 (s : State) : Result := finish s (setLen 2 s)

/-- CL3: `LENS[LIDX] <- 3; LIDX <- LIDX + 1` (R188). -/
def execCl3 (s : State) : Result := finish s (setLen 3 s)

/-- CL4: `LENS[LIDX] <- 4; LIDX <- LIDX + 1` (R188). -/
def execCl4 (s : State) : Result := finish s (setLen 4 s)

/-- CL5: `LENS[LIDX] <- 5; LIDX <- LIDX + 1` (R188). -/
def execCl5 (s : State) : Result := finish s (setLen 5 s)

/-- CL6: `LENS[LIDX] <- 6; LIDX <- LIDX + 1` (R188). -/
def execCl6 (s : State) : Result := finish s (setLen 6 s)

/-- CL7: `LENS[LIDX] <- 7; LIDX <- LIDX + 1` (R188). -/
def execCl7 (s : State) : Result := finish s (setLen 7 s)

/-- CL8: `LENS[LIDX] <- 8; LIDX <- LIDX + 1` (R188). -/
def execCl8 (s : State) : Result := finish s (setLen 8 s)

/-- CL9: `LENS[LIDX] <- 9; LIDX <- LIDX + 1` (R188). -/
def execCl9 (s : State) : Result := finish s (setLen 9 s)

/-- CL10: `LENS[LIDX] <- 10; LIDX <- LIDX + 1` (R188). -/
def execCl10 (s : State) : Result := finish s (setLen 10 s)

/-- CL11: `LENS[LIDX] <- 11; LIDX <- LIDX + 1` (R188). -/
def execCl11 (s : State) : Result := finish s (setLen 11 s)

/-- CL12: `LENS[LIDX] <- 12; LIDX <- LIDX + 1` (R188). -/
def execCl12 (s : State) : Result := finish s (setLen 12 s)

/-- CL13: `LENS[LIDX] <- 13; LIDX <- LIDX + 1` (R188). -/
def execCl13 (s : State) : Result := finish s (setLen 13 s)

/-- CL14: `LENS[LIDX] <- 14; LIDX <- LIDX + 1` (R188). -/
def execCl14 (s : State) : Result := finish s (setLen 14 s)

/-- CL15: `LENS[LIDX] <- 15; LIDX <- LIDX + 1` (R188). -/
def execCl15 (s : State) : Result := finish s (setLen 15 s)

/-- LENS[LIDX - 1], the previous length (R190). -/
def previousLen (s : State) : Except Stop (BitVec 4) :=
  match s.lens[s.lidx.toNat - 1]? with
  | some v => .ok v
  | none => .error (.fault (.noSuchEntry (s.lidx.toNat - 1)))

/-- CL16 after its extra bits: ErrRepeatNoPrev if LIDX = 0 (checked before the extra bits are read: `clExtraRead`), else
REPEAT(LENS[LIDX - 1], 3 + e) (R190). -/
def repeatPrevious (e : Nat) (s : State) : Except Stop State :=
  if s.lidx = 0 then .error (.raise .repeatNoPrev)
  else
    match previousLen s with
    | .error x => .error x
    | .ok v => repeatLen v (3 + e) s

/-- CL16 (R190). -/
def execCl16 (e : BitVec 2) (s : State) : Result := finish s (repeatPrevious e.toNat s)

/-- CL17: REPEAT(0, 3 + e) (R191). -/
def execCl17 (e : BitVec 3) (s : State) : Result := finish s (repeatLen 0 (3 + e.toNat) s)

/-- CL18: REPEAT(0, 11 + e) (R192). -/
def execCl18 (e : BitVec 7) (s : State) : Result := finish s (repeatLen 0 (11 + e.toNat) s)

end Sys2Proof.Machine
end

