-- ==== Sys2Proof/Machine/Distances.lean ====
section
/-! DEFINITION. Distance codes and the match they complete (spec R250 to R282). -/

namespace Sys2Proof.Machine

/-- DIST0: MDIST <- 1, then MATCHCOPY (R252). -/
def execDist0 (s : State) : Result := finish s (distanceElement 1 0 s)

/-- DIST1: MDIST <- 2, then MATCHCOPY (R253). -/
def execDist1 (s : State) : Result := finish s (distanceElement 2 0 s)

/-- DIST2: MDIST <- 3, then MATCHCOPY (R254). -/
def execDist2 (s : State) : Result := finish s (distanceElement 3 0 s)

/-- DIST3: MDIST <- 4, then MATCHCOPY (R255). -/
def execDist3 (s : State) : Result := finish s (distanceElement 4 0 s)

/-- DIST4: MDIST <- 5 + e, then MATCHCOPY (R256). -/
def execDist4 (e : BitVec 1) (s : State) : Result := finish s (distanceElement 5 e.toNat s)

/-- DIST5: MDIST <- 7 + e, then MATCHCOPY (R257). -/
def execDist5 (e : BitVec 1) (s : State) : Result := finish s (distanceElement 7 e.toNat s)

/-- DIST6: MDIST <- 9 + e, then MATCHCOPY (R258). -/
def execDist6 (e : BitVec 2) (s : State) : Result := finish s (distanceElement 9 e.toNat s)

/-- DIST7: MDIST <- 13 + e, then MATCHCOPY (R259). -/
def execDist7 (e : BitVec 2) (s : State) : Result := finish s (distanceElement 13 e.toNat s)

/-- DIST8: MDIST <- 17 + e, then MATCHCOPY (R260). -/
def execDist8 (e : BitVec 3) (s : State) : Result := finish s (distanceElement 17 e.toNat s)

/-- DIST9: MDIST <- 25 + e, then MATCHCOPY (R261). -/
def execDist9 (e : BitVec 3) (s : State) : Result := finish s (distanceElement 25 e.toNat s)

/-- DIST10: MDIST <- 33 + e, then MATCHCOPY (R262). -/
def execDist10 (e : BitVec 4) (s : State) : Result := finish s (distanceElement 33 e.toNat s)

/-- DIST11: MDIST <- 49 + e, then MATCHCOPY (R263). -/
def execDist11 (e : BitVec 4) (s : State) : Result := finish s (distanceElement 49 e.toNat s)

/-- DIST12: MDIST <- 65 + e, then MATCHCOPY (R264). -/
def execDist12 (e : BitVec 5) (s : State) : Result := finish s (distanceElement 65 e.toNat s)

/-- DIST13: MDIST <- 97 + e, then MATCHCOPY (R265). -/
def execDist13 (e : BitVec 5) (s : State) : Result := finish s (distanceElement 97 e.toNat s)

/-- DIST14: MDIST <- 129 + e, then MATCHCOPY (R266). -/
def execDist14 (e : BitVec 6) (s : State) : Result := finish s (distanceElement 129 e.toNat s)

/-- DIST15: MDIST <- 193 + e, then MATCHCOPY (R267). -/
def execDist15 (e : BitVec 6) (s : State) : Result := finish s (distanceElement 193 e.toNat s)

/-- DIST16: MDIST <- 257 + e, then MATCHCOPY (R268). -/
def execDist16 (e : BitVec 7) (s : State) : Result := finish s (distanceElement 257 e.toNat s)

/-- DIST17: MDIST <- 385 + e, then MATCHCOPY (R269). -/
def execDist17 (e : BitVec 7) (s : State) : Result := finish s (distanceElement 385 e.toNat s)

/-- DIST18: MDIST <- 513 + e, then MATCHCOPY (R270). -/
def execDist18 (e : BitVec 8) (s : State) : Result := finish s (distanceElement 513 e.toNat s)

/-- DIST19: MDIST <- 769 + e, then MATCHCOPY (R271). -/
def execDist19 (e : BitVec 8) (s : State) : Result := finish s (distanceElement 769 e.toNat s)

/-- DIST20: MDIST <- 1025 + e, then MATCHCOPY (R272). -/
def execDist20 (e : BitVec 9) (s : State) : Result := finish s (distanceElement 1025 e.toNat s)

/-- DIST21: MDIST <- 1537 + e, then MATCHCOPY (R273). -/
def execDist21 (e : BitVec 9) (s : State) : Result := finish s (distanceElement 1537 e.toNat s)

/-- DIST22: MDIST <- 2049 + e, then MATCHCOPY (R274). -/
def execDist22 (e : BitVec 10) (s : State) : Result := finish s (distanceElement 2049 e.toNat s)

/-- DIST23: MDIST <- 3073 + e, then MATCHCOPY (R275). -/
def execDist23 (e : BitVec 10) (s : State) : Result := finish s (distanceElement 3073 e.toNat s)

/-- DIST24: MDIST <- 4097 + e, then MATCHCOPY (R276). -/
def execDist24 (e : BitVec 11) (s : State) : Result := finish s (distanceElement 4097 e.toNat s)

/-- DIST25: MDIST <- 6145 + e, then MATCHCOPY (R277). -/
def execDist25 (e : BitVec 11) (s : State) : Result := finish s (distanceElement 6145 e.toNat s)

/-- DIST26: MDIST <- 8193 + e, then MATCHCOPY (R278). -/
def execDist26 (e : BitVec 12) (s : State) : Result := finish s (distanceElement 8193 e.toNat s)

/-- DIST27: MDIST <- 12289 + e, then MATCHCOPY (R279). -/
def execDist27 (e : BitVec 12) (s : State) : Result := finish s (distanceElement 12289 e.toNat s)

/-- DIST28: MDIST <- 16385 + e, then MATCHCOPY (R280). -/
def execDist28 (e : BitVec 13) (s : State) : Result := finish s (distanceElement 16385 e.toNat s)

/-- DIST29: MDIST <- 24577 + e, then MATCHCOPY (R281). -/
def execDist29 (e : BitVec 13) (s : State) : Result := finish s (distanceElement 24577 e.toNat s)

/-- DIST30: reserved, ErrBadDistSym (R282). -/
def execDist30 (s : State) : Result := .next (raiseFault .badDistSym s)

/-- DIST31: reserved, ErrBadDistSym (R282). -/
def execDist31 (s : State) : Result := .next (raiseFault .badDistSym s)

end Sys2Proof.Machine
end

