-- ==== Sys2Proof/Machine/Envelope.lean ====
section
/-! DEFINITION. The envelope elements ZHDR and ZTRL (spec 44_envelope.md). -/

namespace Sys2Proof.Machine

/-- `k` bytes of the stream read and discarded (DICTID, R303). -/
def skipBytes : Nat → State → Except Stop State
  | 0, s => .ok s
  | k + 1, s =>
    match stateGetbits 8 s with
    | .error e => .error e
    | .ok (_, s) => skipBytes k s

/-- The header checks in their order (R301, R302, R303, R304), after which the first block header follows. -/
def headerCheck (cmf flg : Byte) (s : State) : Except Stop State :=
  if (cmf.toNat * 256 + flg.toNat) % 31 ≠ 0 then .error (.raise .zlibCheck)
  else if cmf.toNat % 16 ≠ 8 then .error (.raise .zlibMethod)
  else if flg.getLsbD 5 then
    match s.par.fdictMode with
    | .fail => .error (.raise .presetDict)
    | .skip4 => skipBytes 4 { s with phase := .blkhdr }
  else .ok { s with phase := .blkhdr }

/-- ZHDR (R301 to R304). -/
def execZhdr (cmf flg : Byte) (s : State) : Result := finish s (headerCheck cmf flg s)

/-- The trailer check: the value against CHECKSUM, then UNFILTER (R306, R320). -/
def trailerCheck (t : Word) (s : State) : Except Stop State :=
  if t ≠ s.checksum then .error (.raise .checksum) else .ok { s with phase := .unfilter }

/-- ZTRL (R306); ALIGN and the four bytes are read when the element is fetched. -/
def execZtrl (t : Word) (s : State) : Result := finish s (trailerCheck t s)

end Sys2Proof.Machine
end

