-- ==== Sys2Proof/Machine/Filters.lean ====
section
/-! DEFINITION. The filter-type bytes, one row of UNFILTER each (spec 45_scanline_filter.md). -/

namespace Sys2Proof.Machine

/-- FT.NONE (0): the row is copied (R323, R321). -/
def execFtNone (s : State) : Result := finish s (unfilterRow 0 predNone s)

/-- FT.SUB (1): PRED = a (R324, R321). -/
def execFtSub (s : State) : Result := finish s (unfilterRow 1 predSub s)

/-- FT.UP (2): PRED = b (R325, R321). -/
def execFtUp (s : State) : Result := finish s (unfilterRow 2 predUp s)

/-- FT.AVG (3): PRED = (a + b) >> 1 (R326, R321). -/
def execFtAvg (s : State) : Result := finish s (unfilterRow 3 predAvg s)

/-- FT.PAETH (4): PRED = PAETH(a, b, c) (R327, R321). -/
def execFtPaeth (s : State) : Result := finish s (unfilterRow 4 predPaeth s)

/-- FT.RSVD: a reserved filter-type byte, ErrBadFilterType (R328, R321). -/
def execFtRsvd (_b : Byte) (s : State) : Result := .next (raiseFault .badFilterType s)

end Sys2Proof.Machine
end

