-- ==== Sys2Proof/Machine/Symbols.lean ====
section
/-! DEFINITION. Literals, end of block and length codes (spec R212 to R217, R220 to R249). -/

namespace Sys2Proof.Machine

/-- LIT: EMIT(b) (R213). -/
def execLit (b : Byte) (s : State) : Result := finish s (emit b s)

/-- EOB: leave the symbol loop (R215, R171). -/
def execEob (s : State) : Result := .next (endOfBlock s)

/-- LEN257: MLEN <- 3 (R220). -/
def execLen257 (s : State) : Result := .next (lengthElement 3 0 s)

/-- LEN258: MLEN <- 4 (R221). -/
def execLen258 (s : State) : Result := .next (lengthElement 4 0 s)

/-- LEN259: MLEN <- 5 (R222). -/
def execLen259 (s : State) : Result := .next (lengthElement 5 0 s)

/-- LEN260: MLEN <- 6 (R223). -/
def execLen260 (s : State) : Result := .next (lengthElement 6 0 s)

/-- LEN261: MLEN <- 7 (R224). -/
def execLen261 (s : State) : Result := .next (lengthElement 7 0 s)

/-- LEN262: MLEN <- 8 (R225). -/
def execLen262 (s : State) : Result := .next (lengthElement 8 0 s)

/-- LEN263: MLEN <- 9 (R226). -/
def execLen263 (s : State) : Result := .next (lengthElement 9 0 s)

/-- LEN264: MLEN <- 10 (R227). -/
def execLen264 (s : State) : Result := .next (lengthElement 10 0 s)

/-- LEN265: MLEN <- 11 + e (R228). -/
def execLen265 (e : BitVec 1) (s : State) : Result := .next (lengthElement 11 e.toNat s)

/-- LEN266: MLEN <- 13 + e (R229). -/
def execLen266 (e : BitVec 1) (s : State) : Result := .next (lengthElement 13 e.toNat s)

/-- LEN267: MLEN <- 15 + e (R230). -/
def execLen267 (e : BitVec 1) (s : State) : Result := .next (lengthElement 15 e.toNat s)

/-- LEN268: MLEN <- 17 + e (R231). -/
def execLen268 (e : BitVec 1) (s : State) : Result := .next (lengthElement 17 e.toNat s)

/-- LEN269: MLEN <- 19 + e (R232). -/
def execLen269 (e : BitVec 2) (s : State) : Result := .next (lengthElement 19 e.toNat s)

/-- LEN270: MLEN <- 23 + e (R233). -/
def execLen270 (e : BitVec 2) (s : State) : Result := .next (lengthElement 23 e.toNat s)

/-- LEN271: MLEN <- 27 + e (R234). -/
def execLen271 (e : BitVec 2) (s : State) : Result := .next (lengthElement 27 e.toNat s)

/-- LEN272: MLEN <- 31 + e (R235). -/
def execLen272 (e : BitVec 2) (s : State) : Result := .next (lengthElement 31 e.toNat s)

/-- LEN273: MLEN <- 35 + e (R236). -/
def execLen273 (e : BitVec 3) (s : State) : Result := .next (lengthElement 35 e.toNat s)

/-- LEN274: MLEN <- 43 + e (R237). -/
def execLen274 (e : BitVec 3) (s : State) : Result := .next (lengthElement 43 e.toNat s)

/-- LEN275: MLEN <- 51 + e (R238). -/
def execLen275 (e : BitVec 3) (s : State) : Result := .next (lengthElement 51 e.toNat s)

/-- LEN276: MLEN <- 59 + e (R239). -/
def execLen276 (e : BitVec 3) (s : State) : Result := .next (lengthElement 59 e.toNat s)

/-- LEN277: MLEN <- 67 + e (R240). -/
def execLen277 (e : BitVec 4) (s : State) : Result := .next (lengthElement 67 e.toNat s)

/-- LEN278: MLEN <- 83 + e (R241). -/
def execLen278 (e : BitVec 4) (s : State) : Result := .next (lengthElement 83 e.toNat s)

/-- LEN279: MLEN <- 99 + e (R242). -/
def execLen279 (e : BitVec 4) (s : State) : Result := .next (lengthElement 99 e.toNat s)

/-- LEN280: MLEN <- 115 + e (R243). -/
def execLen280 (e : BitVec 4) (s : State) : Result := .next (lengthElement 115 e.toNat s)

/-- LEN281: MLEN <- 131 + e (R244). -/
def execLen281 (e : BitVec 5) (s : State) : Result := .next (lengthElement 131 e.toNat s)

/-- LEN282: MLEN <- 163 + e (R245). -/
def execLen282 (e : BitVec 5) (s : State) : Result := .next (lengthElement 163 e.toNat s)

/-- LEN283: MLEN <- 195 + e (R246). -/
def execLen283 (e : BitVec 5) (s : State) : Result := .next (lengthElement 195 e.toNat s)

/-- LEN284: MLEN <- 227 + e (R247). -/
def execLen284 (e : BitVec 5) (s : State) : Result := .next (lengthElement 227 e.toNat s)

/-- LEN285: MLEN <- 258 (R248). -/
def execLen285 (s : State) : Result := .next (lengthElement 258 0 s)

/-- LL286: reserved, ErrBadLitLenSym (R249). -/
def execLl286 (s : State) : Result := .next (raiseFault .badLitLenSym s)

/-- LL287: reserved, ErrBadLitLenSym (R249). -/
def execLl287 (s : State) : Result := .next (raiseFault .badLitLenSym s)

end Sys2Proof.Machine
end

