-- ==== Sys2Proof/Machine/Control.lean ====
section
/-! DEFINITION. The actions of a job that are not stream elements (spec R14): START (R46, R351), CFG (R353), DYNBUILD (R193), ENDCHK (R194)
and completion (R361). -/

namespace Sys2Proof.Machine

/-- START's initialisation (R46); the configuration check is the first phase (R14, R353). OUT and PIX are not cleared; R46 and R404(2)
leave every byte of them unspecified until the job writes it, and the model keeps the byte that stood there (DESIGN CHOICE, log 27). -/
def startJob (s : State) : State :=
  { clearValid s with
    br := { pos := 0, acc := 0, bitcnt := 0 }
    opos := 0
    bfinal := false
    s1 := 1
    s2 := 0
    err := 0
    outLen := 0
    pixLen := 0
    row := 0
    phase := .cfg
    inMatch := false }

/-- ROWBYTES = WIDTH*CHANNELS, exact (R353). -/
def State.cfgRowBytes (s : State) : Nat := s.width.toNat * s.channels.toNat

/-- E = HEIGHT*(1 + ROWBYTES), exact (R353, R12). -/
def State.cfgExpected (s : State) : Nat := s.height.toNat * (1 + s.cfgRowBytes)

/-- CFG (R353): ErrBadConfig before ErrResource (R359); then EXPECTED, ROWBYTES and BPP, and the phase ZHDR (R14). -/
def configCheck (s : State) : Except Stop State :=
  if s.channels.toNat < 1 ∨ 4 < s.channels.toNat ∨ s.width = 0 ∨ s.height = 0 then .error (.raise .badConfig)
  else if s.par.outCap.toNat < s.cfgExpected ∨ s.par.inCap.toNat < s.inLen.toNat
      ∨ s.par.pixCap.toNat < s.height.toNat * s.cfgRowBytes then .error (.raise .resource)
  else
    .ok { s with
      rowbytes := BitVec.ofNat 34 s.cfgRowBytes
      expected := BitVec.ofNat 32 s.cfgExpected
      bpp := s.channels
      phase := .zhdr }

/-- The literal/length lengths LENS[0 .. HLIT-1] (R187). -/
def State.llLens (s : State) : List Nat := (s.lens.toList.take s.hlit.toNat).map BitVec.toNat

/-- The distance lengths LENS[HLIT .. HLIT+HDIST-1] (R187). -/
def State.dLens (s : State) : List Nat := ((s.lens.toList.drop s.hlit.toNat).take s.hdist.toNat).map BitVec.toNat

/-- DYNBUILD (R193): the literal/length table, then the distance table; then the symbol loop. -/
def dynBuild (s : State) : Except Stop State :=
  match build s.llLens with
  | .error e => .error (.raise e)
  | .ok ll =>
    match build s.dLens with
    | .error e => .error (.raise e)
    | .ok d => .ok { s with llt := ll, dt := d, phase := .symloop }

/-- ENDCHK (R194): ErrLengthMismatch unless OPOS = EXPECTED; then the trailer. -/
def endCheck (s : State) : Except Stop State :=
  if s.opos ≠ s.expected then .error (.raise .lengthMismatch) else .ok { s with phase := .trailer }

/-- Normal completion after the last row (R321, R361): PIX_LEN, OUT_LEN, DONE. -/
def completeJob (s : State) : State :=
  { s with pixLen := BitVec.ofNat 32 s.pixSize, outLen := s.opos, phase := .done }

/-- What the core does in a phase when no element is to be fetched: the phase's own action, or nothing in IDLE, DONE and FAULT
(R364: "the core does nothing"). The phases that always fetch an element are listed and do nothing here. -/
def phaseAction (s : State) : Result :=
  match s.phase with
  | .cfg => finish s (configCheck s)
  | .dynlens => finish s (dynBuild s)
  | .endchk => finish s (endCheck s)
  | .unfilter => .next (completeJob s)
  | .idle => .next s
  | .done => .next s
  | .fault => .next s
  | .zhdr => .next s
  | .blkhdr => .next s
  | .stored => .next s
  | .dynhdr => .next s
  | .symloop => .next s
  | .trailer => .next s

end Sys2Proof.Machine
end

