-- ==== Sys2Proof/Machine/Fetch.lean ====
section
/-! DEFINITION. Fetching the next element (spec R14, R107, R171, R186, R212, R321): which context the phase gives, and the element the decoder
reads there through the machine's bit reader. -/

namespace Sys2Proof.Machine

/-- The literal/length table of the current block: FLLT in a fixed block, LLT in a dynamic one (R171, R211). -/
def State.llTable (s : State) : HuffTable := if s.btype = 1 then fllt else s.llt

/-- The distance table of the current block: FDT in a fixed block, DT in a dynamic one (R171, R211). -/
def State.dTable (s : State) : HuffTable := if s.btype = 1 then fdt else s.dt

/-- The context of the next element of IN, or none where the phase fetches none (R14, R186, R212). -/
def elementCtx (s : State) : Option Ctx :=
  match s.phase with
  | .zhdr => some .zh
  | .blkhdr => some .bh
  | .stored => some .st
  | .dynhdr => some .dh
  | .dynlens => if s.lidx.toNat < s.totalLens then some (.cl s.clt (decide (s.lidx ≠ 0))) else none
  | .symloop => some (if s.inMatch then .d s.dTable else .ll s.llTable)
  | .trailer => some .tr
  | .idle => none
  | .cfg => none
  | .endchk => none
  | .unfilter => none
  | .done => none
  | .fault => none

/-- The state once an element has been read: the bit reader is past it, and HDECODE's registers hold what it left (R156). -/
def State.fetched (s : State) (f : Fetched BitReader) : State := { s with br := f.rest, hd := f.regs.getD s.hd }

/-- What fetching gives. -/
inductive Fetch where
  /-- an element, and the state to execute it in -/
  | run (i : Instr) (s : State)
  /-- no element: the fetch itself stops -/
  | stop (e : Stop)
  /-- the phase fetches no element now -/
  | none
deriving DecidableEq, Repr

/-- Fetch an element of IN in a context. -/
def fetchElement (c : Ctx) (s : State) : Fetch :=
  match decode (readerSource s.inm s.inLen.toNat s.par) c s.br with
  | .ok f => .run f.instr (s.fetched f)
  | .error e => .stop (decodeStop e)

/-- Fetch the filter-type byte of row ROW, `OUT[ROW*STRIDE]` (R321). -/
def fetchFilter (s : State) : Fetch :=
  match readOut (s.row.toNat * (1 + s.rowbytes.toNat)) s with
  | .ok b => .run (filterInstr b) s
  | .error e => .stop e

/-- Fetch what the phase calls for (R14): a filter-type byte while rows remain in UNFILTER, else an element of IN. -/
def fetch (s : State) : Fetch :=
  if s.phase = .unfilter ∧ s.row.toNat < s.height.toNat then fetchFilter s
  else
    match elementCtx s with
    | some c => fetchElement c s
    | Option.none => .none

/-- The bytes of a bit string, eight bits a byte, least-significant bit first (R65). -/
def packBytes : Nat → List Bool → List Byte
  | 0, _ => []
  | n + 1, bs => BitVec.ofNat 8 (natOfBits (bs.take 8)) :: packBytes n (bs.drop 8)

/-- A memory with a list of bytes written from address `a` on. -/
def writeBytes : Memory → Nat → List Byte → Memory
  | m, _, [] => m
  | m, a, b :: bs => writeBytes (Memory.write m a b) (a + 1) bs

/-- The state in which the next step fetches from `bytes` in context `c`: the bytes stand in IN at POS with nothing buffered, IN_LEN
ends after them, no host move is pending, and the phase (with the block type and the match flag) is the one that reads `c`. -/
def State.withElement (s : State) (c : Ctx) (bytes : List Byte) : State :=
  let s := { s with
    br := { s.br with acc := 0, bitcnt := 0 }
    inm := writeBytes s.inm s.br.pos.toNat bytes
    inLen := BitVec.ofNat 32 (s.br.pos.toNat + bytes.length)
    sched := [] }
  match c with
  | .zh => { s with phase := .zhdr }
  | .bh => { s with phase := .blkhdr }
  | .st => { s with phase := .stored }
  | .dh => { s with phase := .dynhdr }
  | .cl T hasPrev =>
    { s with phase := .dynlens, clt := T, lidx := if hasPrev then 1 else 0, hlit := 257, hdist := 1 }
  | .ll _ => { s with phase := .symloop, btype := 1, inMatch := false }
  | .d _ => { s with phase := .symloop, btype := 1, inMatch := true }
  | .tr => { s with phase := .trailer }
  | .ft => s

/-- The state in which the next step fetches the filter-type byte `b`: it stands at OUT[0], the byte of row 0, and a row remains. -/
def State.withFilterByte (s : State) (b : Byte) : State :=
  { s with
    sched := []
    phase := .unfilter
    row := 0
    height := if s.height = 0 then 1 else s.height
    expected := if s.expected = 0 then 1 else s.expected
    out := Memory.write s.out 0 b }

/-- A word of spec/opcode_table.json placed where the next step fetches it (log 7, log 8). -/
def placeTableWord (s : State) (nbits w : Nat) : State :=
  match tableCtx nbits w with
  | .ft => s.withFilterByte (BitVec.ofNat 8 w)
  | c => s.withElement c (packBytes ((tableStream nbits w).length / 8) (tableStream nbits w))

end Sys2Proof.Machine
end

