-- ==== Sys2Proof/Machine/HostPort.lean ====
section
/-! DEFINITION. The register block and the host's moves (spec R33 to R42, R350 to R352, R400). -/

namespace Sys2Proof.Machine

/-- A host read of the register block (R33 to R42): CTRL reads 0, unlisted offsets and bits read 0. -/
def readReg (offset : Nat) (s : State) : Word :=
  match offset with
  | 0x04 => s.status.code.setWidth 32
  | 0x08 => s.err.setWidth 32
  | 0x0C => s.inLen
  | 0x10 => s.width
  | 0x14 => s.height
  | 0x18 => s.channels.setWidth 32
  | 0x1C => s.outLen
  | 0x20 => s.pixLen
  | _ => 0

/-- A host write of the register block (R33 to R40): ignored while BUSY (R34, R352); CTRL bit 0 = 1 is START; read-only and
unlisted offsets ignore writes. -/
def writeReg (offset : Nat) (v : Word) (s : State) : State :=
  if s.status = .busy then s
  else
    match offset with
    | 0x00 => if v.getLsbD 0 then startJob s else s
    | 0x0C => { s with inLen := v }
    | 0x10 => { s with width := v }
    | 0x14 => { s with height := v }
    | 0x18 => { s with channels := v.setWidth 3 }
    | _ => s

/-- One move of the host (R352). Reads leave their value in `rdata`. What the spec gives the host no move for is refused by name: OUT,
PIX, OUT_LEN and PIX_LEN are host-readable only in DONE (R361, D29 of 92_eei_decisions.md, HA3 of R405), IN is not writable while
BUSY (R64; U16, U18). Log 15. -/
def hostMove (m : HostMove) (s : State) : Result :=
  match m with
  | .writeReg offset v => .next (writeReg offset v s)
  | .readReg offset =>
    if s.status ≠ .done ∧ (offset = 0x1C ∨ offset = 0x20) then .refused (.hostMove m)
    else .next { s with rdata := readReg offset s }
  | .writeIn a b =>
    if s.status = .busy then .refused (.hostMove m)
    else if a < s.par.inCap.toNat then .next { s with inm := Memory.write s.inm a b }
    else .fault (.noSuchAddress .inp a)
  | .readOut a =>
    if s.status = .done ∧ a < s.outLen.toNat then .next { s with rdata := (Memory.read s.out a).setWidth 32 }
    else .refused (.hostMove m)
  | .readPix a =>
    if s.status = .done ∧ a < s.pixLen.toNat then .next { s with rdata := (Memory.read s.pix a).setWidth 32 }
    else .refused (.hostMove m)
  | .hardReset => .next { State.reset with par := s.par, sched := s.sched, rdata := s.rdata, freeCtr := s.freeCtr }

end Sys2Proof.Machine
end

