-- ==== Sys2Proof/Machine/Step.lean ====
section
/-! DEFINITION. One step of the machine: a pending move of the host, or one element or phase action of the core (spec R410(b)). -/

namespace Sys2Proof.Machine

/-- One step of the core: the element the phase fetches is executed; where the phase fetches none, its own action. -/
def coreStep (s : State) : Result :=
  match fetch s with
  | .run i t => exec i t
  | .stop e => finish s (.error e)
  | .none => phaseAction s

/-- One step: the first pending entry of `sched` says whether the host or the core acts (log 6); with none pending, the core acts. -/
def step (s : State) : Host.Outcome State Fault Refusal :=
  match s.sched with
  | [] => coreStep s
  | none :: rest => coreStep { s with sched := rest }
  | some m :: rest => hostMove m { s with sched := rest }

/-- `s` with a word of spec/opcode_table.json placed so that the next step fetches and runs it. -/
def State.withFetchWord (s : State) (nbits w : Nat) : State := placeTableWord s nbits w

end Sys2Proof.Machine
end

