-- ==== Sys2Proof/Safety.lean ====
section
/-! DEFINITION. What a safe run is, in the terms the claims use: the final states of a job (spec R409), and the invariants of the machine (R22,
R23, R47, R70, R353). -/

namespace Sys2Proof.Machine

/-- A job is running (R35). -/
abbrev State.busy (s : State) : Prop := s.status = .busy

/-- The end of a job (R409). -/
abbrev State.final (s : State) : Prop := s.status = .done ∨ s.status = .fault

/-- The bits of IN as the stream numbers them: `bit(k) = (IN[k div 8] >> (k mod 8)) & 1` (R65, R131). -/
def streamBit (inm : Memory) (k : Nat) : Bool := (Memory.read inm (k / 8)).getLsbD (k % 8)

/-- The number in the `n` stream bits from bit `k` on: `sum of bit(k+i) << i` (R65, R131). -/
def streamBits (inm : Memory) (k : Nat) : Nat → Nat
  | 0 => 0
  | n + 1 => (streamBit inm k).toNat + 2 * streamBits inm (k + 1) n

/-- The bits of IN from bit `k` up to bit `e`. -/
def streamList (inm : Memory) (k e : Nat) : List Bool := (List.range' k (e - k)).map (streamBit inm)

/-- The invariant of the bit reader (R22): BITCNT < 8, POS within IN, and ACC holds exactly the BITCNT most-significant bits of
byte IN[POS-1] (so ACC < 2^BITCNT). -/
structure ReaderInv (inm : Memory) (inLen : Nat) (br : BitReader) : Prop where
  bitcnt_lt : br.bitcnt.toNat < 8
  pos_le : br.pos.toNat ≤ inLen
  pos_pos : br.bitcnt.toNat ≠ 0 → 1 ≤ br.pos.toNat
  acc_eq : br.acc = (Memory.read inm (br.pos.toNat - 1)).toNat / 2 ^ (8 - br.bitcnt.toNat)

/-- A table file that BUILD accepted for an alphabet of `n` symbols (R151, R152): the code is complete, SYMBOL has one entry for
each code, and its entries are symbols of the alphabet, none twice. -/
structure HuffTableWf (n : Nat) (T : HuffTable) : Prop where
  valid : T.valid = true
  complete : codeFirst T 16 = 2 ^ 16
  length : T.symbol.length = indexFirst T 16
  symbols : ∀ s ∈ T.symbol, s.toNat < n
  distinct : T.symbol.Nodup

/-- The contexts whose elements are coded with a table, and the tables BUILD accepts for them. -/
def CtxWf : Ctx → Prop
  | .cl T _ => HuffTableWf 19 T
  | .ll T => HuffTableWf 288 T
  | .d T => HuffTableWf 32 T
  | .zh => True
  | .bh => True
  | .st => True
  | .dh => True
  | .tr => True
  | .ft => True

/-- The configuration a job runs with (R353): CHANNELS 1..4, no zero dimension, the exact products within the capacities, and
EXPECTED, ROWBYTES and BPP computed from them. -/
structure GeometryInv (s : State) : Prop where
  channels_pos : 1 ≤ s.channels.toNat
  channels_le : s.channels.toNat ≤ 4
  width_pos : s.width.toNat ≠ 0
  height_pos : s.height.toNat ≠ 0
  expected_eq : s.expected.toNat = s.cfgExpected
  rowbytes_eq : s.rowbytes.toNat = s.cfgRowBytes
  bpp_eq : s.bpp = s.channels
  outCap : s.cfgExpected ≤ s.par.outCap.toNat
  inCap : s.inLen.toNat ≤ s.par.inCap.toNat
  pixCap : s.height.toNat * s.cfgRowBytes ≤ s.par.pixCap.toNat

/-- What holds of a running job past CFG. -/
structure JobInv (s : State) : Prop where
  geometry : GeometryInv s
  opos_le : s.opos.toNat ≤ s.expected.toNat
  row_le : s.row.toNat ≤ s.height.toNat
  complete : s.phase = .trailer ∨ s.phase = .unfilter → s.opos = s.expected
  dynamic : s.phase = .dynhdr ∨ s.phase = .dynlens → s.btype = 2
  lens : s.phase = .dynlens → 257 ≤ s.hlit.toNat ∧ s.hlit.toNat ≤ 288 ∧ 1 ≤ s.hdist.toNat ∧ s.hdist.toNat ≤ 32 ∧
    s.lidx.toNat ≤ s.totalLens ∧ HuffTableWf 19 s.clt
  tables : s.phase = .symloop → s.btype = 1 ∨ (s.btype = 2 ∧ HuffTableWf 288 s.llt ∧ HuffTableWf 32 s.dt)
  mlen : s.inMatch = true → s.phase = .symloop ∧ 3 ≤ s.mlen.toNat ∧ s.mlen.toNat ≤ 258

/-- The invariant of the machine: parameters within R8's constraints; canonical memories; no ERR.CODE outside FAULT (R36); OUT_LEN and PIX_LEN 0 until DONE (R41, R42)
and, in DONE, the sizes of what was decoded;
and, while a job runs, the bit reader's and the job's invariants. In FAULT nothing is said of the job's registers, which are
unspecified (R360). -/
structure Inv (s : State) : Prop where
  par : s.par.Wf
  inm_wf : Memory.wf s.inm = true
  out_wf : Memory.wf s.out = true
  pix_wf : Memory.wf s.pix = true
  err_zero : s.status ≠ .fault → s.err = 0
  err_code : s.status = .fault → 1 ≤ s.err.toNat ∧ s.err.toNat ≤ 21
  no_result : s.status = .idle ∨ s.status = .busy → s.outLen = 0 ∧ s.pixLen = 0
  result : s.status = .done → s.outLen = s.expected ∧ s.opos = s.expected ∧ s.pixLen.toNat = s.row.toNat * s.rowbytes.toNat ∧
    s.pixLen.toNat ≤ s.outLen.toNat
  reader : s.busy → ReaderInv s.inm s.inLen.toNat s.br
  cfg : s.phase = .cfg → s.inMatch = false ∧ s.opos = 0 ∧ s.row = 0
  job : s.busy → s.phase ≠ .cfg → JobInv s

/-- The neighbour to the left, byte `c` of row ROW: the reconstructed byte one pixel before, or 0 (R321: `a`). -/
def leftByte (s : State) (c : Nat) : Byte :=
  if s.bpp.toNat ≤ c then Memory.read s.pix (s.row.toNat * s.rowbytes.toNat + c - s.bpp.toNat) else 0

/-- The neighbour above, or 0 on row 0 (R321: `b`). -/
def aboveByte (s : State) (c : Nat) : Byte :=
  if 1 ≤ s.row.toNat then Memory.read s.pix ((s.row.toNat - 1) * s.rowbytes.toNat + c) else 0

/-- The neighbour above the left one, or 0 (R321: `c`). -/
def aboveLeftByte (s : State) (c : Nat) : Byte :=
  if 1 ≤ s.row.toNat ∧ s.bpp.toNat ≤ c then
    Memory.read s.pix ((s.row.toNat - 1) * s.rowbytes.toNat + c - s.bpp.toNat)
  else 0

/-- The filtered byte of OUT for byte `c` of row ROW (R103, R321: `x`). -/
def filteredByte (s : State) (c : Nat) : Byte :=
  Memory.read s.out (s.row.toNat * (1 + s.rowbytes.toNat) + 1 + c)

/-- The checksum of a byte sequence from the sums `s1` and `s2` on (R305). -/
def adlerFrom (s1 s2 : Nat) : List Byte → Nat × Nat
  | [] => (s1, s2)
  | b :: bs => adlerFrom ((s1 + b.toNat) % adlerMod) ((s2 + (s1 + b.toNat) % adlerMod) % adlerMod) bs

/-- The bytes OUT[a .. a+n-1]. -/
def outBytes (m : Memory) (a n : Nat) : List Byte := (List.range' a n).map (Memory.read m)

/-- S1 and S2 are the sums over OUT[0 .. OPOS-1] from 1 and 0 (R305: "It is a function of the byte sequence OUT[0 .. OPOS-1]
alone"). -/
def ChecksumInv (s : State) : Prop :=
  (s.s1.toNat, s.s2.toNat) = adlerFrom 1 0 (outBytes s.out 0 s.opos.toNat)

/-- The two states agree on everything a job's outcome may depend on (R402): IN up to IN_LEN, IN_LEN, WIDTH, HEIGHT, CHANNELS and
the parameters. -/
structure SameJob (s t : State) : Prop where
  inm : ∀ a, a < s.inLen.toNat → Memory.read s.inm a = Memory.read t.inm a
  inLen : s.inLen = t.inLen
  width : s.width = t.width
  height : s.height = t.height
  channels : s.channels = t.channels
  par : s.par = t.par

/-- The observable result of a run (R409): in DONE the two lengths and the bytes they cover, in FAULT the code alone, else only
the status. -/
def SameResult (s t : State) : Prop :=
  s.status = t.status ∧ s.err = t.err ∧
  (s.status = .done → s.outLen = t.outLen ∧ s.pixLen = t.pixLen ∧
    (∀ a, a < s.outLen.toNat → Memory.read s.out a = Memory.read t.out a) ∧
    (∀ a, a < s.pixLen.toNat → Memory.read s.pix a = Memory.read t.pix a))

/-- `n` steps of the core alone, stopping at the first fault or refusal of the model (R410: between START and the end of the run the
host has no move). -/
def coreRun : Nat → State → Result
  | 0, s => .next s
  | n + 1, s =>
    match coreStep s with
    | .next t => coreRun n t
    | .fault f => .fault f
    | .refused r => .refused r

/-- How much work a running job still has at most: the bits not yet read, the rows not yet unfiltered, and the phase actions
between them (R196, R407). Every step of a running job lessens it. -/
def remainingWork (s : State) : Nat :=
  4 * (8 * s.inLen.toNat - s.bp) + (s.height.toNat - s.row.toNat) +
    match s.phase with
    | .idle => 0
    | .cfg => 9
    | .zhdr => 8
    | .blkhdr => 5
    | .stored => 6
    | .dynhdr => 7
    | .dynlens => 6
    | .symloop => 5
    | .endchk => 4
    | .trailer => 3
    | .unfilter => 2
    | .done => 0
    | .fault => 0

end Sys2Proof.Machine
end

