-- ==== Sys2Proof/Certificates/Slice0/Obligations.lean ====
section
/-! DEFINITION. The statements about the flux2 CORE, and the few words they use that the model does not: the spec's own tables and loops,
written a second time so that a statement can hold the model against them. -/

namespace Sys2Proof.Claims

open Sys2Proof.Machine

/-! ## The spec's tables and loops -/

/-- The element decoded at the front of a bit string that stands at a byte boundary, if any. -/
def decoded (c : Ctx) (bits : List Bool) : Option Instr :=
  match decode bitStringSource c { pos := 0, bits := bits } with
  | .ok f => some f.instr
  | .error _ => none

/-- The bits of a byte list, least-significant first in each byte (R65). -/
def byteBits (bs : List Nat) : List Bool := bs.flatMap (bitsLsb 8)

/-- LBASE (R99). -/
def lbase : List Nat :=
  [3, 4, 5, 6, 7, 8, 9, 10, 11, 13, 15, 17, 19, 23, 27, 31, 35, 43, 51, 59, 67, 83, 99, 115, 131, 163, 195, 227, 258]

/-- LEXT (R99). -/
def lengthExtra : List Nat := [0, 0, 0, 0, 0, 0, 0, 0, 1, 1, 1, 1, 2, 2, 2, 2, 3, 3, 3, 3, 4, 4, 4, 4, 5, 5, 5, 5, 0]

/-- DBASE (R101). -/
def dbase : List Nat :=
  [1, 2, 3, 4, 5, 7, 9, 13, 17, 25, 33, 49, 65, 97, 129, 193, 257, 385, 513, 769, 1025, 1537, 2049, 3073, 4097, 6145, 8193, 12289,
    16385, 24577]

/-- DEXT (R101). -/
def distanceExtra : List Nat :=
  [0, 0, 0, 0, 1, 1, 2, 2, 3, 3, 4, 4, 5, 5, 6, 6, 7, 7, 8, 8, 9, 9, 10, 10, 11, 11, 12, 12, 13, 13]

/-- CLORDER (R96): the code-length symbol whose length stands at each position of a dynamic header. -/
def clOrderSent : List Nat := [16, 17, 18, 0, 8, 7, 9, 6, 10, 5, 11, 4, 12, 3, 13, 2, 14, 1, 15]

/-- A code-length table of symbols 0 to 3: the table of R154's lengths 2, 1, 3, 3. -/
def clTableR154 : HuffTable where
  count := #v[0, 1, 1, 2, 0, 0, 0, 0, 0, 0, 0, 0, 0, 0, 0, 0]
  symbol := [1, 0, 2, 3]
  valid := true

/-- A code-length table in which CL0 has the code 0 and CL18 the code 1 (R151, R104). -/
def clTableRepeat : HuffTable where
  count := #v[0, 2, 0, 0, 0, 0, 0, 0, 0, 0, 0, 0, 0, 0, 0, 0]
  symbol := [0, 18]
  valid := true

/-- The padding a context skips before its first field: up to the next byte boundary before a stored body and the trailer (R25, R94,
R102), none elsewhere. -/
def skipped (c : Ctx) (pos : Nat) : Nat :=
  match c with
  | .st => padding pos
  | .tr => padding pos
  | .zh => 0
  | .bh => 0
  | .dh => 0
  | .cl _ _ => 0
  | .ll _ => 0
  | .d _ => 0
  | .ft => 0

/-- 2^15 times the Kraft sum of the non-zero code lengths (R13, R152). -/
def kraft (lens : List Nat) : Nat := ((lens.filter (fun l => l ≠ 0)).map (fun l => 2 ^ (15 - l))).sum

/-- offs[L] before the second loop of BUILD (R152): the number of symbols with a length from 1 to L - 1. -/
def offset (lens : List Nat) (L : Nat) : Nat := ((List.range' 1 (L - 1)).map (fun l => lens.count l)).sum

/-- The second loop of BUILD (R152) from symbol `s` on: `SYMBOL[offs[lens[s]]] <- s; offs[lens[s]] <- offs[lens[s]] + 1`. -/
def bucketWalk (s : Nat) (lens offs : List Nat) (symbol : List (BitVec 9)) : List (BitVec 9) :=
  match lens with
  | [] => symbol
  | l :: ls =>
    if l = 0 then bucketWalk (s + 1) ls offs symbol
    else bucketWalk (s + 1) ls (offs.set l (offs.getD l 0 + 1)) (symbol.set (offs.getD l 0) (BitVec.ofNat 9 s))

/-- SYMBOL as the loops of BUILD fill it (R152), over entries that hold 0 before. -/
def bucketSymbols (lens : List Nat) : List (BitVec 9) :=
  bucketWalk 0 lens ((List.range 16).map (offset lens)) (List.replicate (lens.filter (fun l => l ≠ 0)).length 0)

/-- The code-length-code lengths CLLENS[0..18] of a dynamic header's fields, which are in CLORDER order, 0 where none was sent (R96,
R184). -/
def clLengths (fields : List (BitVec 3)) : List Nat :=
  (List.range 19).map fun k => ((fields[clOrderSent.idxOf k]?).getD 0).toNat

/-- The code length a symbol CL0 .. CL15 stands for (R97, R188). -/
def codeLengthOf : Instr → Option (BitVec 4)
  | .cl0 => some 0
  | .cl1 => some 1
  | .cl2 => some 2
  | .cl3 => some 3
  | .cl4 => some 4
  | .cl5 => some 5
  | .cl6 => some 6
  | .cl7 => some 7
  | .cl8 => some 8
  | .cl9 => some 9
  | .cl10 => some 10
  | .cl11 => some 11
  | .cl12 => some 12
  | .cl13 => some 13
  | .cl14 => some 14
  | .cl15 => some 15
  | _ => none

/-- What CL16, CL17 and CL18 repeat, and how often (R190, R191, R192). -/
def repeatOf (s : State) : Instr → Option (BitVec 4 × Nat)
  | .cl16 e => some ((s.lens[s.lidx.toNat - 1]?).getD 0, 3 + e.toNat)
  | .cl17 e => some (0, 3 + e.toNat)
  | .cl18 e => some (0, 11 + e.toNat)
  | _ => none

/-- LENS with the entries from `a` on, `r` of them, set to `v` (R189). -/
def filled (lens : Vector (BitVec 4) 320) (a r : Nat) (v : BitVec 4) : Vector (BitVec 4) 320 :=
  Vector.ofFn fun k : Fin 320 => if a ≤ k.val ∧ k.val < a + r then v else lens[k]

/-- The match length of a length code (R217, R220 to R248). -/
def lengthOf : Instr → Option Nat
  | .len257 => some 3
  | .len258 => some 4
  | .len259 => some 5
  | .len260 => some 6
  | .len261 => some 7
  | .len262 => some 8
  | .len263 => some 9
  | .len264 => some 10
  | .len265 e => some (11 + e.toNat)
  | .len266 e => some (13 + e.toNat)
  | .len267 e => some (15 + e.toNat)
  | .len268 e => some (17 + e.toNat)
  | .len269 e => some (19 + e.toNat)
  | .len270 e => some (23 + e.toNat)
  | .len271 e => some (27 + e.toNat)
  | .len272 e => some (31 + e.toNat)
  | .len273 e => some (35 + e.toNat)
  | .len274 e => some (43 + e.toNat)
  | .len275 e => some (51 + e.toNat)
  | .len276 e => some (59 + e.toNat)
  | .len277 e => some (67 + e.toNat)
  | .len278 e => some (83 + e.toNat)
  | .len279 e => some (99 + e.toNat)
  | .len280 e => some (115 + e.toNat)
  | .len281 e => some (131 + e.toNat)
  | .len282 e => some (163 + e.toNat)
  | .len283 e => some (195 + e.toNat)
  | .len284 e => some (227 + e.toNat)
  | .len285 => some 258
  | _ => none

/-- The match distance of a distance code (R251, R252 to R281). -/
def distanceOf : Instr → Option Nat
  | .dist0 => some 1
  | .dist1 => some 2
  | .dist2 => some 3
  | .dist3 => some 4
  | .dist4 e => some (5 + e.toNat)
  | .dist5 e => some (7 + e.toNat)
  | .dist6 e => some (9 + e.toNat)
  | .dist7 e => some (13 + e.toNat)
  | .dist8 e => some (17 + e.toNat)
  | .dist9 e => some (25 + e.toNat)
  | .dist10 e => some (33 + e.toNat)
  | .dist11 e => some (49 + e.toNat)
  | .dist12 e => some (65 + e.toNat)
  | .dist13 e => some (97 + e.toNat)
  | .dist14 e => some (129 + e.toNat)
  | .dist15 e => some (193 + e.toNat)
  | .dist16 e => some (257 + e.toNat)
  | .dist17 e => some (385 + e.toNat)
  | .dist18 e => some (513 + e.toNat)
  | .dist19 e => some (769 + e.toNat)
  | .dist20 e => some (1025 + e.toNat)
  | .dist21 e => some (1537 + e.toNat)
  | .dist22 e => some (2049 + e.toNat)
  | .dist23 e => some (3073 + e.toNat)
  | .dist24 e => some (4097 + e.toNat)
  | .dist25 e => some (6145 + e.toNat)
  | .dist26 e => some (8193 + e.toNat)
  | .dist27 e => some (12289 + e.toNat)
  | .dist28 e => some (16385 + e.toNat)
  | .dist29 e => some (24577 + e.toNat)
  | _ => none

/-- The filter-type byte and the predictor of FT.NONE to FT.PAETH (R323 to R327, R329). -/
def filterOf : Instr → Option (Byte × (Byte → Byte → Byte → Byte))
  | .ftNone => some (0, fun _ _ _ => 0)
  | .ftSub => some (1, fun a _ _ => a)
  | .ftUp => some (2, fun _ b _ => b)
  | .ftAvg => some (3, predAvg)
  | .ftPaeth => some (4, predPaeth)
  | _ => none

/-- The distance |p - x| of a candidate from p = a + b - c (R327), in signed arithmetic. -/
def paethDistance (a b c x : Byte) : Nat := ((a.toNat : Int) + b.toNat - c.toNat - x.toNat).natAbs

/-- The fault code of each fault (R355). -/
def faultCodes : List (Err × BitVec 8) :=
  [(.badConfig, 1), (.resource, 2), (.inputExhausted, 3), (.zlibCheck, 4), (.zlibMethod, 5), (.presetDict, 6), (.blockType, 7),
    (.storedLen, 8), (.huffLenRange, 9), (.huffOver, 10), (.huffUnder, 11), (.huffNoMatch, 12), (.repeatNoPrev, 13),
    (.repeatOverrun, 14), (.badLitLenSym, 15), (.badDistSym, 16), (.distTooFar, 17), (.outputOverflow, 18), (.lengthMismatch, 19),
    (.checksum, 20), (.badFilterType, 21)]

/-- The geometry, the position and the finished part of an image row that filtering reads (R332): the raw byte `c` of row ROW of the
image `raw`, and its raw neighbours. -/
def rawByte (raw : Nat → Byte) (s : State) (c : Nat) : Byte := raw (s.row.toNat * s.rowbytes.toNat + c)

/-- `raw[i-bpp]`, or 0 (R332). -/
def rawLeft (raw : Nat → Byte) (s : State) (c : Nat) : Byte :=
  if s.bpp.toNat ≤ c then raw (s.row.toNat * s.rowbytes.toNat + c - s.bpp.toNat) else 0

/-- `prev[i]`, or 0 (R332). -/
def rawAbove (raw : Nat → Byte) (s : State) (c : Nat) : Byte :=
  if 1 ≤ s.row.toNat then raw ((s.row.toNat - 1) * s.rowbytes.toNat + c) else 0

/-- `prev[i-bpp]`, or 0 (R332). -/
def rawAboveLeft (raw : Nat → Byte) (s : State) (c : Nat) : Byte :=
  if 1 ≤ s.row.toNat ∧ s.bpp.toNat ≤ c then raw ((s.row.toNat - 1) * s.rowbytes.toNat + c - s.bpp.toNat) else 0

/-- The values of R45 and the `done` line of R358. -/
def HasResetValues (s : State) : Prop :=
  s.status = .idle ∧ s.phase = .idle ∧ s.err = 0 ∧ s.inLen = 0 ∧ s.width = 0 ∧ s.height = 0 ∧ s.channels = 0 ∧ s.outLen = 0 ∧
  s.pixLen = 0 ∧ s.clt.valid = false ∧ s.llt.valid = false ∧ s.dt.valid = false ∧ s.doneLine = false

end Sys2Proof.Claims

section
open Sys2Proof Sys2Proof.Machine Sys2Proof.Claims

/-! ## Encoding -/

/-- Words written out from the spec's encodings decode to the elements they stand for: at least one of each format, ZH, BH, ST, DH,
CL, LL, D, TR and FT (R92 to R103, R105, and the examples of R172, R178, R188, R213, R228, R232, R284, R301, R306). The code-length
tables are the one of R154's lengths and one that has a symbol with a raw field. The four words of `decodeTableWord` are read in
the context the model chooses for a table word (DESIGN CHOICE, log 8). -/
def Obligations.SpecWordsDecode : Prop :=
  decodeTableWord 16 0x7801 = some (.zhdr 0x78 0x01) ∧
  decodeTableWord 8 0xB0 = some (.lit 0x80) ∧
  decodeTableWord 8 0x04 = some .ftPaeth ∧
  decodeTableWord 8 0x05 = some (.blkDyn true) ∧
  decoded .bh [true, false, false] = some (.blkStored true) ∧
  decoded .bh [true, true, false] = some (.blkFixed true) ∧
  decoded .bh [false, true, true] = some (.blkRsvd false) ∧
  decoded .st (byteBits [0x02, 0x00, 0xFD, 0xFF]) = some (.storedbody 0x0002 0xFFFD) ∧
  decoded .dh
    [true, false, false, false, false, false, true, false, false, false, false, false, false, false,
      true, false, false, false, true, false, true, true, false, false, false, true] = some (.dynhdr 1 2 0 [1, 2, 3, 4]) ∧
  decoded (.cl clTableR154 true) [true, true, false] = some .cl2 ∧
  decoded (.cl clTableRepeat true) [true, false, true, true, false, false, false, true] = some (.cl18 70) ∧
  decoded (.ll fllt) [false, false, false, false, false, false, false] = some .eob ∧
  decoded (.ll fllt) [false, false, false, true, false, false, true, true] = some (.len265 1) ∧
  decoded (.ll fllt) [false, false, false, true, true, false, true, false, true] = some (.len269 2) ∧
  decoded (.d fdt) [false, false, false, false, false] = some .dist0 ∧
  decoded (.d fdt) [true, true, true, true, false] = some .dist30 ∧
  decoded .tr (byteBits [0x00, 0x82, 0x00, 0x81]) = some (.ztrl 0x00820081) ∧
  decoded .ft (byteBits [0x05]) = some (.ftRsvd 5)

/-- R105: the codes of the fixed tables, for every symbol, first bit read at the left, and both arrays of code lengths complete. -/
def Obligations.FixedCodesAsListed : Prop :=
  kraft fixLL = 2 ^ 15 ∧ kraft fixD = 2 ^ 15 ∧
  (∀ s, s < 288 → codeBits fllt s = some
    (if s < 144 then bitsMsb 8 (0x30 + s)
     else if s < 256 then bitsMsb 9 (0x190 + (s - 144))
     else if s < 280 then bitsMsb 7 (s - 256)
     else bitsMsb 8 (0xC0 + (s - 280)))) ∧
  ∀ d, d < 32 → codeBits fdt d = some (bitsMsb 5 d)

/-- Decoding inverts encoding: whatever follows, the bits of a well-formed element at any position of the stream decode to that
element with every operand, and nothing beyond them is read (R91 to R107, R157(2)). The element's symbol must have a code in the
context's table, which is when `encode` answers. -/
def Obligations.DecodeInvertsEncode : Prop :=
  ∀ (c : Ctx) (i : Instr) (pos : Nat) (bits tail : List Bool), CtxWf c → i.wf = true → encode c pos i = some bits →
    ∃ regs, decode bitStringSource c { pos := pos, bits := bits ++ tail } =
      .ok { instr := i, regs := regs, rest := { pos := pos + bits.length, bits := tail } }

/-- Encoding inverts decoding: what the decoder reads from any bit string is, up to the value of padding bits, the encoding of the
element it gives, so each stream position has one meaning (R94, R102, R104, R107). -/
def Obligations.EncodeInvertsDecode : Prop :=
  ∀ (c : Ctx) (pos : Nat) (bs : List Bool) (f : Fetched BitString), CtxWf c →
    decode bitStringSource c { pos := pos, bits := bs } = .ok f →
    ∃ bits, encode c pos f.instr = some bits ∧ f.rest.pos = pos + bits.length ∧
      bs.drop (skipped c pos) = bits.drop (skipped c pos) ++ f.rest.bits

/-- The decoder gives only well-formed elements, from any source of bits and in any context. -/
def Obligations.DecodedIsWellFormed : Prop :=
  ∀ (σ : Type) (S : BitSource σ) (c : Ctx) (x : σ) (f : Fetched σ), decode S c x = .ok f → f.instr.wf = true

/-- R136 lifted to elements: decoding through the registers POS, ACC and BITCNT is decoding the bit sequence from BP to the end of
IN, with the same element, the same registers of HDECODE, the same new position, or the same failure. The parameters are any that R8 admits, the width of ACC among them. -/
def Obligations.ReaderDecodesTheStream : Prop :=
  ∀ (inm : Memory) (inLen : Nat) (par : Params) (br : BitReader) (c : Ctx), inLen < 2 ^ 32 → par.Wf → ReaderInv inm inLen br →
    match decode (readerSource inm inLen par) c br with
    | .ok f => ∃ g, decode bitStringSource c { pos := br.bp, bits := streamList inm br.bp (8 * inLen) } = .ok g ∧
        f.instr = g.instr ∧ f.regs = g.regs ∧ ReaderInv inm inLen f.rest ∧ f.rest.bp = g.rest.pos ∧
        g.rest.bits = streamList inm f.rest.bp (8 * inLen)
    | .error e => decode bitStringSource c { pos := br.bp, bits := streamList inm br.bp (8 * inLen) } = .error e

/-- R136, R134, and R131 and R133 at the registers of R132: GETBITS(n) fails exactly when BP + n > 8*IN_LEN, else returns the n bits from
BP on and advances BP by n, loading no byte that holds none of the bits read so far; n <= BITCNT loads nothing; n = 0 changes nothing;
n > 24 is refused; ALIGN clears ACC and BITCNT and moves BP to the next multiple of 8, changing nothing where BP is one; and BP
describes the reader fully. The parameters are any that R8 admits, the width of ACC among them. -/
def Obligations.GetbitsReadsTheStream : Prop :=
  ∀ (inm : Memory) (inLen : Nat) (par : Params) (br : BitReader) (n : Nat), inLen < 2 ^ 32 → par.Wf → ReaderInv inm inLen br →
    (n ≤ 24 → 8 * inLen < br.bp + n → getbits inm inLen par n br = .error .exhausted) ∧
    (n ≤ 24 → br.bp + n ≤ 8 * inLen → ∃ r, getbits inm inLen par n br = .ok (streamBits inm br.bp n, r) ∧
      ReaderInv inm inLen r ∧ r.bp = br.bp + n ∧ r.pos.toNat = (br.bp + n + 7) / 8 ∧
      (n ≤ br.bitcnt.toNat → r.pos = br.pos) ∧ (n = 0 → r = br)) ∧
    (24 < n → getbits inm inLen par n br = .error .tooWide) ∧
    alignReader br = { pos := br.pos, acc := 0, bitcnt := 0 } ∧ ReaderInv inm inLen (alignReader br) ∧
    (alignReader br).bp = 8 * ((br.bp + 7) / 8) ∧ (br.bitcnt = 0 → alignReader br = br) ∧
    ∀ br' : BitReader, ReaderInv inm inLen br' → br'.bp = br.bp → br' = br

/-! ## Huffman tables -/

/-- R152: what BUILD answers is decided by the lengths alone: ErrHuffLenRange for a length above 15, else ErrHuffOver for a Kraft sum
above 1, ErrHuffUnder for one below 1, and a table exactly for a complete code. -/
def Obligations.BuildAcceptsCompleteCodes : Prop :=
  ∀ lens : List Nat,
    ((∃ l ∈ lens, 15 < l) → build lens = .error .huffLenRange) ∧
    ((∀ l ∈ lens, l ≤ 15) →
      (2 ^ 15 < kraft lens → build lens = .error .huffOver) ∧
      (kraft lens < 2 ^ 15 → build lens = .error .huffUnder) ∧
      (kraft lens = 2 ^ 15 → ∃ T, build lens = .ok T))

/-- R151, R152: a table BUILD accepts holds the counts of the lengths, and SYMBOL as the loops of BUILD fill it, bucket by bucket in
input order. -/
def Obligations.BuildFillsTheTable : Prop :=
  ∀ (lens : List Nat) (T : HuffTable), lens.length ≤ 288 → build lens = .ok T →
    T.valid = true ∧ (∀ L, L ≤ 15 → T.countAt L = lens.count L) ∧ T.symbol = bucketSymbols lens

/-- R156 with the loop invariant it states, R157(1) and R157(2): on a table BUILD accepted, HDECODE at the bits of the k-th code of
length L returns the k-th symbol of that length, having read exactly those L bits, with CODE, FIRST, INDEX and HLEN as the rule
says; and it fails on no other ground than the end of the stream. -/
def Obligations.HdecodeReadsOneCode : Prop :=
  ∀ (lens : List Nat) (T : HuffTable), lens.length ≤ 288 → build lens = .ok T →
    (∀ (L k pos : Nat) (tail : List Bool), 1 ≤ L → L ≤ 15 → k < T.countAt L →
      ∃ r, hdecode bitStringSource T { pos := pos, bits := bitsMsb L (codeFirst T L + k) ++ tail } =
          .ok (r, { pos := pos + L, bits := tail }) ∧
        T.symbol[indexFirst T L + k]? = some r.sym ∧ r.code.toNat = codeFirst T L + k ∧ r.first.toNat = codeFirst T L ∧
        r.index.toNat = indexFirst T L ∧ r.hlen.toNat = L) ∧
    ∀ (x : BitString) (e : DecodeError), hdecode bitStringSource T x = .error e → e = .exhausted ∧ x.bits.length < 15

/-- R180, R181: the fixed code lengths, and the constant tables as what BUILD makes of them, with the contents and the codes of the
reserved symbols that the rule lists. -/
def Obligations.FixedTablesAreBuilt : Prop :=
  fixLL.length = 288 ∧ fixD.length = 32 ∧
  (∀ s, s < 288 → fixLL[s]? = some (if s < 144 then 8 else if s < 256 then 9 else if s < 280 then 7 else 8)) ∧
  (∀ d, d < 32 → fixD[d]? = some 5) ∧
  codeBits fllt 286 = some [true, true, false, false, false, true, true, false] ∧
  codeBits fllt 287 = some [true, true, false, false, false, true, true, true] ∧
  codeBits fdt 30 = some [true, true, true, true, false] ∧ codeBits fdt 31 = some [true, true, true, true, true] ∧
  build fixLL = .ok fllt ∧ build fixD = .ok fdt ∧ fllt.valid = true ∧ fdt.valid = true ∧
  fllt.countAt 7 = 24 ∧ fllt.countAt 8 = 152 ∧ fllt.countAt 9 = 112 ∧
  (∀ L, L < 16 → L ≠ 7 → L ≠ 8 → L ≠ 9 → fllt.countAt L = 0) ∧
  fllt.symbol.map BitVec.toNat = List.range' 256 24 ++ List.range' 0 144 ++ List.range' 280 8 ++ List.range' 144 112 ∧
  fdt.countAt 5 = 32 ∧ (∀ L, L < 16 → L ≠ 5 → fdt.countAt L = 0) ∧ fdt.symbol.map BitVec.toNat = List.range 32

/-! ## Instructions: what each does and what it leaves unchanged -/

/-- R172 to R176, R171: a block header latches BFINAL and BTYPE and its body's phase follows; BTYPE = 3 faults with ErrBlockType. All
else is unchanged. -/
def Obligations.BlockHeaders : Prop :=
  ∀ (f : Bool) (s : State),
    exec (.blkStored f) s = .next { s with bfinal := f, btype := 0, phase := .stored } ∧
    exec (.blkFixed f) s = .next { s with bfinal := f, btype := 1, phase := .symloop } ∧
    exec (.blkDyn f) s = .next { s with bfinal := f, btype := 2, phase := .dynhdr } ∧
    exec (.blkRsvd f) s = .next (raiseFault .blockType s)

/-- R188: CL0 to CL15 write their value to LENS[LIDX] and add one to LIDX, and change nothing else, wherever LENS has the entry. -/
def Obligations.CodeLengthSymbols : Prop :=
  ∀ (i : Instr) (v : BitVec 4) (s : State), codeLengthOf i = some v → ∀ h : s.lidx.toNat < 320,
    exec i s = .next { s with lens := s.lens.set s.lidx.toNat v h, lidx := s.lidx + 1 }

/-- R189 to R192: CL16 with LIDX = 0 faults with ErrRepeatNoPrev; otherwise CL16, CL17 and CL18 fault with ErrRepeatOverrun where the
run passes HLIT + HDIST, else write the run and advance LIDX past it, and change nothing else. LIDX and HLIT + HDIST are at most
320 (R23, R28). -/
def Obligations.RepeatSymbols : Prop :=
  ∀ (i : Instr) (v : BitVec 4) (r : Nat) (s : State), repeatOf s i = some (v, r) → s.lidx.toNat ≤ 320 →
    s.hlit.toNat + s.hdist.toNat ≤ 320 →
    (s.lidx = 0 → (∃ e, i = .cl16 e) → exec i s = .next (raiseFault .repeatNoPrev s)) ∧
    ((s.lidx ≠ 0 ∨ ∀ e, i ≠ .cl16 e) →
      (s.hlit.toNat + s.hdist.toNat < s.lidx.toNat + r → exec i s = .next (raiseFault .repeatOverrun s)) ∧
      (s.lidx.toNat + r ≤ s.hlit.toNat + s.hdist.toNat →
        exec i s = .next { s with
          lens := filled s.lens s.lidx.toNat r v
          lidx := BitVec.ofNat 9 (s.lidx.toNat + r) }))

/-- R213, R214, R305: LIT faults with ErrOutputOverflow when OPOS >= EXPECTED; else the byte stands at OUT[OPOS], every other byte of
OUT reads as before, OPOS grows by one, the checksum takes the byte, and nothing else changes. -/
def Obligations.Literals : Prop :=
  ∀ (b : Byte) (s : State), Memory.wf s.out = true →
    (s.expected.toNat ≤ s.opos.toNat → exec (.lit b) s = .next (raiseFault .outputOverflow s)) ∧
    (s.opos.toNat < s.expected.toNat → ∃ t, exec (.lit b) s = .next t ∧
      t = { s with out := t.out, opos := s.opos + 1, s1 := t.s1, s2 := t.s2 } ∧
      t.s1.toNat = (s.s1.toNat + b.toNat) % 65521 ∧ t.s2.toNat = (s.s2.toNat + t.s1.toNat) % 65521 ∧
      Memory.read t.out s.opos.toNat = b ∧ ∀ a, a ≠ s.opos.toNat → Memory.read t.out a = Memory.read s.out a)

/-- R215, R171: EOB leaves the symbol loop, to the next block header if BFINAL = 0, to the end check if BFINAL = 1, and writes
nothing else. -/
def Obligations.EndOfBlock : Prop :=
  ∀ s : State, exec .eob s = .next { s with phase := if s.bfinal = true then .endchk else .blkhdr }

/-- R216, R217, R220 to R248: each length code sets MLEN, between 3 and 258, and a distance element comes next, which the model's own
flag says (log 5); nothing else changes. -/
def Obligations.LengthCodes : Prop :=
  ∀ (i : Instr) (n : Nat) (s : State), lengthOf i = some n → 3 ≤ n ∧ n ≤ 258 ∧
    exec i s = .next { s with mlen := BitVec.ofNat 9 n, inMatch := true }

/-- R99, R101, R106(4): a decoded length symbol with raw field e stands for the length LBASE[s-257] + e, a decoded distance symbol
for the distance DBASE[d] + e; and the raw fields are LEXT[s-257] and DEXT[d] bits long. -/
def Obligations.LengthAndDistanceTables : Prop :=
  (∀ s e, 257 ≤ s → s ≤ 285 → e < 2 ^ llExtra s → ∃ i, llInstr s e = some i ∧ lengthOf i = some (lbase.getD (s - 257) 0 + e)) ∧
  (∀ d e, d ≤ 29 → e < 2 ^ dExtra d → ∃ i, dInstr d e = some i ∧ distanceOf i = some (dbase.getD d 0 + e)) ∧
  (∀ s, 257 ≤ s → s ≤ 285 → llExtra s = lengthExtra.getD (s - 257) 0) ∧ ∀ d, d ≤ 29 → dExtra d = distanceExtra.getD d 0

/-- R218, R219, R250 to R281: a distance code sets MDIST and copies: ErrDistTooFar before ErrOutputOverflow, both before any byte is
copied; else, with P = OPOS, byte j of the copy is OUT[P - MDIST + (j mod MDIST)], every other byte of OUT reads as before, the
checksum takes the copied bytes in order, and nothing else of the spec's state changes (of the model's flag see DistanceEndsMatch). -/
def Obligations.DistanceCodes : Prop :=
  ∀ (i : Instr) (d : Nat) (s : State), distanceOf i = some d → Memory.wf s.out = true →
    1 ≤ d ∧ d ≤ 32768 ∧
    (s.opos.toNat < d → exec i s = .next (raiseFault .distTooFar s)) ∧
    (d ≤ s.opos.toNat → s.expected.toNat < s.opos.toNat + s.mlen.toNat → exec i s = .next (raiseFault .outputOverflow s)) ∧
    (d ≤ s.opos.toNat → s.opos.toNat + s.mlen.toNat ≤ s.expected.toNat → ∃ t, exec i s = .next t ∧
      t = { s with mdist := BitVec.ofNat 16 d, inMatch := t.inMatch, out := t.out, opos := t.opos, s1 := t.s1, s2 := t.s2 } ∧
      t.opos.toNat = s.opos.toNat + s.mlen.toNat ∧
      (∀ j, j < s.mlen.toNat → Memory.read t.out (s.opos.toNat + j) = Memory.read s.out (s.opos.toNat - d + j % d)) ∧
      (∀ a, a < s.opos.toNat ∨ s.opos.toNat + s.mlen.toNat ≤ a → Memory.read t.out a = Memory.read s.out a) ∧
      (t.s1.toNat, t.s2.toNat) = adlerFrom s.s1.toNat s.s2.toNat (outBytes t.out s.opos.toNat s.mlen.toNat))

/-- The model's flag for the two halves of a match element (DESIGN CHOICE, log 5; R216 has the distance code follow the length code):
after a distance code, copied or faulted, no distance element is due. -/
def Obligations.DistanceEndsMatch : Prop :=
  ∀ (i : Instr) (d : Nat) (s t : State), distanceOf i = some d → exec i s = .next t → t.inMatch = false

/-- R175, R249, R282, R328: the reserved elements fault, each with its own code, and only fault. -/
def Obligations.ReservedElements : Prop :=
  ∀ (s : State) (f : Bool) (b : Byte),
    exec .ll286 s = .next (raiseFault .badLitLenSym s) ∧ exec .ll287 s = .next (raiseFault .badLitLenSym s) ∧
    exec .dist30 s = .next (raiseFault .badDistSym s) ∧ exec .dist31 s = .next (raiseFault .badDistSym s) ∧
    exec (.blkRsvd f) s = .next (raiseFault .blockType s) ∧ exec (.ftRsvd b) s = .next (raiseFault .badFilterType s)

/-- R177, R178: the stored body checks the complement, then the output bound, then that IN holds LEN more bytes; else the LEN bytes of
the stream at the cursor stand at OUT[OPOS ..], BP is past them, the checksum has taken them in order, the block ends (R171), and
nothing else changes. The parameters meet R8's constraints. -/
def Obligations.StoredBodies : Prop :=
  ∀ (len nlen : BitVec 16) (s : State), s.par.Wf → Memory.wf s.out = true → ReaderInv s.inm s.inLen.toNat s.br →
    (len ≠ ~~~nlen → exec (.storedbody len nlen) s = .next (raiseFault .storedLen s)) ∧
    (len = ~~~nlen → s.expected.toNat < s.opos.toNat + len.toNat →
      exec (.storedbody len nlen) s = .next (raiseFault .outputOverflow s)) ∧
    (len = ~~~nlen → s.opos.toNat + len.toNat ≤ s.expected.toNat → 8 * s.inLen.toNat < s.bp + 8 * len.toNat →
      exec (.storedbody len nlen) s = .next (raiseFault .inputExhausted s)) ∧
    (len = ~~~nlen → s.opos.toNat + len.toNat ≤ s.expected.toNat → s.bp + 8 * len.toNat ≤ 8 * s.inLen.toNat →
      ∃ t, exec (.storedbody len nlen) s = .next t ∧
        t = { s with
          br := t.br, slen := len, snlen := nlen, out := t.out, opos := t.opos, s1 := t.s1, s2 := t.s2
          phase := if s.bfinal = true then .endchk else .blkhdr } ∧
        ReaderInv s.inm s.inLen.toNat t.br ∧ t.bp = s.bp + 8 * len.toNat ∧ t.opos.toNat = s.opos.toNat + len.toNat ∧
        (∀ j, j < len.toNat → (Memory.read t.out (s.opos.toNat + j)).toNat = streamBits s.inm (s.bp + 8 * j) 8) ∧
        (∀ a, a < s.opos.toNat ∨ s.opos.toNat + len.toNat ≤ a → Memory.read t.out a = Memory.read s.out a) ∧
        (t.s1.toNat, t.s2.toNat) = adlerFrom s.s1.toNat s.s2.toNat (outBytes t.out s.opos.toNat len.toNat))

/-- R135: READBYTES with room in OUT delivers the bytes GETBITS(8) would, whether the cursor is byte-aligned or not, and fails exactly
when IN ends first. The parameters meet R8's constraints. -/
def Obligations.ReadbytesPathsAgree : Prop :=
  ∀ (n : Nat) (s : State), s.par.Wf → Memory.wf s.out = true → ReaderInv s.inm s.inLen.toNat s.br →
    s.opos.toNat + n ≤ s.expected.toNat →
    (8 * s.inLen.toNat < s.bp + 8 * n → readBytes n s = .error (.raise .inputExhausted)) ∧
    (s.bp + 8 * n ≤ 8 * s.inLen.toNat → ∃ t, readBytes n s = .ok t ∧ t.bp = s.bp + 8 * n ∧
      ∀ j, j < n → (Memory.read t.out (s.opos.toNat + j)).toNat = streamBits s.inm (s.bp + 8 * j) 8)

/-- R183, R184, R185, R95, R96: the dynamic header clears the three VALID flags, sets HLIT, HDIST and HCLEN with their biases, CLLENS by
the transmission order with 0 for what was not sent, LIDX to 0, and builds CLT, or faults as BUILD does; nothing else changes.
The element is well-formed (it carries HCLEN lengths). -/
def Obligations.DynamicHeaders : Prop :=
  ∀ (hlit5 hdist5 : BitVec 5) (hclen4 : BitVec 4) (fields : List (BitVec 3)) (s : State),
    (Instr.dynhdr hlit5 hdist5 hclen4 fields).wf = true →
    (∀ e, build (clLengths fields) = .error e → exec (.dynhdr hlit5 hdist5 hclen4 fields) s = .next (raiseFault e s)) ∧
    (∀ T, build (clLengths fields) = .ok T → ∃ t, exec (.dynhdr hlit5 hdist5 hclen4 fields) s = .next t ∧
      t = { s with
        hlit := t.hlit, hdist := t.hdist, hclen := t.hclen, cllens := t.cllens, lidx := 0, phase := .dynlens, clt := T
        llt := { s.llt with valid := false }, dt := { s.dt with valid := false } } ∧
      t.hlit.toNat = hlit5.toNat + 257 ∧ t.hdist.toNat = hdist5.toNat + 1 ∧ t.hclen.toNat = hclen4.toNat + 4 ∧
      t.cllens.toList.map BitVec.toNat = clLengths fields)

/-- R301 to R304: the header checks in their order: mod 31, method, preset dictionary. With FDICT_MODE = skip4 a set dictionary flag
skips four bytes, or faults with ErrInputExhausted where IN has fewer. A header that passes changes only the phase (and, where
bytes were skipped, the bit reader). The parameters meet R8's constraints. -/
def Obligations.EnvelopeHeaders : Prop :=
  ∀ (cmf flg : Byte) (s : State), s.par.Wf → ReaderInv s.inm s.inLen.toNat s.br →
    ((cmf.toNat * 256 + flg.toNat) % 31 ≠ 0 → exec (.zhdr cmf flg) s = .next (raiseFault .zlibCheck s)) ∧
    ((cmf.toNat * 256 + flg.toNat) % 31 = 0 → cmf.toNat % 16 ≠ 8 → exec (.zhdr cmf flg) s = .next (raiseFault .zlibMethod s)) ∧
    ((cmf.toNat * 256 + flg.toNat) % 31 = 0 → cmf.toNat % 16 = 8 →
      (flg.toNat / 32 % 2 = 0 → exec (.zhdr cmf flg) s = .next { s with phase := .blkhdr }) ∧
      (flg.toNat / 32 % 2 = 1 → s.par.fdictMode = .fail → exec (.zhdr cmf flg) s = .next (raiseFault .presetDict s)) ∧
      (flg.toNat / 32 % 2 = 1 → s.par.fdictMode = .skip4 → 8 * s.inLen.toNat < s.bp + 32 →
        exec (.zhdr cmf flg) s = .next (raiseFault .inputExhausted s)) ∧
      (flg.toNat / 32 % 2 = 1 → s.par.fdictMode = .skip4 → s.bp + 32 ≤ 8 * s.inLen.toNat →
        ∃ r, exec (.zhdr cmf flg) s = .next { s with br := r, phase := .blkhdr } ∧ ReaderInv s.inm s.inLen.toNat r ∧
          r.bp = s.bp + 32))

/-- R306, R305, R320: the trailer passes exactly when its value is S2*65536 + S1, and then only the phase changes, to UNFILTER; otherwise
ErrChecksum. -/
def Obligations.Trailers : Prop :=
  ∀ (v : Word) (s : State),
    (v.toNat = s.s2.toNat * 65536 + s.s1.toNat → exec (.ztrl v) s = .next { s with phase := .unfilter }) ∧
    (v.toNat ≠ s.s2.toNat * 65536 + s.s1.toNat → exec (.ztrl v) s = .next (raiseFault .checksum s))

/-- R321 to R327, R329: FT.NONE to FT.PAETH reconstruct the row ROW: every byte of it is the filtered byte plus the predictor of its
reconstructed neighbours modulo 256, every other byte of PIX reads as before, FT holds the type, ROW grows by one, and nothing else
changes but COL, the loop's own variable (log 20). The configuration is one CFG accepts (R353) and the row exists. -/
def Obligations.FilterRows : Prop :=
  ∀ (i : Instr) (ty : Byte) (pred : Byte → Byte → Byte → Byte) (s : State), filterOf i = some (ty, pred) → GeometryInv s →
    s.row.toNat < s.height.toNat → Memory.wf s.pix = true →
    ∃ t, exec i s = .next { t with row := s.row + 1 } ∧
      t = { s with ft := ty, col := t.col, pix := t.pix } ∧
      (∀ c, c < s.rowbytes.toNat → Memory.read t.pix (s.row.toNat * s.rowbytes.toNat + c) =
        filteredByte s c + pred (leftByte t c) (aboveByte t c) (aboveLeftByte t c)) ∧
      ∀ a, a < s.row.toNat * s.rowbytes.toNat ∨ (s.row.toNat + 1) * s.rowbytes.toNat ≤ a →
        Memory.read t.pix a = Memory.read s.pix a

/-- R332 with R322: reconstruction inverts the forward filter. If PIX holds the image above the row and OUT holds the row filtered by
the forward filter of that type, then after the row PIX holds the image down to and including it. -/
def Obligations.UnfilterInvertsFilter : Prop :=
  ∀ (i : Instr) (ty : Byte) (pred : Byte → Byte → Byte → Byte) (s : State) (raw : Nat → Byte), filterOf i = some (ty, pred) →
    GeometryInv s → s.row.toNat < s.height.toNat → Memory.wf s.pix = true →
    (∀ a, a < s.row.toNat * s.rowbytes.toNat → Memory.read s.pix a = raw a) →
    (∀ c, c < s.rowbytes.toNat →
      filteredByte s c = rawByte raw s c - pred (rawLeft raw s c) (rawAbove raw s c) (rawAboveLeft raw s c)) →
    ∃ t, exec i s = .next t ∧ t.row = s.row + 1 ∧
      ∀ a, a < (s.row.toNat + 1) * s.rowbytes.toNat → Memory.read t.pix a = raw a

/-- R326, R327, R330: the Average predictor is the 9-bit sum halved; Paeth chooses a candidate whose distance to a + b - c is least, a
before b before c on ties; on row 0 it is the left neighbour, in the first pixel of a row the one above. -/
def Obligations.Predictors : Prop :=
  ∀ a b c : Byte,
    (predAvg a b c).toNat = (a.toNat + b.toNat) / 2 ∧
    paethDistance a b c (predPaeth a b c) ≤ paethDistance a b c a ∧
    paethDistance a b c (predPaeth a b c) ≤ paethDistance a b c b ∧
    paethDistance a b c (predPaeth a b c) ≤ paethDistance a b c c ∧
    (paethDistance a b c a ≤ paethDistance a b c b → paethDistance a b c a ≤ paethDistance a b c c → predPaeth a b c = a) ∧
    (¬ (paethDistance a b c a ≤ paethDistance a b c b ∧ paethDistance a b c a ≤ paethDistance a b c c) →
      (paethDistance a b c b ≤ paethDistance a b c c → predPaeth a b c = b) ∧
      (¬ paethDistance a b c b ≤ paethDistance a b c c → predPaeth a b c = c)) ∧
    predPaeth a 0 0 = a ∧ predPaeth 0 b 0 = b

/-! ## The host, the phases, faults -/

/-- R45, R400, R358: the values a reset gives, in State.reset and after a hardware reset in any state: IDLE, no fault code,
configuration and result registers 0, no valid table, the `done` line low. A job with the reset configuration faults with
ErrBadConfig. (The values of the registers the rule leaves unspecified are the model's choice, log 1, and are not stated here.) -/
def Obligations.ResetValues : Prop :=
  HasResetValues State.reset ∧ (∀ s : State, ∃ t, hostMove .hardReset s = .next t ∧ HasResetValues t) ∧
  coreStep (startJob State.reset) = .next (raiseFault .badConfig (startJob State.reset))

/-- R34, R46: a host write of CTRL with bit 0 = 1 outside BUSY initialises exactly the state R46 lists and enters BUSY at the
configuration check; with bit 0 = 0 it does nothing; while BUSY it is ignored; CTRL reads 0. That OUT and PIX keep their bytes is the
model's choice (R46 leaves them unspecified until the job writes them; log 27), and `b` is the model's own match flag (log 5). -/
def Obligations.StartInitialises : Prop :=
  ∀ (v : Word) (s : State),
    (s.status ≠ .busy → v.toNat % 2 = 1 → ∃ b, hostMove (.writeReg 0 v) s = .next { s with
      br := { pos := 0, acc := 0, bitcnt := 0 }, opos := 0, bfinal := false, s1 := 1, s2 := 0
      clt := { s.clt with valid := false }, llt := { s.llt with valid := false }, dt := { s.dt with valid := false }
      err := 0, outLen := 0, pixLen := 0, row := 0, phase := .cfg, inMatch := b }) ∧
    (s.status ≠ .busy → v.toNat % 2 = 0 → hostMove (.writeReg 0 v) s = .next s) ∧
    (s.status = .busy → hostMove (.writeReg 0 v) s = .next s) ∧ (startJob s).status = .busy ∧ readReg 0 s = 0

/-- R33, R37 to R40, R352: host writes of the configuration registers outside BUSY change that register alone (CHANNELS takes bits
2:0); read-only and unlisted offsets ignore writes; while BUSY every register write is ignored. -/
def Obligations.RegisterWrites : Prop :=
  ∀ (v : Word) (s : State),
    (s.status = .busy → ∀ offset, hostMove (.writeReg offset v) s = .next s) ∧
    (s.status ≠ .busy →
      hostMove (.writeReg 0x0C v) s = .next { s with inLen := v } ∧
      hostMove (.writeReg 0x10 v) s = .next { s with width := v } ∧
      hostMove (.writeReg 0x14 v) s = .next { s with height := v } ∧
      (∃ ch : BitVec 3, hostMove (.writeReg 0x18 v) s = .next { s with channels := ch } ∧ ch.toNat = v.toNat % 8) ∧
      ∀ offset, offset ≠ 0 → offset ≠ 0x0C → offset ≠ 0x10 → offset ≠ 0x14 → offset ≠ 0x18 →
        hostMove (.writeReg offset v) s = .next s)

/-- R33, R35 to R42: what the register block reads as: CTRL and unlisted offsets 0, STATUS the number of the state, ERR the fault
code, the configuration registers and the results; unlisted bits are 0. A host read leaves that value in `rdata` and changes nothing
else. OUT_LEN and PIX_LEN are the host's to read only in DONE (R361, R405 HA3); the model refuses the move elsewhere, by name (log
15). That the configuration registers answer while BUSY is the model's choice (log 16). -/
def Obligations.RegisterReads : Prop :=
  ∀ s : State,
    readReg 0x00 s = 0 ∧
    (readReg 0x04 s).toNat = (match s.status with | .idle => 0 | .busy => 1 | .done => 2 | .fault => 3) ∧
    (readReg 0x08 s).toNat = s.err.toNat ∧ readReg 0x0C s = s.inLen ∧ readReg 0x10 s = s.width ∧
    readReg 0x14 s = s.height ∧ (readReg 0x18 s).toNat = s.channels.toNat ∧ readReg 0x1C s = s.outLen ∧
    readReg 0x20 s = s.pixLen ∧
    (∀ offset, offset ∉ [0x00, 0x04, 0x08, 0x0C, 0x10, 0x14, 0x18, 0x1C, 0x20] → readReg offset s = 0) ∧
    (∀ offset, (offset ≠ 0x1C ∧ offset ≠ 0x20) ∨ s.status = .done →
      hostMove (.readReg offset) s = .next { s with rdata := readReg offset s }) ∧
    (s.status ≠ .done → hostMove (.readReg 0x1C) s = .refused (.hostMove (.readReg 0x1C)) ∧
      hostMove (.readReg 0x20) s = .refused (.hostMove (.readReg 0x20)))

/-- R352, R64, R401: outside BUSY the host may write any byte of IN below IN_CAP, and that write changes that byte alone; it may read
OUT and PIX in DONE alone, within OUT_LEN and PIX_LEN, and reading changes nothing but what the read returns. Moves it must not
make are refused by name. -/
def Obligations.HostMemoryAccess : Prop :=
  ∀ (s : State) (a : Nat) (b : Byte), Memory.wf s.inm = true →
    (s.status ≠ .busy → a < s.par.inCap.toNat → ∃ m, hostMove (.writeIn a b) s = .next { s with inm := m } ∧
      Memory.read m a = b ∧ ∀ a', a' ≠ a → Memory.read m a' = Memory.read s.inm a') ∧
    (s.status = .busy → hostMove (.writeIn a b) s = .refused (.hostMove (.writeIn a b))) ∧
    (s.status = .done → a < s.outLen.toNat → ∃ w : Word, hostMove (.readOut a) s = .next { s with rdata := w } ∧
      w.toNat = (Memory.read s.out a).toNat) ∧
    (s.status = .done → a < s.pixLen.toNat → ∃ w : Word, hostMove (.readPix a) s = .next { s with rdata := w } ∧
      w.toNat = (Memory.read s.pix a).toNat) ∧
    (s.status ≠ .done → hostMove (.readOut a) s = .refused (.hostMove (.readOut a)) ∧
      hostMove (.readPix a) s = .refused (.hostMove (.readPix a)))

/-- R353, R12(9), R359: the configuration check: ErrBadConfig before ErrResource, on exact products; else EXPECTED, ROWBYTES and BPP
are set to their exact values and nothing else changes but the phase. -/
def Obligations.ConfigurationCheck : Prop :=
  ∀ s : State, s.phase = .cfg →
    ((s.channels.toNat < 1 ∨ 4 < s.channels.toNat ∨ s.width.toNat = 0 ∨ s.height.toNat = 0) →
      coreStep s = .next (raiseFault .badConfig s)) ∧
    (1 ≤ s.channels.toNat → s.channels.toNat ≤ 4 → s.width.toNat ≠ 0 → s.height.toNat ≠ 0 →
      ((s.par.outCap.toNat < s.height.toNat * (1 + s.width.toNat * s.channels.toNat) ∨ s.par.inCap.toNat < s.inLen.toNat ∨
          s.par.pixCap.toNat < s.height.toNat * (s.width.toNat * s.channels.toNat)) →
        coreStep s = .next (raiseFault .resource s)) ∧
      (s.height.toNat * (1 + s.width.toNat * s.channels.toNat) ≤ s.par.outCap.toNat → s.inLen.toNat ≤ s.par.inCap.toNat →
        s.height.toNat * (s.width.toNat * s.channels.toNat) ≤ s.par.pixCap.toNat →
        ∃ t, coreStep s = .next t ∧
          t = { s with expected := t.expected, rowbytes := t.rowbytes, bpp := s.channels, phase := .zhdr } ∧
          t.expected.toNat = s.height.toNat * (1 + s.width.toNat * s.channels.toNat) ∧
          t.rowbytes.toNat = s.width.toNat * s.channels.toNat))

/-- R193, R186, R187: when LIDX has reached HLIT + HDIST the two tables are built from their parts of LENS, the literal/length table
first, and the symbol loop follows; a fault of the first hides the second; nothing else changes. -/
def Obligations.TableBuilds : Prop :=
  ∀ s : State, s.phase = .dynlens → s.hlit.toNat + s.hdist.toNat ≤ s.lidx.toNat →
    let ll := build ((s.lens.toList.take s.hlit.toNat).map BitVec.toNat)
    let d := build (((s.lens.toList.drop s.hlit.toNat).take s.hdist.toNat).map BitVec.toNat)
    (∀ e, ll = .error e → coreStep s = .next (raiseFault e s)) ∧
    (∀ T e, ll = .ok T → d = .error e → coreStep s = .next (raiseFault e s)) ∧
    ∀ T U, ll = .ok T → d = .ok U → coreStep s = .next { s with llt := T, dt := U, phase := .symloop }

/-- R194: the end check passes exactly when OPOS = EXPECTED, and then only the phase changes, to TRAILER; otherwise
ErrLengthMismatch. -/
def Obligations.EndCheck : Prop :=
  ∀ s : State, s.phase = .endchk →
    (s.opos = s.expected → coreStep s = .next { s with phase := .trailer }) ∧
    (s.opos ≠ s.expected → coreStep s = .next (raiseFault .lengthMismatch s))

/-- R361, R41, R42, R358: after the last row the job completes: OUT_LEN = OPOS = EXPECTED, PIX_LEN = WIDTH*HEIGHT*CHANNELS, STATE =
DONE, ERR.CODE stays 0, `done` goes high, and nothing else changes. -/
def Obligations.Completion : Prop :=
  ∀ s : State, Inv s → s.phase = .unfilter → s.row = s.height → ∃ t, coreStep s = .next t ∧
    t = { s with outLen := s.opos, pixLen := t.pixLen, phase := .done } ∧
    t.pixLen.toNat = s.width.toNat * s.height.toNat * s.channels.toNat ∧ t.outLen = s.expected ∧ t.status = .done ∧
    t.err = 0 ∧ t.doneLine = true

/-- R360, R355, R356, R358: a fault sets ERR.CODE to the code of R355, PHASE and STATUS.STATE to FAULT and raises `done`; IN and the
configuration are as before; and no two faults share a code. -/
def Obligations.FaultEntry : Prop :=
  (∀ (e : Err) (s : State), (e, (raiseFault e s).err) ∈ faultCodes ∧ (raiseFault e s).phase = .fault ∧
    (raiseFault e s).status = .fault ∧ (raiseFault e s).doneLine = true ∧ (raiseFault e s).inm = s.inm ∧
    (raiseFault e s).inLen = s.inLen ∧ (raiseFault e s).width = s.width ∧ (raiseFault e s).height = s.height ∧
    (raiseFault e s).channels = s.channels ∧ (raiseFault e s).par = s.par ∧ (raiseFault e s).sched = s.sched) ∧
  ∀ e e' : Err, errCode e = errCode e' → e = e'

/-- R14, R107, R171, R186, R212: which element each phase reads: the format, and the table for the coded ones. -/
def Obligations.PhaseSelectsContext : Prop :=
  ∀ s : State,
    (s.phase = .zhdr → elementCtx s = some .zh) ∧ (s.phase = .blkhdr → elementCtx s = some .bh) ∧
    (s.phase = .stored → elementCtx s = some .st) ∧ (s.phase = .dynhdr → elementCtx s = some .dh) ∧
    (s.phase = .trailer → elementCtx s = some .tr) ∧
    (s.phase = .dynlens → s.lidx.toNat < s.hlit.toNat + s.hdist.toNat → s.lidx = 0 → elementCtx s = some (.cl s.clt false)) ∧
    (s.phase = .dynlens → s.lidx.toNat < s.hlit.toNat + s.hdist.toNat → s.lidx ≠ 0 → elementCtx s = some (.cl s.clt true)) ∧
    (s.phase = .symloop → s.btype = 1 → s.inMatch = false → elementCtx s = some (.ll fllt)) ∧
    (s.phase = .symloop → s.btype = 1 → s.inMatch = true → elementCtx s = some (.d fdt)) ∧
    (s.phase = .symloop → s.btype = 2 → s.inMatch = false → elementCtx s = some (.ll s.llt)) ∧
    (s.phase = .symloop → s.btype = 2 → s.inMatch = true → elementCtx s = some (.d s.dt))

/-- A step runs the decoded element: where the core acts (no host move is pending) and the phase's context decodes an element at the
cursor, the step is `exec` of that element in the state whose reader is past it and whose HDECODE registers are those the code
left; where the stream ends inside the element the step is the fault ErrInputExhausted (R132), and where no code matches
ErrHuffNoMatch (R156). -/
def Obligations.StepRunsDecodedElement : Prop :=
  ∀ (s : State) (c : Ctx), elementCtx s = some c →
    (∀ f, decode (readerSource s.inm s.inLen.toNat s.par) c s.br = .ok f →
      (s.sched = [] → step s = exec f.instr { s with br := f.rest, hd := f.regs.getD s.hd }) ∧
      (∀ rest, s.sched = none :: rest →
        step s = exec f.instr { s with br := f.rest, hd := f.regs.getD s.hd, sched := rest })) ∧
    (decode (readerSource s.inm s.inLen.toNat s.par) c s.br = .error .exhausted →
      (s.sched = [] → step s = .next (raiseFault .inputExhausted s)) ∧
      (∀ rest, s.sched = none :: rest → step s = .next (raiseFault .inputExhausted { s with sched := rest }))) ∧
    (decode (readerSource s.inm s.inLen.toNat s.par) c s.br = .error .noMatch →
      (s.sched = [] → step s = .next (raiseFault .huffNoMatch s)) ∧
      (∀ rest, s.sched = none :: rest → step s = .next (raiseFault .huffNoMatch { s with sched := rest })))

/-- A step of the core in UNFILTER runs the filter-type byte of row ROW, which stands at OUT[ROW*(1 + ROWBYTES)] (R321, R103). -/
def Obligations.StepRunsFilterByte : Prop :=
  ∀ s : State, s.phase = .unfilter → s.row.toNat < s.height.toNat → s.row.toNat * (1 + s.rowbytes.toNat) < s.expected.toNat →
    (s.sched = [] → step s = exec (filterInstr (Memory.read s.out (s.row.toNat * (1 + s.rowbytes.toNat)))) s) ∧
    ∀ rest, s.sched = none :: rest →
      step s = exec (filterInstr (Memory.read s.out (s.row.toNat * (1 + s.rowbytes.toNat)))) { s with sched := rest }

/-- A step with a host move pending is that move (R352), in the state without it. -/
def Obligations.StepRunsHostMove : Prop :=
  ∀ (s : State) (m : HostMove) (rest : List (Option HostMove)), s.sched = some m :: rest →
    step s = hostMove m { s with sched := rest }

/-- R360, R362, R364: in IDLE, DONE and FAULT the core does nothing. -/
def Obligations.CoreRestsOutsideJobs : Prop :=
  ∀ s : State, s.phase = .idle ∨ s.phase = .done ∨ s.phase = .fault → coreStep s = .next s

/-- R360, R362, R34: no step leaves IDLE, DONE or FAULT but a host's START or a hardware reset. -/
def Obligations.OnlyHostLeavesRest : Prop :=
  ∀ s t : State, s.status ≠ .busy → step s = .next t → t.status ≠ s.status →
    ∃ rest, (∃ v : Word, v.toNat % 2 = 1 ∧ s.sched = some (.writeReg 0 v) :: rest ∧ t.status = .busy) ∨
      (s.sched = some .hardReset :: rest ∧ t.status = .idle)

/-! ## Invariants and whole-machine rules -/

/-- The invariant holds after reset. (That memory lists nothing then, and the registers R45 leaves open, are the model's choice,
logs 1 and 2.) -/
def Obligations.ResetSatisfiesInv : Prop := Inv State.reset

/-- Every step keeps the three memories in canonical form: from a state in which all three are canonical lists, whatever else it
holds. The form (addresses rising, no byte equal to what an unlisted address reads as) is the model's own representation of the
memories of R60, and what an unlisted address reads as is its choice (DESIGN CHOICE, log 2). -/
def Obligations.StepKeepsMemoriesCanonical : Prop :=
  ∀ s t : State, Memory.wf s.inm = true → Memory.wf s.out = true → Memory.wf s.pix = true → step s = .next t →
    Memory.wf t.inm = true ∧ Memory.wf t.out = true ∧ Memory.wf t.pix = true

/-- Every step, of the host or the core, keeps the invariant `Inv`: the bit reader's (R22), the geometry (R353), the bounds of R70, the
tables and lengths of a dynamic block (R187, R193), ERR.CODE 0 outside FAULT and a code of R355 in it (R36), and the results'
registers (R41, R42). -/
def Obligations.StepKeepsInv : Prop :=
  ∀ s t : State, Inv s → step s = .next t → Inv t

/-- R409: no state of a running job is stuck: from the invariant the core always answers a next state, never a fault or a refusal of
the model. -/
def Obligations.NoStuckJob : Prop :=
  ∀ s : State, Inv s → s.busy → ∃ t, coreStep s = .next t

/-- R6, R196, R407: every job ends, in DONE or FAULT, within as many steps as its work bound, which counts the bits not yet read and
the rows not yet reconstructed. -/
def Obligations.EveryJobEnds : Prop :=
  ∀ s : State, Inv s → s.busy → ∃ n t, n ≤ remainingWork s ∧ coreRun n s = .next t ∧ t.final

/-- R305: while a job runs, S1 and S2 are the sums over OUT[0 .. OPOS-1] from 1 and 0, in order. -/
def Obligations.ChecksumCoversOutput : Prop :=
  ∀ s t : State, Inv s → (s.busy → ChecksumInv s) → step s = .next t → t.busy → ChecksumInv t

/-- R60, R76, R64: no step of the core changes IN, IN_LEN, WIDTH, HEIGHT, CHANNELS or the parameters, from any state at all. -/
def Obligations.CoreNeverWritesInput : Prop :=
  ∀ s t : State, coreStep s = .next t →
    t.inm = s.inm ∧ t.inLen = s.inLen ∧ t.width = s.width ∧ t.height = s.height ∧ t.channels = s.channels ∧ t.par = s.par

/-- R24, R61: while a job runs BP never decreases and stays within 0 .. 8*IN_LEN. -/
def Obligations.CursorOnlyAdvances : Prop :=
  ∀ s t : State, Inv s → s.busy → coreStep s = .next t → t.busy → s.bp ≤ t.bp ∧ t.bp ≤ 8 * s.inLen.toNat

/-- R60, R62: while a job runs OUT is written only at OPOS and on: OPOS never decreases nor passes EXPECTED, and no byte below the old
or above the new OPOS changes. -/
def Obligations.OutputIsAppendOnly : Prop :=
  ∀ s t : State, Inv s → s.busy → s.phase ≠ .cfg → coreStep s = .next t → t.status ≠ .fault →
    s.opos.toNat ≤ t.opos.toNat ∧ t.opos.toNat ≤ s.expected.toNat ∧ t.expected = s.expected ∧
    ∀ a, a < s.opos.toNat ∨ t.opos.toNat ≤ a → Memory.read t.out a = Memory.read s.out a

/-- R60, R63: while a job runs PIX is written only in the row that ROW passes: no byte of an earlier or a later row changes. -/
def Obligations.PixelsWrittenRowByRow : Prop :=
  ∀ s t : State, Inv s → s.busy → coreStep s = .next t → t.status ≠ .fault →
    s.row.toNat ≤ t.row.toNat ∧ t.row.toNat ≤ s.row.toNat + 1 ∧
    ∀ a, a < s.row.toNat * s.rowbytes.toNat ∨ t.row.toNat * s.rowbytes.toNat ≤ a →
      Memory.read t.pix a = Memory.read s.pix a

/-- R402, R362: the outcome of a job depends on IN[0 .. IN_LEN-1], the configuration and the parameters alone: two states that agree on
these, whatever happened before in each, give after START, step for step, the same status, fault code and results. -/
def Obligations.JobIgnoresHistory : Prop :=
  ∀ s t : State, Inv s → Inv t → SameJob s t → ∀ (n : Nat) (a : State), coreRun n (startJob s) = .next a →
    ∃ b, coreRun n (startJob t) = .next b ∧ SameResult a b

/-! ## Hardware reset, and the core's own steps -/

/-- R400, R45 as the model completes them (DESIGN CHOICE, log 21): a hardware reset, in any state, leaves State.reset, with every
register and memory the rule leaves unspecified at the model's reset value (logs 1 and 2), and keeps what is no state of the
machine: the parameters, the pending moves, the host's last read and the model's counter of free values. -/
def Obligations.HardwareResetState : Prop :=
  ∀ s : State, hostMove .hardReset s =
    .next { State.reset with par := s.par, sched := s.sched, rdata := s.rdata, freeCtr := s.freeCtr }

/-- A step with no host move pending is the core's step (R410): an empty list leaves the state as it is, an entry that gives the core
its turn is taken off first (the list is the model's own, log 6). What the core does in each phase then holds of `step`: CFG, the
two table builds, ENDCHK and completion (R14, R353, R193, R194, R361). -/
def Obligations.StepRunsCore : Prop :=
  ∀ s : State, (s.sched = [] → step s = coreStep s) ∧
    ∀ rest : List (Option HostMove), s.sched = none :: rest → step s = coreStep { s with sched := rest }

end
end

