-- ==== Sys2Proof/Laws/Memory.lean ====
section
/-! SUPPORT. The laws of a memory: read after write, and the canonical form. -/

namespace Sys2Proof.Machine

@[simp] theorem Memory.read_nil (a : Nat) : Memory.read [] a = Memory.default := rfl

@[simp] theorem Memory.wf_nil : Memory.wf [] = true := rfl

theorem Memory.wfFrom_mono {lo lo' : Nat} (h : lo' ≤ lo) {m : Memory} (hm : Memory.wfFrom lo m = true) :
    Memory.wfFrom lo' m = true := by
  cases m with
  | nil => rfl
  | cons c m =>
    simp only [Memory.wfFrom, Bool.and_eq_true, decide_eq_true_eq] at hm ⊢
    exact ⟨⟨by omega, hm.1.2⟩, hm.2⟩

/-- Below the first possible address of a canonical memory every address reads the default. -/
theorem Memory.read_below {lo a : Nat} {m : Memory} (hm : Memory.wfFrom lo m = true) (h : a < lo) :
    Memory.read m a = Memory.default := by
  cases m with
  | nil => rfl
  | cons c m =>
    obtain ⟨k, b⟩ := c
    simp only [Memory.wfFrom, Bool.and_eq_true, decide_eq_true_eq] at hm
    simp only [Memory.read]
    rw [if_neg (by omega), if_pos (by omega)]

/-- MemWrite then MemRead at the same address gives the byte written. -/
theorem Memory.read_write_same {lo : Nat} {m : Memory} (hm : Memory.wfFrom lo m = true) (a : Nat) (v : Byte) :
    Memory.read (Memory.write m a v) a = v := by
  induction m generalizing lo with
  | nil => by_cases hv : v = Memory.default <;> simp [Memory.write, Memory.read, hv]
  | cons c m ih =>
    obtain ⟨k, b⟩ := c
    simp only [Memory.wfFrom, Bool.and_eq_true, decide_eq_true_eq] at hm
    simp only [Memory.write]
    split
    · rename_i h
      split
      · rename_i hv
        simp only [Memory.read]
        rw [if_neg (by omega), if_pos h, hv]
      · simp [Memory.read]
    · split
      · rename_i h
        split
        · rename_i hv
          rw [hv]
          exact Memory.read_below hm.2 (by omega)
        · simp [Memory.read]
      · rename_i h1 h2
        simp only [Memory.read]
        rw [if_neg h2, if_neg h1]
        exact ih hm.2

/-- MemWrite leaves every other address as it was. -/
theorem Memory.read_write_other {lo : Nat} {m : Memory} (hm : Memory.wfFrom lo m = true) {a a' : Nat} (v : Byte)
    (h : a' ≠ a) : Memory.read (Memory.write m a v) a' = Memory.read m a' := by
  induction m generalizing lo with
  | nil =>
    by_cases hv : v = Memory.default
    · simp [Memory.write, hv]
    · simp [Memory.write, Memory.read, hv, h]
  | cons c m ih =>
    obtain ⟨k, b⟩ := c
    simp only [Memory.wfFrom, Bool.and_eq_true, decide_eq_true_eq] at hm
    simp only [Memory.write]
    split
    · rename_i hk
      split
      · rfl
      · simp only [Memory.read, if_neg h]
        split
        · rename_i hlt
          rw [if_neg (by omega), if_pos (by omega)]
        · rfl
    · split
      · rename_i hk
        split
        · simp only [Memory.read]
          rw [if_neg (by omega)]
          split
          · rename_i hlt'
            exact Memory.read_below hm.2 (by omega)
          · rfl
        · simp only [Memory.read, if_neg h]
          rw [if_neg (by omega : a' ≠ k), hk]
      · simp only [Memory.read]
        rw [ih hm.2]

theorem Memory.wfFrom_write {lo : Nat} {m : Memory} (hm : Memory.wfFrom lo m = true) {a : Nat} (v : Byte) (h : lo ≤ a) :
    Memory.wfFrom lo (Memory.write m a v) = true := by
  induction m generalizing lo with
  | nil => by_cases hv : v = Memory.default <;> simp [Memory.write, Memory.wfFrom, hv, h]
  | cons c m ih =>
    obtain ⟨k, b⟩ := c
    have hm' := hm
    simp only [Memory.wfFrom, Bool.and_eq_true, decide_eq_true_eq] at hm'
    simp only [Memory.write]
    split
    · split
      · exact hm
      · rename_i hv
        simp only [Memory.wfFrom, Bool.and_eq_true, decide_eq_true_eq]
        exact ⟨⟨h, hv⟩, ⟨by omega, hm'.1.2⟩, hm'.2⟩
    · split
      · split
        · exact Memory.wfFrom_mono (by omega) hm'.2
        · rename_i hv
          simp only [Memory.wfFrom, Bool.and_eq_true, decide_eq_true_eq]
          exact ⟨⟨h, hv⟩, by rename_i _ hk; rw [hk]; exact hm'.2⟩
      · simp only [Memory.wfFrom, Bool.and_eq_true, decide_eq_true_eq]
        exact ⟨hm'.1, ih hm'.2 (by omega)⟩

/-- MemWrite keeps the canonical form. -/
theorem Memory.wf_write {m : Memory} (hm : Memory.wf m = true) (a : Nat) (v : Byte) :
    Memory.wf (Memory.write m a v) = true :=
  Memory.wfFrom_write hm v (Nat.zero_le a)

/-- A memory made of cells is canonical. -/
theorem Memory.wf_ofCells (cells : List (Nat × BitVec 8)) : Memory.wf (Memory.ofCells cells) = true := by
  have : ∀ (cs : List (Nat × BitVec 8)) (m : Memory), Memory.wf m = true →
      Memory.wf (cs.foldl (fun m c => Memory.write m c.1 c.2) m) = true := by
    intro cs
    induction cs with
    | nil => intro m hm; exact hm
    | cons c cs ih => intro m hm; exact ih _ (Memory.wf_write hm _ _)
  exact this cells [] rfl

/-- Reading after a write, in one equation. -/
theorem Memory.read_write {m : Memory} (hm : Memory.wf m = true) (a a' : Nat) (v : Byte) :
    Memory.read (Memory.write m a v) a' = if a' = a then v else Memory.read m a' := by
  split
  · rename_i h; rw [h]; exact Memory.read_write_same hm a v
  · rename_i h; exact Memory.read_write_other hm v h

end Sys2Proof.Machine
end

