-- ==== Sys2Proof/Laws/Reader.lean ====
section
/-! SUPPORT. The bit reader: GETBITS at the registers against the stream of bits (spec R22, R131, R132, R136). -/

namespace Sys2Proof.Machine

theorem streamBits_lt (m : Memory) (k n : Nat) : streamBits m k n < 2 ^ n := by
  induction n generalizing k with
  | zero => simp [streamBits]
  | succ n ih =>
    have := ih (k + 1)
    have hb := Bool.toNat_lt (streamBit m k)
    rw [streamBits, Nat.pow_succ]
    omega

theorem streamBits_add (m : Memory) (k a b : Nat) :
    streamBits m k (a + b) = streamBits m k a + 2 ^ a * streamBits m (k + a) b := by
  induction a generalizing k with
  | zero => simp [streamBits]
  | succ a ih =>
    have h : a + 1 + b = (a + b) + 1 := by omega
    rw [h, streamBits, ih (k + 1), streamBits, Nat.pow_succ, show k + 1 + a = k + (a + 1) by omega]
    ring

/-- Bits inside one byte of IN. -/
theorem streamBits_byte (m : Memory) (p i j : Nat) (h : i + j ≤ 8) :
    streamBits m (8 * p + i) j = (Memory.read m p).toNat / 2 ^ i % 2 ^ j := by
  induction j generalizing i with
  | zero => simp [streamBits, Nat.mod_one]
  | succ j ih =>
    have hi : (8 * p + i) / 8 = p := by omega
    have hm : (8 * p + i) % 8 = i := by omega
    rw [streamBits, Nat.add_assoc, ih (i + 1) (by omega), streamBit, hi, hm, BitVec.getLsbD]
    set x := (Memory.read m p).toNat
    have h1 : (x.testBit i).toNat = x / 2 ^ i % 2 := by
      rw [Nat.testBit_eq_decide_div_mod_eq]
      rcases Nat.mod_two_eq_zero_or_one (x / 2 ^ i) with h | h <;> simp [h]
    have h2 : x / 2 ^ (i + 1) = x / 2 ^ i / 2 := by rw [Nat.pow_succ, Nat.div_div_eq_div_mul]
    rw [h1, h2, Nat.pow_succ]
    have := Nat.mod_mul (x := x / 2 ^ i) (a := 2) (b := 2 ^ j)
    rw [Nat.mul_comm (2 ^ j) 2, this]

theorem streamBits_whole_byte (m : Memory) (p : Nat) : streamBits m (8 * p) 8 = (Memory.read m p).toNat := by
  have := streamBits_byte m p 0 8 (by omega)
  have hlt := (Memory.read m p).isLt
  simpa [Nat.mod_eq_of_lt hlt] using this

/-- What holds of the buffer while GETBITS refills it: ACC holds the BITCNT stream bits from BP on. -/
structure Buffered (inm : Memory) (inLen : Nat) (br : BitReader) : Prop where
  bitcnt_le : br.bitcnt.toNat ≤ 31
  enough : br.bitcnt.toNat ≤ 8 * br.pos.toNat
  pos_le : br.pos.toNat ≤ inLen
  acc_eq : br.acc = streamBits inm br.bp br.bitcnt.toNat

theorem ReaderInv.buffered {inm : Memory} {inLen : Nat} {br : BitReader} (h : ReaderInv inm inLen br) :
    Buffered inm inLen br := by
  have hlt := h.bitcnt_lt
  refine ⟨by omega, ?_, h.pos_le, ?_⟩
  · by_cases h0 : br.bitcnt.toNat = 0
    · omega
    · have := h.pos_pos h0
      omega
  · rw [h.acc_eq, BitReader.bp]
    by_cases h0 : br.bitcnt.toNat = 0
    · have := (Memory.read inm (br.pos.toNat - 1)).isLt
      simp only [h0, streamBits]
      omega
    · have hp := h.pos_pos h0
      have e : 8 * br.pos.toNat - br.bitcnt.toNat = 8 * (br.pos.toNat - 1) + (8 - br.bitcnt.toNat) := by omega
      rw [e, streamBits_byte _ _ _ _ (by omega), Nat.mod_eq_of_lt]
      have := (Memory.read inm (br.pos.toNat - 1)).isLt
      rw [Nat.div_lt_iff_lt_mul (by positivity), ← Nat.pow_add]
      rw [show br.bitcnt.toNat + (8 - br.bitcnt.toNat) = 8 by omega]
      exact this

theorem Buffered.readerInv {inm : Memory} {inLen : Nat} {br : BitReader} (h : Buffered inm inLen br)
    (hlt : br.bitcnt.toNat < 8) : ReaderInv inm inLen br := by
  have hpos := h.enough
  refine ⟨hlt, h.pos_le, fun h0 => by omega, ?_⟩
  rw [h.acc_eq, BitReader.bp]
  by_cases h0 : br.bitcnt.toNat = 0
  · have := (Memory.read inm (br.pos.toNat - 1)).isLt
    simp only [h0, streamBits]
    omega
  · have e : 8 * br.pos.toNat - br.bitcnt.toNat = 8 * (br.pos.toNat - 1) + (8 - br.bitcnt.toNat) := by omega
    rw [e, streamBits_byte _ _ _ _ (by omega), Nat.mod_eq_of_lt]
    have := (Memory.read inm (br.pos.toNat - 1)).isLt
    rw [Nat.div_lt_iff_lt_mul (by positivity), ← Nat.pow_add]
    rw [show br.bitcnt.toNat + (8 - br.bitcnt.toNat) = 8 by omega]
    exact this

/-- Loading one byte keeps the buffer's invariant and BP. -/
theorem Buffered.load {inm : Memory} {inLen : Nat} {br : BitReader} (h : Buffered inm inLen br)
    (hb : br.bitcnt.toNat < 24) (hp : br.pos.toNat < inLen) (hl : inLen < 2 ^ 32) {w : Nat} (hw : 31 ≤ w) :
    Buffered inm inLen
        { acc := (br.acc ||| ((Memory.read inm br.pos.toNat).toNat <<< br.bitcnt.toNat)) % 2 ^ w, pos := br.pos + 1,
          bitcnt := br.bitcnt + 8 } ∧
      (br.pos + 1).toNat = br.pos.toNat + 1 ∧ (br.bitcnt + 8).toNat = br.bitcnt.toNat + 8 := by
  have hpos : (br.pos + 1).toNat = br.pos.toNat + 1 := by
    rw [BitVec.toNat_add]; simp; omega
  have hcnt : (br.bitcnt + 8).toNat = br.bitcnt.toNat + 8 := by
    rw [BitVec.toNat_add]; simp; omega
  have hen := h.enough
  refine ⟨⟨?_, ?_, ?_, ?_⟩, hpos, hcnt⟩
  · rw [hcnt]; omega
  · simp only [hcnt, hpos]; omega
  · simp only [hpos]; omega
  · have hbyte := (Memory.read inm br.pos.toNat).isLt
    have hacc : br.acc < 2 ^ br.bitcnt.toNat := by rw [h.acc_eq]; exact streamBits_lt _ _ _
    have e : 8 * (br.pos.toNat + 1) - (br.bitcnt.toNat + 8) = 8 * br.pos.toNat - br.bitcnt.toNat := by omega
    simp only [BitReader.bp, hcnt, hpos, e]
    rw [streamBits_add, show 8 * br.pos.toNat - br.bitcnt.toNat + br.bitcnt.toNat = 8 * br.pos.toNat by omega,
      streamBits_whole_byte]
    have hpow : 2 ^ br.bitcnt.toNat ≤ 2 ^ 23 := Nat.pow_le_pow_right (by omega) (by omega)
    have hsmall : (Memory.read inm br.pos.toNat).toNat * 2 ^ br.bitcnt.toNat + br.acc < 2 ^ w := by
      calc _ ≤ 255 * 2 ^ 23 + br.acc := Nat.add_le_add_right (Nat.mul_le_mul (by omega) hpow) _
        _ < 2 ^ 31 := by omega
        _ ≤ 2 ^ w := Nat.pow_le_pow_right (by omega) hw
    rw [Nat.or_comm, ← Nat.shiftLeft_add_eq_or_of_lt hacc, Nat.shiftLeft_eq, Nat.mod_eq_of_lt hsmall]
    have := h.acc_eq
    rw [BitReader.bp] at this
    rw [this]
    ring

/-- Everything the refill loop can do: none exactly when the stream ends before `n` bits, else at least `n` bits are buffered, BP
unmoved, and no more bytes were loaded than needed. -/
theorem refill_spec {inm : Memory} {inLen : Nat} (hl : inLen < 2 ^ 32) {w : Nat} (hw : 31 ≤ w) {n : Nat} (hn : n ≤ 24) :
    ∀ {fuel : Nat} {br : BitReader}, Buffered inm inLen br → n ≤ fuel + br.bitcnt.toNat →
      (8 * inLen < br.bp + n ∧ refill inm inLen w fuel n br = none) ∨
      ∃ r, refill inm inLen w fuel n br = some r ∧ Buffered inm inLen r ∧ r.bp = br.bp ∧ n ≤ r.bitcnt.toNat ∧
        (br.bitcnt.toNat < n + 8 → r.bitcnt.toNat < n + 8) := by
  intro fuel
  induction fuel with
  | zero => intro br h hf; exact .inr ⟨br, rfl, h, rfl, by omega, fun x => x⟩
  | succ fuel ih =>
    intro br h hf
    simp only [refill]
    by_cases hlt : br.bitcnt.toNat < n
    · rw [if_pos hlt]
      by_cases hend : inLen ≤ br.pos.toNat
      · rw [if_pos hend]
        refine .inl ⟨?_, rfl⟩
        have := h.enough
        rw [BitReader.bp]
        omega
      · rw [if_neg hend]
        obtain ⟨hb, hpos, hcnt⟩ := h.load (by omega) (by omega) hl hw
        have hbp : ∀ x : BitReader, x.pos = br.pos + 1 → x.bitcnt = br.bitcnt + 8 → x.bp = br.bp := by
          intro x h1 h2
          have := h.enough
          rw [BitReader.bp, BitReader.bp, h1, h2, hpos, hcnt]
          omega
        rcases ih hb (by simp only [hcnt]; omega) with ⟨h1, h2⟩ | ⟨r, h1, h2, h3, h4, h5⟩
        · exact .inl ⟨by rw [hbp _ rfl rfl] at h1; exact h1, h2⟩
        · refine .inr ⟨r, h1, h2, by rw [h3]; exact hbp _ rfl rfl, h4, fun _ => h5 ?_⟩
          simp only [hcnt]
          omega
    · rw [if_neg hlt]
      exact .inr ⟨br, rfl, h, rfl, by omega, fun x => x⟩

/-- GETBITS(n) at the registers, in terms of the stream of bits (R131, R132): it fails exactly when the stream ends first, else it
answers the next `n` bits and advances BP by `n`, keeping the reader's invariant. -/
theorem getbits_cases {inm : Memory} {inLen : Nat} (hl : inLen < 2 ^ 32) {par : Params} (hp : par.Wf) {n : Nat}
    (hn : n ≤ 24) {br : BitReader} (h : ReaderInv inm inLen br) :
    (8 * inLen < br.bp + n ∧ getbits inm inLen par n br = .error .exhausted) ∨
    ∃ r, getbits inm inLen par n br = .ok (streamBits inm br.bp n, r) ∧ ReaderInv inm inLen r ∧ r.bp = br.bp + n ∧
      br.bp + n ≤ 8 * inLen := by
  have hlt := h.bitcnt_lt
  have hm := hp.nMax_eq
  have hw := hp.accW_ge
  rw [getbits, if_neg (by omega)]
  rcases refill_spec hl (by omega : 31 ≤ par.accW) hn h.buffered (fuel := n) (by omega) with ⟨h1, h2⟩ | ⟨r, h1, hb, hbp, h4, h5⟩
  · exact .inl ⟨h1, by rw [h2]⟩
  · refine .inr ⟨{ pos := r.pos, acc := r.acc >>> n, bitcnt := r.bitcnt - BitVec.ofNat 6 n }, ?_, ?_⟩
    · rw [h1]
      simp only [Except.ok.injEq, Prod.mk.injEq, and_true]
      have e : r.bitcnt.toNat = n + (r.bitcnt.toNat - n) := by omega
      rw [hb.acc_eq, e, streamBits_add, hbp, Nat.add_mul_mod_self_left, Nat.mod_eq_of_lt (streamBits_lt _ _ _)]
    · have hle := hb.bitcnt_le
      have hen := hb.enough
      have hcnt : (r.bitcnt - BitVec.ofNat 6 n).toNat = r.bitcnt.toNat - n := by
        rw [BitVec.toNat_sub_of_le]
        · simp; omega
        · rw [BitVec.le_def]; simp; omega
      have hnew : 8 * r.pos.toNat - (r.bitcnt.toNat - n) = br.bp + n := by
        rw [← hbp, BitReader.bp]; omega
      refine ⟨Buffered.readerInv ⟨?_, ?_, hb.pos_le, ?_⟩ ?_, ?_, ?_⟩
      · simp only [hcnt]; omega
      · simp only [hcnt]; omega
      · simp only [BitReader.bp, hcnt, hnew]
        have e : r.bitcnt.toNat = n + (r.bitcnt.toNat - n) := by omega
        rw [hb.acc_eq, hbp, e, streamBits_add, Nat.shiftRight_eq_div_pow,
          Nat.add_mul_div_left _ _ (by positivity), Nat.div_eq_of_lt (streamBits_lt _ _ _), Nat.zero_add]
        rw [show n + (r.bitcnt.toNat - n) - n = r.bitcnt.toNat - n by omega, BitReader.bp]
      · simp only [hcnt]; omega
      · simp only [BitReader.bp, hcnt, hnew]
      · have := hb.pos_le
        rw [← hbp, BitReader.bp]; omega

/-- ALIGN() keeps the reader's invariant and moves BP to the next byte boundary (R134, R136). -/
theorem alignReader_spec {inm : Memory} {inLen : Nat} {br : BitReader} (h : ReaderInv inm inLen br) :
    ReaderInv inm inLen (alignReader br) ∧ (alignReader br).bp = br.bp + padding br.bp := by
  have hlt := h.bitcnt_lt
  have hen := h.buffered.enough
  refine ⟨⟨by simp [alignReader], h.pos_le, by simp [alignReader], ?_⟩, ?_⟩
  · have := (Memory.read inm (br.pos.toNat - 1)).isLt
    simp [alignReader]
    omega
  · simp only [BitReader.bp, alignReader, padding]
    simp
    omega

end Sys2Proof.Machine
end

