-- ==== Sys2Proof/Laws/Decode.lean ====
section
/-! SUPPORT. The decoder over two sources at once, and over bit strings: what it reads, and that it moves forward (spec R25, R131, R136). -/

namespace Sys2Proof

/-! ## Bits -/

@[simp] theorem bitsLsb_length (n v : Nat) : (bitsLsb n v).length = n := by
  induction n generalizing v with
  | zero => rfl
  | succ n ih => simp [bitsLsb, ih]

@[simp] theorem bitsMsb_length (n v : Nat) : (bitsMsb n v).length = n := by simp [bitsMsb]

theorem natOfBits_lt (bs : List Bool) : natOfBits bs < 2 ^ bs.length := by
  induction bs with
  | nil => simp [natOfBits]
  | cons b bs ih =>
    have := Bool.toNat_lt b
    simp only [natOfBits, List.length_cons, Nat.pow_succ]
    omega

theorem bitsLsb_natOfBits (bs : List Bool) : bitsLsb bs.length (natOfBits bs) = bs := by
  induction bs with
  | nil => rfl
  | cons b bs ih =>
    simp only [natOfBits, List.length_cons, bitsLsb]
    have h1 : (b.toNat + 2 * natOfBits bs) / 2 = natOfBits bs := by have := Bool.toNat_lt b; omega
    have h2 : ((b.toNat + 2 * natOfBits bs) % 2 == 1) = b := by cases b <;> simp
    rw [h1, h2, ih]

theorem natOfBits_bitsLsb (n v : Nat) : natOfBits (bitsLsb n v) = v % 2 ^ n := by
  induction n generalizing v with
  | zero => simp [bitsLsb, natOfBits, Nat.mod_one]
  | succ n ih =>
    simp only [bitsLsb, natOfBits, ih]
    rw [Nat.pow_succ, Nat.mul_comm (2 ^ n) 2, Nat.mod_mul]
    rcases Nat.mod_two_eq_zero_or_one v with h | h <;> simp [h]

/-- The first `n` bits of a source, in one equation. -/
theorem takeBits_eq (n : Nat) (bs : List Bool) :
    takeBits n bs = if n ≤ bs.length then some (natOfBits (bs.take n), bs.drop n) else none := by
  induction n generalizing bs with
  | zero => simp [takeBits, natOfBits]
  | succ n ih =>
    cases bs with
    | nil => simp [takeBits]
    | cons b bs =>
      simp only [takeBits, ih]
      by_cases h : n ≤ bs.length <;> simp [h, natOfBits]

theorem takeBits_append {n v : Nat} (h : v < 2 ^ n) (bs : List Bool) : takeBits n (bitsLsb n v ++ bs) = some (v, bs) := by
  rw [takeBits_eq, if_pos (by simp)]
  have : (bitsLsb n v ++ bs).take n = bitsLsb n v := by
    conv_lhs => arg 1; rw [← bitsLsb_length n v]
    exact List.take_left
  have h2 : (bitsLsb n v ++ bs).drop n = bs := by
    conv_lhs => arg 1; rw [← bitsLsb_length n v]
    exact List.drop_left
  rw [this, h2, natOfBits_bitsLsb, Nat.mod_eq_of_lt h]

/-- GETBITS on a bit string. -/
theorem bitString_get {n : Nat} (hn : n ≤ 24) (x : BitString) :
    bitStringSource.get n x =
      if n ≤ x.bits.length then .ok (natOfBits (x.bits.take n), { pos := x.pos + n, bits := x.bits.drop n })
      else .error .exhausted := by
  simp only [bitStringSource, takeBits_eq]
  rw [if_neg (by omega)]
  by_cases h : n ≤ x.bits.length <;> simp [h]

/-- GETBITS on a bit string that begins with an encoded number. -/
theorem bitString_get_append {n v p : Nat} (hn : n ≤ 24) (h : v < 2 ^ n) (bs : List Bool) :
    bitStringSource.get n { pos := p, bits := bitsLsb n v ++ bs } = .ok (v, { pos := p + n, bits := bs }) := by
  simp only [bitStringSource]
  rw [if_neg (by omega), takeBits_append h]

theorem bitString_align (x : BitString) :
    bitStringSource.align x = { pos := x.pos + padding x.pos, bits := x.bits.drop (padding x.pos) } := rfl

/-! ## Two sources at once -/

/-- Two results agree: the same error, or values that `Q` relates. -/
def Agree {ε α β : Type} (Q : α → β → Prop) (p : Except ε α) (q : Except ε β) : Prop :=
  (∃ e, p = .error e ∧ q = .error e) ∨ ∃ a b, p = .ok a ∧ q = .ok b ∧ Q a b

theorem Agree.ok {ε α β : Type} {Q : α → β → Prop} {a : α} {b : β} (h : Q a b) :
    Agree (ε := ε) Q (.ok a) (.ok b) := .inr ⟨a, b, rfl, rfl, h⟩

theorem Agree.error {ε α β : Type} {Q : α → β → Prop} (e : ε) : Agree Q (.error e : Except ε α) (.error e : Except ε β) :=
  .inl ⟨e, rfl, rfl⟩

/-- Two sources that answer alike as long as `R` relates them, for every field the core reads (R133). -/
structure SourceRel {σ τ : Type} (S : BitSource σ) (S' : BitSource τ) (R : σ → τ → Prop) : Prop where
  get : ∀ n x y, n ≤ 24 → R x y → Agree (fun p q => p.1 = q.1 ∧ R p.2 q.2) (S.get n x) (S'.get n y)
  align : ∀ x y, R x y → R (S.align x) (S'.align y)

section
variable {σ τ : Type} {S : BitSource σ} {S' : BitSource τ} {R : σ → τ → Prop}

theorem SourceRel.hdecodeLoop (H : SourceRel S S' R) (T : HuffTable) (fuel : Nat) :
    ∀ (hlen code first index : Nat) (x : σ) (y : τ), R x y →
      Agree (fun p q => p.1 = q.1 ∧ R p.2 q.2) (hdecodeLoop S T fuel hlen code first index x)
        (hdecodeLoop S' T fuel hlen code first index y) := by
  induction fuel with
  | zero => intro _ _ _ _ x y _; exact Agree.error _
  | succ fuel ih =>
    intro hlen code first index x y hxy
    simp only [Sys2Proof.hdecodeLoop]
    rcases H.get 1 x y (by omega) hxy with ⟨e, h1, h2⟩ | ⟨⟨b, x'⟩, ⟨b', y'⟩, h1, h2, hb, hR⟩
    · rw [h1, h2]; exact Agree.error _
    · simp only at hb hR
      subst hb
      rw [h1, h2]
      simp only
      split
      · split
        · exact Agree.ok ⟨rfl, hR⟩
        · exact Agree.error _
      · exact ih _ _ _ _ _ _ hR

theorem SourceRel.hdecode (H : SourceRel S S' R) (T : HuffTable) {x : σ} {y : τ} (h : R x y) :
    Agree (fun p q => p.1 = q.1 ∧ R p.2 q.2) (hdecode S T x) (hdecode S' T y) := by
  simp only [Sys2Proof.hdecode]
  split
  · exact H.hdecodeLoop T 15 1 0 0 0 x y h
  · exact Agree.error _

theorem SourceRel.getLengths (H : SourceRel S S' R) (k : Nat) : ∀ (x : σ) (y : τ), R x y →
    Agree (fun p q => p.1 = q.1 ∧ R p.2 q.2) (getLengths S k x) (getLengths S' k y) := by
  induction k with
  | zero => intro x y h; exact Agree.ok ⟨rfl, h⟩
  | succ k ih =>
    intro x y h
    simp only [Sys2Proof.getLengths]
    rcases H.get 3 x y (by omega) h with ⟨e, h1, h2⟩ | ⟨⟨v, x'⟩, ⟨v', y'⟩, h1, h2, hv, hR⟩
    · rw [h1, h2]; exact Agree.error _
    · simp only at hv hR
      subst hv
      rw [h1, h2]
      simp only
      rcases ih x' y' hR with ⟨e, h3, h4⟩ | ⟨⟨vs, x''⟩, ⟨vs', y''⟩, h3, h4, hvs, hR'⟩
      · rw [h3, h4]; exact Agree.error _
      · simp only at hvs hR'
        subst hvs
        rw [h3, h4]
        exact Agree.ok ⟨rfl, hR'⟩

/-- What two related decodings agree on. -/
abbrev FetchedRel (R : σ → τ → Prop) (f : Fetched σ) (g : Fetched τ) : Prop :=
  f.instr = g.instr ∧ f.regs = g.regs ∧ R f.rest g.rest

theorem SourceRel.decodeCoded (H : SourceRel S S' R) (T : HuffTable) {extra : Nat → Nat} (he : ∀ s, extra s ≤ 24)
    (mk : Nat → Nat → Option Instr) {x : σ} {y : τ} (h : R x y) :
    Agree (FetchedRel R) (decodeCoded S T extra mk x) (decodeCoded S' T extra mk y) := by
  simp only [Sys2Proof.decodeCoded]
  rcases H.hdecode T h with ⟨e, h1, h2⟩ | ⟨⟨r, x'⟩, ⟨r', y'⟩, h1, h2, hr, hR⟩
  · rw [h1, h2]; exact Agree.error _
  · simp only at hr hR
    subst hr
    rw [h1, h2]
    simp only
    rcases H.get (extra r.sym.toNat) x' y' (he _) hR with ⟨e, h3, h4⟩ | ⟨⟨v, x''⟩, ⟨v', y''⟩, h3, h4, hv, hR'⟩
    · rw [h3, h4]; exact Agree.error _
    · simp only at hv hR'
      subst hv
      rw [h3, h4]
      simp only
      cases mk r.sym.toNat v with
      | none => exact Agree.error _
      | some i => exact Agree.ok ⟨rfl, rfl, hR'⟩

theorem clExtra_le (s : Nat) : clExtra s ≤ 7 := by
  unfold clExtra; split <;> omega

theorem clExtraRead_le (p : Bool) (s : Nat) : clExtraRead p s ≤ 7 := by
  unfold clExtraRead
  have := clExtra_le s
  split <;> omega

theorem getD_le_of_all {l : List Nat} {b : Nat} (h : ∀ x ∈ l, x ≤ b) (k : Nat) : l.getD k 0 ≤ b := by
  rw [List.getD_eq_getElem?_getD]
  cases hk : l[k]? with
  | none => simp
  | some v => simpa using h v (List.mem_of_getElem? hk)

theorem llExtra_le (s : Nat) : llExtra s ≤ 5 := by
  unfold llExtra
  split
  · exact getD_le_of_all (by decide) _
  · omega

theorem dExtra_le (s : Nat) : dExtra s ≤ 13 := getD_le_of_all (by decide) _

/-- The decoder over two related sources gives the same element, the same registers and related rests, or the same error. -/
theorem SourceRel.decode (H : SourceRel S S' R) (c : Ctx) {x : σ} {y : τ} (h : R x y) :
    Agree (FetchedRel R) (decode S c x) (decode S' c y) := by
  have get := fun n x y hn h => H.get n x y hn h
  cases c with
  | cl T p => exact H.decodeCoded T (fun s => by have := clExtraRead_le p s; omega) _ h
  | ll T => exact H.decodeCoded T (fun s => by have := llExtra_le s; omega) _ h
  | d T => exact H.decodeCoded T (fun s => by have := dExtra_le s; omega) _ h
  | ft =>
    simp only [Sys2Proof.decode]
    rcases get 8 x y (by omega) h with ⟨e, h1, h2⟩ | ⟨⟨v, x⟩, ⟨v', y⟩, h1, h2, hv, hR⟩
    · rw [h1, h2]; exact Agree.error _
    · simp only at hv hR
      subst hv
      rw [h1, h2]
      exact Agree.ok ⟨rfl, rfl, hR⟩
  | zh =>
    simp only [Sys2Proof.decode]
    rcases get 8 x y (by omega) h with ⟨e, h1, h2⟩ | ⟨⟨v, x⟩, ⟨v', y⟩, h1, h2, hv, hR⟩
    · rw [h1, h2]; exact Agree.error _
    · simp only at hv hR
      subst hv
      rw [h1, h2]
      simp only [bind, Except.bind]
      rcases get 8 x y (by omega) hR with ⟨e, h1, h2⟩ | ⟨⟨v, x⟩, ⟨v', y⟩, h1, h2, hv, hR⟩
      · rw [h1, h2]; exact Agree.error _
      · simp only at hv hR
        subst hv
        rw [h1, h2]
        exact Agree.ok ⟨rfl, rfl, hR⟩
  | bh =>
    simp only [Sys2Proof.decode]
    rcases get 1 x y (by omega) h with ⟨e, h1, h2⟩ | ⟨⟨v, x⟩, ⟨v', y⟩, h1, h2, hv, hR⟩
    · rw [h1, h2]; exact Agree.error _
    · simp only at hv hR
      subst hv
      rw [h1, h2]
      simp only [bind, Except.bind]
      rcases get 2 x y (by omega) hR with ⟨e, h1, h2⟩ | ⟨⟨v, x⟩, ⟨v', y⟩, h1, h2, hv, hR⟩
      · rw [h1, h2]; exact Agree.error _
      · simp only at hv hR
        subst hv
        rw [h1, h2]
        exact Agree.ok ⟨rfl, rfl, hR⟩
  | st =>
    simp only [Sys2Proof.decode]
    rcases get 16 _ _ (by omega) (H.align x y h) with ⟨e, h1, h2⟩ | ⟨⟨v, x⟩, ⟨v', y⟩, h1, h2, hv, hR⟩
    · rw [h1, h2]; exact Agree.error _
    · simp only at hv hR
      subst hv
      rw [h1, h2]
      simp only [bind, Except.bind]
      rcases get 16 x y (by omega) hR with ⟨e, h1, h2⟩ | ⟨⟨v, x⟩, ⟨v', y⟩, h1, h2, hv, hR⟩
      · rw [h1, h2]; exact Agree.error _
      · simp only at hv hR
        subst hv
        rw [h1, h2]
        exact Agree.ok ⟨rfl, rfl, hR⟩
  | dh =>
    simp only [Sys2Proof.decode]
    rcases get 5 x y (by omega) h with ⟨e, h1, h2⟩ | ⟨⟨v, x⟩, ⟨v', y⟩, h1, h2, hv, hR⟩
    · rw [h1, h2]; exact Agree.error _
    · simp only at hv hR
      subst hv
      rw [h1, h2]
      simp only [bind, Except.bind]
      rcases get 5 x y (by omega) hR with ⟨e, h1, h2⟩ | ⟨⟨v, x⟩, ⟨v', y⟩, h1, h2, hv, hR⟩
      · rw [h1, h2]; exact Agree.error _
      · simp only at hv hR
        subst hv
        rw [h1, h2]
        simp only
        rcases get 4 x y (by omega) hR with ⟨e, h1, h2⟩ | ⟨⟨v, x⟩, ⟨v', y⟩, h1, h2, hv, hR⟩
        · rw [h1, h2]; exact Agree.error _
        · simp only at hv hR
          subst hv
          rw [h1, h2]
          simp only
          rcases H.getLengths ((BitVec.ofNat 4 v).toNat + 4) x y hR with ⟨e, h1, h2⟩ | ⟨⟨v, x⟩, ⟨v', y⟩, h1, h2, hv, hR⟩
          · rw [h1, h2]; exact Agree.error _
          · simp only at hv hR
            subst hv
            rw [h1, h2]
            exact Agree.ok ⟨rfl, rfl, hR⟩
  | tr =>
    simp only [Sys2Proof.decode]
    rcases get 8 _ _ (by omega) (H.align x y h) with ⟨e, h1, h2⟩ | ⟨⟨v, x⟩, ⟨v', y⟩, h1, h2, hv, hR⟩
    · rw [h1, h2]; exact Agree.error _
    · simp only at hv hR
      subst hv
      rw [h1, h2]
      simp only [bind, Except.bind]
      rcases get 8 x y (by omega) hR with ⟨e, h1, h2⟩ | ⟨⟨v, x⟩, ⟨v', y⟩, h1, h2, hv, hR⟩
      · rw [h1, h2]; exact Agree.error _
      · simp only at hv hR
        subst hv
        rw [h1, h2]
        simp only
        rcases get 8 x y (by omega) hR with ⟨e, h1, h2⟩ | ⟨⟨v, x⟩, ⟨v', y⟩, h1, h2, hv, hR⟩
        · rw [h1, h2]; exact Agree.error _
        · simp only at hv hR
          subst hv
          rw [h1, h2]
          simp only
          rcases get 8 x y (by omega) hR with ⟨e, h1, h2⟩ | ⟨⟨v, x⟩, ⟨v', y⟩, h1, h2, hv, hR⟩
          · rw [h1, h2]; exact Agree.error _
          · simp only at hv hR
            subst hv
            rw [h1, h2]
            exact Agree.ok ⟨rfl, rfl, hR⟩

end

end Sys2Proof
end

