-- ==== Sys2Proof/Laws/Progress.lean ====
section
/-! SUPPORT. What decoding an element consumes: on a bit string the rest is the string after some bits, at least one of them the
element's (spec R25, R157(2), R196); and the machine's bit reader is such a string (R136). -/

namespace Sys2Proof

/-- `y` is `x` after `k` bits. -/
structure After (x y : BitString) (k : Nat) : Prop where
  pos : y.pos = x.pos + k
  bits : y.bits = x.bits.drop k
  enough : k ≤ x.bits.length

theorem After.zero (x : BitString) : After x x 0 := ⟨by simp, by simp, by omega⟩

theorem After.trans {x y z : BitString} {a b : Nat} (h : After x y a) (h' : After y z b) : After x z (a + b) := by
  refine ⟨by rw [h'.pos, h.pos]; omega, by rw [h'.bits, h.bits, List.drop_drop], ?_⟩
  have h1 := h'.enough
  have h2 := h.enough
  rw [h.bits, List.length_drop] at h1
  omega

theorem bitString_get_ok {n : Nat} {x y : BitString} {v : Nat} (h : bitStringSource.get n x = .ok (v, y)) :
    After x y n ∧ v = natOfBits (x.bits.take n) ∧ n ≤ 24 := by
  by_cases hn : n ≤ 24
  · rw [bitString_get hn] at h
    by_cases hl : n ≤ x.bits.length
    · rw [if_pos hl] at h
      simp only [Except.ok.injEq, Prod.mk.injEq] at h
      obtain ⟨h1, h2⟩ := h
      subst h2
      exact ⟨⟨rfl, rfl, hl⟩, h1.symm, hn⟩
    · rw [if_neg hl] at h; cases h
  · simp only [bitStringSource] at h
    rw [if_pos (by omega)] at h
    cases h

theorem bitString_get_lt {n : Nat} {x y : BitString} {v : Nat} (h : bitStringSource.get n x = .ok (v, y)) : v < 2 ^ n := by
  obtain ⟨h1, h2, -⟩ := bitString_get_ok h
  rw [h2]
  have := natOfBits_lt (x.bits.take n)
  rwa [List.length_take, Nat.min_eq_left h1.enough] at this

/-- HDECODE consumes between 1 and 15 bits, and leaves that number in HLEN (R156). -/
theorem hdecodeLoop_after {T : HuffTable} (fuel : Nat) : ∀ {hlen code first index : Nat} {x y : BitString} {r : HuffRegs},
    hlen + fuel ≤ 16 → hdecodeLoop bitStringSource T fuel hlen code first index x = .ok (r, y) →
    ∃ k, After x y k ∧ 1 ≤ k ∧ k ≤ fuel ∧ r.hlen.toNat + 1 = hlen + k := by
  induction fuel with
  | zero => intro _ _ _ _ _ _ _ _ h; cases h
  | succ fuel ih =>
    intro hlen code first index x y r hf h
    simp only [hdecodeLoop] at h
    cases hg : bitStringSource.get 1 x with
    | error e => rw [hg] at h; cases h
    | ok p =>
      obtain ⟨b, x'⟩ := p
      rw [hg] at h
      simp only at h
      obtain ⟨ha, -, -⟩ := bitString_get_ok hg
      split at h
      · split at h
        · simp only [Except.ok.injEq, Prod.mk.injEq] at h
          obtain ⟨h1, h2⟩ := h
          subst h1 h2
          refine ⟨1, ha, by omega, by omega, ?_⟩
          simp only [BitVec.toNat_ofNat]
          omega
        · cases h
      · obtain ⟨k, hk, h1, h2, h3⟩ := ih (by omega) h
        exact ⟨1 + k, ha.trans hk, by omega, by omega, by omega⟩

theorem hdecode_after {T : HuffTable} {x y : BitString} {r : HuffRegs} (h : hdecode bitStringSource T x = .ok (r, y)) :
    After x y r.hlen.toNat ∧ 1 ≤ r.hlen.toNat := by
  simp only [hdecode] at h
  split at h
  · obtain ⟨k, hk, h1, -, h3⟩ := hdecodeLoop_after 15 (by omega) h
    have : k = r.hlen.toNat := by omega
    subst this
    exact ⟨hk, h1⟩
  · cases h

theorem getLengths_after (k : Nat) : ∀ {x y : BitString} {ls : List (BitVec 3)},
    getLengths bitStringSource k x = .ok (ls, y) → After x y (3 * k) ∧ ls.length = k := by
  induction k with
  | zero =>
    intro x y ls h
    simp only [getLengths, Except.ok.injEq, Prod.mk.injEq] at h
    obtain ⟨h1, h2⟩ := h
    subst h1 h2
    exact ⟨After.zero _, rfl⟩
  | succ k ih =>
    intro x y ls h
    simp only [getLengths] at h
    cases hg : bitStringSource.get 3 x with
    | error e => rw [hg] at h; cases h
    | ok p =>
      obtain ⟨v, x'⟩ := p
      rw [hg] at h
      simp only at h
      obtain ⟨ha, -, -⟩ := bitString_get_ok hg
      cases hl : getLengths bitStringSource k x' with
      | error e => rw [hl] at h; cases h
      | ok q =>
        obtain ⟨vs, x''⟩ := q
        rw [hl] at h
        simp only [Except.ok.injEq, Prod.mk.injEq] at h
        obtain ⟨h1, h2⟩ := h
        subst h1 h2
        obtain ⟨hb, hlen⟩ := ih hl
        refine ⟨?_, by simp [hlen]⟩
        have := ha.trans hb
        rwa [show 3 + 3 * k = 3 * (k + 1) by omega] at this

/-- A Huffman-coded element: what HDECODE left, the raw field, the element, and the bits of both (R97, R98, R100). -/
theorem decodeCoded_ok {T : HuffTable} {extra : Nat → Nat} {mk : Nat → Nat → Option Instr} {x : BitString}
    {f : Fetched BitString} (h : decodeCoded bitStringSource T extra mk x = .ok f) :
    ∃ r y e, hdecode bitStringSource T x = .ok (r, y) ∧ bitStringSource.get (extra r.sym.toNat) y = .ok (e, f.rest) ∧
      mk r.sym.toNat e = some f.instr ∧ f.regs = some r := by
  simp only [decodeCoded] at h
  cases hd : hdecode bitStringSource T x with
  | error e => rw [hd] at h; cases h
  | ok p =>
    obtain ⟨r, y⟩ := p
    rw [hd] at h
    simp only at h
    cases hg : bitStringSource.get (extra r.sym.toNat) y with
    | error e => rw [hg] at h; cases h
    | ok q =>
      obtain ⟨e, z⟩ := q
      rw [hg] at h
      simp only at h
      cases hm : mk r.sym.toNat e with
      | none => rw [hm] at h; cases h
      | some i =>
        rw [hm] at h
        simp only [Except.ok.injEq] at h
        subst h
        exact ⟨r, y, e, rfl, hg, hm, rfl⟩

theorem decodeCoded_after {T : HuffTable} {extra : Nat → Nat} {mk : Nat → Nat → Option Instr} {x : BitString}
    {f : Fetched BitString} (h : decodeCoded bitStringSource T extra mk x = .ok f) : ∃ k, After x f.rest k ∧ 1 ≤ k := by
  obtain ⟨r, y, e, hd, hg, -, -⟩ := decodeCoded_ok h
  obtain ⟨h1, h2⟩ := hdecode_after hd
  obtain ⟨h3, -, -⟩ := bitString_get_ok hg
  exact ⟨_, h1.trans h3, by omega⟩

theorem Except.bind_ok {ε α β : Type} {p : Except ε α} {k : α → Except ε β} {b : β} (h : (p >>= k) = .ok b) :
    ∃ a, p = .ok a ∧ k a = .ok b := by
  cases p with
  | error e => cases h
  | ok a => exact ⟨a, rfl, h⟩

theorem align_after (x : BitString) (h : padding x.pos ≤ x.bits.length) :
    After x (bitStringSource.align x) (padding x.pos) := ⟨rfl, rfl, h⟩

/-- An element consumes at least one bit, and the rest of the string is what follows it. -/
theorem decode_after {c : Ctx} {x : BitString} {f : Fetched BitString} (h : decode bitStringSource c x = .ok f) :
    ∃ k, After x f.rest k ∧ 1 ≤ k := by
  have aligned : ∀ {v : Nat} {n : Nat} {y : BitString}, 1 ≤ n →
      bitStringSource.get n (bitStringSource.align x) = .ok (v, y) → After x y (padding x.pos + n) := by
    intro v n y hn hg
    obtain ⟨ha, -, -⟩ := bitString_get_ok hg
    have hen := ha.enough
    rw [bitString_align] at hen
    simp only [List.length_drop] at hen
    exact (align_after x (by omega)).trans ha
  cases c with
  | cl T p => exact decodeCoded_after h
  | ll T => exact decodeCoded_after h
  | d T => exact decodeCoded_after h
  | ft =>
    obtain ⟨⟨v, y⟩, hg, h⟩ := Except.bind_ok h
    simp only [Except.ok.injEq] at h
    subst h
    exact ⟨8, (bitString_get_ok hg).1, by omega⟩
  | zh =>
    obtain ⟨⟨v, y⟩, hg, h⟩ := Except.bind_ok h
    obtain ⟨⟨w, z⟩, hg', h⟩ := Except.bind_ok h
    simp only [Except.ok.injEq] at h
    subst h
    exact ⟨_, (bitString_get_ok hg).1.trans (bitString_get_ok hg').1, by omega⟩
  | bh =>
    obtain ⟨⟨v, y⟩, hg, h⟩ := Except.bind_ok h
    obtain ⟨⟨w, z⟩, hg', h⟩ := Except.bind_ok h
    simp only [Except.ok.injEq] at h
    subst h
    exact ⟨_, (bitString_get_ok hg).1.trans (bitString_get_ok hg').1, by omega⟩
  | st =>
    obtain ⟨⟨v, y⟩, hg, h⟩ := Except.bind_ok h
    obtain ⟨⟨w, z⟩, hg', h⟩ := Except.bind_ok h
    simp only [Except.ok.injEq] at h
    subst h
    exact ⟨_, (aligned (by omega) hg).trans (bitString_get_ok hg').1, by omega⟩
  | dh =>
    obtain ⟨⟨v, y⟩, hg, h⟩ := Except.bind_ok h
    obtain ⟨⟨w, z⟩, hg', h⟩ := Except.bind_ok h
    obtain ⟨⟨u, z'⟩, hg'', h⟩ := Except.bind_ok h
    obtain ⟨⟨ls, z''⟩, hl, h⟩ := Except.bind_ok h
    simp only [Except.ok.injEq] at h
    subst h
    exact ⟨_, (((bitString_get_ok hg).1.trans (bitString_get_ok hg').1).trans (bitString_get_ok hg'').1).trans
      (getLengths_after _ hl).1, by omega⟩
  | tr =>
    obtain ⟨⟨v, y⟩, hg, h⟩ := Except.bind_ok h
    obtain ⟨⟨w, z⟩, hg', h⟩ := Except.bind_ok h
    obtain ⟨⟨u, z'⟩, hg'', h⟩ := Except.bind_ok h
    obtain ⟨⟨t, z''⟩, hg3, h⟩ := Except.bind_ok h
    simp only [Except.ok.injEq] at h
    subst h
    exact ⟨_, (((aligned (by omega) hg).trans (bitString_get_ok hg').1).trans (bitString_get_ok hg'').1).trans
      (bitString_get_ok hg3).1, by omega⟩

namespace Machine

@[simp] theorem streamList_length (inm : Memory) (k e : Nat) : (streamList inm k e).length = e - k := by simp [streamList]

theorem streamList_drop (inm : Memory) (k e n : Nat) : (streamList inm k e).drop n = streamList inm (k + n) e := by
  simp only [streamList, ← List.map_drop]
  rw [List.drop_range']
  congr 2
  · omega
  · omega

theorem natOfBits_streamList (inm : Memory) (n : Nat) : ∀ (k e : Nat), k + n ≤ e →
    natOfBits ((streamList inm k e).take n) = streamBits inm k n := by
  induction n with
  | zero => intro k e h; simp [natOfBits, streamBits]
  | succ n ih =>
    intro k e h
    have h2 : streamList inm k e = streamBit inm k :: streamList inm (k + 1) e := by
      simp only [streamList]
      rw [show e - k = (e - (k + 1)) + 1 by omega, List.range'_succ]
      simp
    rw [h2, List.take_succ_cons, natOfBits, streamBits, ih (k + 1) e (by omega)]

/-- The bit reader of a running job stands for the bit string from BP to the end of IN (R136). -/
structure ReaderRel (inm : Memory) (inLen : Nat) (br : BitReader) (x : BitString) : Prop where
  inv : ReaderInv inm inLen br
  pos : x.pos = br.bp
  bits : x.bits = streamList inm br.bp (8 * inLen)

theorem ReaderInv.bp_le {inm : Memory} {inLen : Nat} {br : BitReader} (h : ReaderInv inm inLen br) : br.bp ≤ 8 * inLen := by
  have := h.pos_le
  rw [BitReader.bp]
  omega

theorem padding_le {inLen p : Nat} (h : p ≤ 8 * inLen) : p + padding p ≤ 8 * inLen := by
  rw [padding]
  omega

/-- The machine's bit reader answers every field as that bit string does (R136). -/
theorem readerSource_rel {inm : Memory} {inLen : Nat} {par : Params} (hl : inLen < 2 ^ 32) (hw : par.Wf) :
    SourceRel (readerSource inm inLen par) bitStringSource (ReaderRel inm inLen) := by
  constructor
  · intro n br x hn h
    rw [bitString_get hn, h.bits, h.pos, streamList_length]
    have hle := h.inv.bp_le
    rcases getbits_cases hl hw hn h.inv with ⟨h1, h2⟩ | ⟨r, h1, h2, h3, h4⟩
    · rw [if_neg (by omega)]
      exact .inl ⟨_, h2, rfl⟩
    · rw [if_pos (by omega)]
      refine .inr ⟨_, _, h1, rfl, ?_, h2, ?_, ?_⟩
      · rw [natOfBits_streamList _ _ _ _ (by omega)]
      · simp [h3]
      · simp only [h3, streamList_drop]
  · intro br x h
    obtain ⟨h1, h2⟩ := alignReader_spec h.inv
    refine ⟨h1, ?_, ?_⟩
    · simp only [readerSource, bitString_align, h2, h.pos]
    · simp only [readerSource, bitString_align, h2, h.pos, h.bits, streamList_drop]

/-- The bit string a reader stands for. -/
def readerString (inm : Memory) (inLen : Nat) (br : BitReader) : BitString :=
  { pos := br.bp, bits := streamList inm br.bp (8 * inLen) }

theorem ReaderInv.rel {inm : Memory} {inLen : Nat} {br : BitReader} (h : ReaderInv inm inLen br) :
    ReaderRel inm inLen br (readerString inm inLen br) := ⟨h, rfl, rfl⟩

/-- Fetching an element through the bit reader: it fails as the bit string does, or gives the same element and registers, the
reader keeps its invariant, and BP has grown and is still within IN. -/
theorem decode_reader {inm : Memory} {inLen : Nat} {par : Params} (hl : inLen < 2 ^ 32) (hw : par.Wf) {br : BitReader} (h : ReaderInv inm inLen br)
    (c : Ctx) :
    (∃ e, decode (readerSource inm inLen par) c br = .error e ∧
      decode bitStringSource c (readerString inm inLen br) = .error e) ∨
    ∃ f g, decode (readerSource inm inLen par) c br = .ok f ∧ decode bitStringSource c (readerString inm inLen br) = .ok g ∧
      f.instr = g.instr ∧ f.regs = g.regs ∧ ReaderInv inm inLen f.rest ∧ br.bp < f.rest.bp ∧ f.rest.bp ≤ 8 * inLen := by
  rcases (readerSource_rel hl hw).decode c h.rel with ⟨e, h1, h2⟩ | ⟨f, g, h1, h2, h3, h4, h5⟩
  · exact .inl ⟨e, h1, h2⟩
  · refine .inr ⟨f, g, h1, h2, h3, h4, h5.inv, ?_, h5.inv.bp_le⟩
    obtain ⟨k, hk, h6⟩ := decode_after h2
    rw [← h5.pos, hk.pos]
    simp only [readerString]
    omega

end Machine

end Sys2Proof
end

