-- ==== Sys2Proof/Laws/Huffman.lean ====
section
/-! SUPPORT. Canonical codes: what BUILD accepts (spec R104, R151, R152) and what HDECODE then does (R156, R157). -/

namespace Sys2Proof

open Machine

/-! ## Codes written first bit first -/

theorem bitsLsb_succ_last (m v : Nat) : bitsLsb (m + 1) v = bitsLsb m v ++ [v / 2 ^ m % 2 == 1] := by
  induction m generalizing v with
  | zero => simp [bitsLsb]
  | succ m ih =>
    rw [bitsLsb, ih (v / 2), bitsLsb, Nat.div_div_eq_div_mul, Nat.pow_succ, Nat.mul_comm (2 ^ m) 2]
    simp

theorem bitsMsb_succ (m v : Nat) : bitsMsb (m + 1) v = (v / 2 ^ m % 2 == 1) :: bitsMsb m v := by
  simp [bitsMsb, bitsLsb_succ_last]

theorem natOfBits_bit (b : Bool) : natOfBits [b] = b.toNat := by simp [natOfBits]

theorem bit_toNat (n : Nat) : (n % 2 == 1).toNat = n % 2 := by
  rcases Nat.mod_two_eq_zero_or_one n with h | h <;> simp [h]

theorem bitsLsb_mod (n v : Nat) : bitsLsb n (v % 2 ^ n) = bitsLsb n v := by
  have h := bitsLsb_natOfBits (bitsLsb n v)
  rw [bitsLsb_length, natOfBits_bitsLsb] at h
  exact h

theorem bitsMsb_inj {n a b : Nat} (ha : a < 2 ^ n) (hb : b < 2 ^ n) (h : bitsMsb n a = bitsMsb n b) : a = b := by
  have h' := congrArg natOfBits (List.reverse_injective h)
  rwa [natOfBits_bitsLsb, natOfBits_bitsLsb, Nat.mod_eq_of_lt ha, Nat.mod_eq_of_lt hb] at h'

/-! ## Complete codes (R104) -/

theorem codeFirst_succ (T : HuffTable) {L : Nat} (h : 1 ≤ L) : codeFirst T (L + 1) = 2 * (codeFirst T L + T.countAt L) := by
  cases L with
  | zero => omega
  | succ L => rfl

theorem indexFirst_succ (T : HuffTable) {L : Nat} (h : 1 ≤ L) : indexFirst T (L + 1) = indexFirst T L + T.countAt L := by
  cases L with
  | zero => omega
  | succ L => rfl

/-- Codes of a longer length begin after every code of a shorter one. -/
theorem codeFirst_ge (T : HuffTable) {l : Nat} (hl : 1 ≤ l) (d : Nat) :
    2 ^ (d + 1) * (codeFirst T l + T.countAt l) ≤ codeFirst T (l + d + 1) := by
  induction d with
  | zero => rw [codeFirst_succ T (by omega : 1 ≤ l + 0)]; simp
  | succ d ih =>
    rw [show l + (d + 1) + 1 = (l + d + 1) + 1 by omega, codeFirst_succ T (by omega), Nat.pow_succ]
    calc 2 ^ (d + 1) * 2 * (codeFirst T l + T.countAt l) = 2 * (2 ^ (d + 1) * (codeFirst T l + T.countAt l)) := by ring
      _ ≤ 2 * codeFirst T (l + d + 1) := by omega
      _ ≤ _ := by omega

theorem indexFirst_mono (T : HuffTable) {a b : Nat} (h : a ≤ b) : indexFirst T a ≤ indexFirst T b := by
  induction b with
  | zero => rw [Nat.le_zero.1 h]
  | succ b ih =>
    rcases Nat.eq_or_lt_of_le h with h | h
    · rw [h]
    · have := ih (by omega)
      rcases Nat.eq_zero_or_pos b with hb | hb
      · subst hb
        have : a = 0 := by omega
        subst this
        simp [indexFirst]
      · rw [indexFirst_succ T hb]; omega

section
variable {T : HuffTable} (hc : codeFirst T 16 = 2 ^ 16)
include hc

/-- The codes of every length fit in that length (R152). -/
theorem codeFirst_add_count_le {l : Nat} (h1 : 1 ≤ l) (h2 : l ≤ 15) : codeFirst T l + T.countAt l ≤ 2 ^ l := by
  have h := codeFirst_ge T h1 (15 - l)
  rw [show l + (15 - l) + 1 = 16 by omega, hc] at h
  have e : 2 ^ 16 = 2 ^ (15 - l + 1) * 2 ^ l := by rw [← Nat.pow_add]; congr 1; omega
  rw [e] at h
  exact Nat.le_of_mul_le_mul_left h (by positivity)

theorem codeFirst_lt {l : Nat} (h1 : 1 ≤ l) (h2 : l ≤ 15) : codeFirst T l < 2 ^ 16 := by
  have := codeFirst_add_count_le hc h1 h2
  have : 2 ^ l ≤ 2 ^ 15 := Nat.pow_le_pow_right (by omega) h2
  omega

/-- After 15 bits no prefix is left without a code (R104, R157(1)). -/
theorem codeFirst_last : codeFirst T 15 + T.countAt 15 = 2 ^ 15 := by
  have : codeFirst T 16 = 2 * (codeFirst T 15 + T.countAt 15) := codeFirst_succ T (by omega : 1 ≤ 15)
  omega

end

/-- What HDECODE leaves when it matches the `k`-th code of length L (R151, R156). -/
structure Matched (T : HuffTable) (L k : Nat) (r : HuffRegs) : Prop where
  pos : 1 ≤ L
  le : L ≤ 15
  lt : k < T.countAt L
  code : r.code.toNat = codeFirst T L + k
  first : r.first.toNat = codeFirst T L
  index : r.index.toNat = indexFirst T L
  hlen : r.hlen.toNat = L
  sym : T.symbol[indexFirst T L + k]? = some r.sym

theorem Matched.sym_lt {n L k : Nat} {T : HuffTable} {r : HuffRegs} (hT : HuffTableWf n T) (h : Matched T L k r) :
    r.sym.toNat < n := hT.symbols _ (List.mem_of_getElem? h.sym)

section
variable {n : Nat} {T : HuffTable} (hT : HuffTableWf n T) (hn : n ≤ 288)
include hT hn

omit hn in
theorem Machine.HuffTableWf.index_lt {L k : Nat} (h1 : 1 ≤ L) (h2 : L ≤ 15) (hk : k < T.countAt L) :
    indexFirst T L + k < T.symbol.length := by
  rw [hT.length]
  have := indexFirst_mono T (show L + 1 ≤ 16 by omega)
  rw [indexFirst_succ T h1] at this
  omega

theorem Machine.HuffTableWf.length_le : T.symbol.length ≤ 288 := by
  have h : T.symbol.map BitVec.toNat ⊆ List.range n := by
    intro v hv
    obtain ⟨s, hs, rfl⟩ := List.mem_map.1 hv
    exact List.mem_range.2 (hT.symbols s hs)
  have hnd : (T.symbol.map BitVec.toNat).Nodup := hT.distinct.map (fun a b h => BitVec.eq_of_toNat_eq h)
  have := (hnd.subperm h).length_le
  simpa using this.trans (by simpa using hn)

/-- The match of the loop at length L. -/
theorem matched_of_lookup {L k : Nat} (h1 : 1 ≤ L) (h2 : L ≤ 15) (hk : k < T.countAt L) {s : BitVec 9}
    (hs : T.symbol[indexFirst T L + k]? = some s) :
    Matched T L k ⟨BitVec.ofNat 16 (codeFirst T L + k), BitVec.ofNat 16 (codeFirst T L), BitVec.ofNat 9 (indexFirst T L),
      BitVec.ofNat 4 L, s⟩ := by
  have hc := hT.complete
  have h3 := codeFirst_add_count_le hc h1 h2
  have h4 : 2 ^ L ≤ 2 ^ 15 := Nat.pow_le_pow_right (by omega) h2
  have h5 := hT.index_lt h1 h2 hk
  have h6 := hT.length_le hn
  refine ⟨h1, h2, hk, ?_, ?_, ?_, ?_, hs⟩
  · simp only [BitVec.toNat_ofNat]; omega
  · simp only [BitVec.toNat_ofNat]; omega
  · simp only [BitVec.toNat_ofNat]; omega
  · simp only [BitVec.toNat_ofNat]; omega

/-- HDECODE from length L on, the L - 1 bits read so far being the number `p`: it runs out of bits, or matches a code whose bits
are those of the string. -/
theorem hdecodeLoop_complete (fuel : Nat) : ∀ {L p : Nat} {x : BitString}, 1 ≤ L → L + fuel = 16 → codeFirst T L ≤ 2 * p →
    2 * p < 2 ^ L →
    (x.bits.length < fuel ∧ hdecodeLoop bitStringSource T fuel L (2 * p) (codeFirst T L) (indexFirst T L) x = .error .exhausted) ∨
    ∃ r y d k, hdecodeLoop bitStringSource T fuel L (2 * p) (codeFirst T L) (indexFirst T L) x = .ok (r, y) ∧
      Matched T (L + d) k r ∧ (codeFirst T (L + d) + k) / 2 ^ (d + 1) = p ∧
      x.bits = bitsMsb (d + 1) (codeFirst T (L + d) + k) ++ y.bits ∧ y.pos = x.pos + (d + 1) := by
  have hc := hT.complete
  induction fuel with
  | zero =>
    intro L p x h1 h2 h3 h4
    have : L = 16 := by omega
    subst this
    omega
  | succ fuel ih =>
    intro L p x h1 h2 h3 h4
    obtain ⟨pos, bits⟩ := x
    cases bits with
    | nil =>
      refine .inl ⟨by simp, ?_⟩
      simp only [hdecodeLoop]
      rw [bitString_get (by omega)]
      simp
    | cons b bs =>
      have hg : bitStringSource.get 1 { pos := pos, bits := b :: bs } = .ok (b.toNat, { pos := pos + 1, bits := bs }) := by
        rw [bitString_get (by omega)]
        simp [natOfBits]
      have hb := Bool.toNat_lt b
      simp only [hdecodeLoop, hg]
      by_cases hlt : 2 * p + b.toNat < codeFirst T L + T.countAt L
      · rw [if_pos hlt]
        have hk : 2 * p + b.toNat - codeFirst T L < T.countAt L := by omega
        obtain ⟨s, hs⟩ : ∃ s, T.symbol[indexFirst T L + (2 * p + b.toNat - codeFirst T L)]? = some s :=
          ⟨_, List.getElem?_eq_getElem (hT.index_lt h1 (by omega) hk)⟩
        have e : codeFirst T L + (2 * p + b.toNat - codeFirst T L) = 2 * p + b.toNat := by omega
        refine .inr ⟨_, _, 0, 2 * p + b.toNat - codeFirst T L, by rw [hs], ?_, ?_, ?_, rfl⟩
        · have := matched_of_lookup hT hn h1 (by omega) hk hs
          rwa [e] at this
        · simp only [Nat.add_zero, e]
          omega
        · simp only [Nat.add_zero, e]
          rw [bitsMsb_succ]
          have : (2 * p + b.toNat) / 2 ^ 0 % 2 = b.toNat := by simp; omega
          rw [this]
          cases b <;> simp [bitsMsb, bitsLsb]
      · rw [if_neg hlt]
        have e1 : 2 * (codeFirst T L + T.countAt L) = codeFirst T (L + 1) := (codeFirst_succ T h1).symm
        have e2 : indexFirst T L + T.countAt L = indexFirst T (L + 1) := (indexFirst_succ T h1).symm
        rw [e1, e2]
        have h5 : 2 * (2 * p + b.toNat) < 2 ^ (L + 1) := by
          have : 2 ^ L = 2 * 2 ^ (L - 1) := by rw [← Nat.pow_succ', Nat.succ_eq_add_one, Nat.sub_add_cancel h1]
          rw [Nat.pow_succ]
          omega
        rcases ih (L := L + 1) (p := 2 * p + b.toNat) (x := { pos := pos + 1, bits := bs }) (by omega) (by omega)
          (by omega) h5 with ⟨hl, h6⟩ | ⟨r, y, d, k, h6, h7, h8, h9, h10⟩
        · exact .inl ⟨by simp only [List.length_cons] at hl ⊢; omega, h6⟩
        · refine .inr ⟨r, y, d + 1, k, h6, ?_, ?_, ?_, ?_⟩
          · rwa [show L + (d + 1) = L + 1 + d by omega]
          · rw [show L + (d + 1) = L + 1 + d by omega, Nat.pow_succ, ← Nat.div_div_eq_div_mul, h8]
            omega
          · rw [show L + (d + 1) = L + 1 + d by omega, bitsMsb_succ, h8]
            simp only at h9
            rw [h9]
            have : (2 * p + b.toNat) % 2 = b.toNat := by omega
            rw [this]
            cases b <;> simp
          · rw [h10]
            simp only
            omega

/-- HDECODE on a table that BUILD accepted: it fails only where fewer than 15 bits are left, else it reads one code (R156, R157(1)). -/
theorem hdecode_complete (x : BitString) :
    (x.bits.length < 15 ∧ hdecode bitStringSource T x = .error .exhausted) ∨
    ∃ r y L k, hdecode bitStringSource T x = .ok (r, y) ∧ Matched T L k r ∧
      x.bits = bitsMsb L (codeFirst T L + k) ++ y.bits ∧ y.pos = x.pos + L := by
  simp only [hdecode, hT.valid, if_true]
  have h1 : codeFirst T 1 = 0 := rfl
  have h2 : indexFirst T 1 = 0 := rfl
  rcases hdecodeLoop_complete hT hn 15 (L := 1) (p := 0) (x := x) (by omega) (by omega) (by omega) (by omega) with
    ⟨hl, h⟩ | ⟨r, y, d, k, h, h4, -, h6, h7⟩
  · rw [h1, h2] at h
    exact .inl ⟨hl, h⟩
  · rw [h1, h2] at h
    refine .inr ⟨r, y, 1 + d, k, h, h4, ?_, ?_⟩
    · rw [show 1 + d = d + 1 by omega] at h6 ⊢; exact h6
    · rw [h7]; omega

/-- HDECODE on the bits of a code, from length L on, the bits before being the high bits of that code. -/
theorem hdecodeLoop_code {M k : Nat} (hM1 : 1 ≤ M) (hM2 : M ≤ 15) (hk : k < T.countAt M) (bs : List Bool) :
    ∀ (m : Nat) {L fuel pos : Nat}, L + m = M → 1 ≤ L → L + fuel = 16 →
      ∃ r, hdecodeLoop bitStringSource T fuel L (2 * ((codeFirst T M + k) / 2 ^ (m + 1))) (codeFirst T L) (indexFirst T L)
          { pos := pos, bits := bitsMsb (m + 1) (codeFirst T M + k) ++ bs } =
        .ok (r, { pos := pos + (m + 1), bits := bs }) ∧ Matched T M k r := by
  have hc := hT.complete
  intro m
  induction m with
  | zero =>
    intro L fuel pos hL h1 hf
    have hL : L = M := by omega
    subst hL
    obtain ⟨fuel, rfl⟩ : ∃ f, fuel = f + 1 := ⟨fuel - 1, by omega⟩
    set c := codeFirst T L + k with hcdef
    have hg : bitStringSource.get 1 { pos := pos, bits := bitsMsb (0 + 1) c ++ bs } =
        .ok (c % 2, { pos := pos + 1, bits := bs }) := by
      rw [bitString_get (by omega), bitsMsb_succ]
      simp [natOfBits, bitsMsb, bitsLsb, bit_toNat]
    simp only [hdecodeLoop, hg]
    have e : 2 * (c / 2 ^ (0 + 1)) + c % 2 = c := by simp; omega
    rw [e, if_pos (by omega)]
    have e2 : c - codeFirst T L = k := by omega
    rw [e2]
    obtain ⟨s, hs⟩ : ∃ s, T.symbol[indexFirst T L + k]? = some s :=
      ⟨_, List.getElem?_eq_getElem (hT.index_lt h1 (by omega) hk)⟩
    rw [hs]
    exact ⟨_, rfl, matched_of_lookup hT hn h1 (by omega) hk hs⟩
  | succ m ih =>
    intro L fuel pos hL h1 hf
    obtain ⟨fuel, rfl⟩ : ∃ f, fuel = f + 1 := ⟨fuel - 1, by omega⟩
    set c := codeFirst T M + k with hcdef
    have hg : bitStringSource.get 1 { pos := pos, bits := bitsMsb (m + 1 + 1) c ++ bs } =
        .ok (c / 2 ^ (m + 1) % 2, { pos := pos + 1, bits := bitsMsb (m + 1) c ++ bs }) := by
      rw [bitString_get (by omega), bitsMsb_succ]
      simp [natOfBits, bit_toNat]
    simp only [hdecodeLoop, hg]
    have e : 2 * (c / 2 ^ (m + 1 + 1)) + c / 2 ^ (m + 1) % 2 = c / 2 ^ (m + 1) := by
      rw [Nat.pow_succ 2 (m + 1), ← Nat.div_div_eq_div_mul]; omega
    have hge := codeFirst_ge T h1 m
    rw [show L + m + 1 = M by omega] at hge
    have hno : ¬ c / 2 ^ (m + 1) < codeFirst T L + T.countAt L := by
      rw [Nat.div_lt_iff_lt_mul (by positivity), Nat.mul_comm]
      omega
    rw [e, if_neg hno, ← codeFirst_succ T h1, ← indexFirst_succ T h1]
    obtain ⟨r, h2, h3⟩ := ih (L := L + 1) (fuel := fuel) (pos := pos + 1) (by omega) (by omega) (by omega)
    exact ⟨r, by rw [h2]; congr 3; omega, h3⟩

/-- HDECODE on the bits of a code reads exactly that code (R104, R156, R157(2)). -/
theorem hdecode_code {L k : Nat} (h1 : 1 ≤ L) (h2 : L ≤ 15) (hk : k < T.countAt L) (pos : Nat) (bs : List Bool) :
    ∃ r, hdecode bitStringSource T { pos := pos, bits := bitsMsb L (codeFirst T L + k) ++ bs } =
      .ok (r, { pos := pos + L, bits := bs }) ∧ Matched T L k r := by
  simp only [hdecode, hT.valid, if_true]
  have hc := codeFirst_add_count_le hT.complete h1 h2
  obtain ⟨r, h3, h4⟩ := hdecodeLoop_code hT hn h1 h2 hk bs (L - 1) (L := 1) (fuel := 15) (pos := pos) (by omega) (by omega)
    (by omega)
  rw [show L - 1 + 1 = L by omega, Nat.div_eq_of_lt (by omega)] at h3
  exact ⟨r, h3, h4⟩

end

/-! ## The encoder's code of a symbol -/

theorem findSome?_eq_some_iff_first {α β : Type} (f : α → Option β) (l : List α) {b : β} (h : l.findSome? f = some b) :
    ∃ a ∈ l, f a = some b := by
  induction l with
  | nil => cases h
  | cons a l ih =>
    simp only [List.findSome?_cons] at h
    cases ha : f a with
    | some c => rw [ha] at h; exact ⟨a, by simp, by rw [ha, ← h]⟩
    | none =>
      rw [ha] at h
      obtain ⟨x, hx, hfx⟩ := ih h
      exact ⟨x, by simp [hx], hfx⟩

/-- The bits the encoder writes for a symbol are a code of that symbol. -/
theorem codeBits_some {T : HuffTable} {s : Nat} {bs : List Bool} (h : codeBits T s = some bs) :
    ∃ L k, 1 ≤ L ∧ L ≤ 15 ∧ k < T.countAt L ∧ T.symbol[indexFirst T L + k]? = some (BitVec.ofNat 9 s) ∧
      bs = bitsMsb L (codeFirst T L + k) := by
  obtain ⟨L, hL, h⟩ := findSome?_eq_some_iff_first _ _ h
  obtain ⟨k, hk, h⟩ := findSome?_eq_some_iff_first _ _ h
  simp only [List.mem_range'_1] at hL
  split at h
  · rename_i hs
    simp only [Option.some.injEq] at h
    exact ⟨L, k, by omega, by omega, List.mem_range.1 hk, hs, h.symm⟩
  · cases h

theorem findSome?_isSome {α β : Type} (f : α → Option β) (l : List α) {a : α} (ha : a ∈ l) (h : (f a).isSome) :
    (l.findSome? f).isSome := by
  rw [List.findSome?_isSome_iff]
  exact ⟨a, ha, h⟩

theorem index_inj {T : HuffTable} {L L' k k' : Nat} (h1 : 1 ≤ L) (h1' : 1 ≤ L') (hk : k < T.countAt L)
    (hk' : k' < T.countAt L') (h : indexFirst T L + k = indexFirst T L' + k') : L = L' ∧ k = k' := by
  rcases Nat.lt_trichotomy L L' with hl | hl | hl
  · have := indexFirst_mono T (show L + 1 ≤ L' by omega)
    rw [indexFirst_succ T h1] at this
    omega
  · subst hl; exact ⟨rfl, by omega⟩
  · have := indexFirst_mono T (show L' + 1 ≤ L by omega)
    rw [indexFirst_succ T h1'] at this
    omega

/-- The encoder finds the code of a symbol that has one; in a table that lists no symbol twice it is the only one. -/
theorem codeBits_of_symbol {n : Nat} {T : HuffTable} (hT : HuffTableWf n T) {L k s : Nat} (h1 : 1 ≤ L) (h2 : L ≤ 15)
    (hk : k < T.countAt L) (hs : T.symbol[indexFirst T L + k]? = some (BitVec.ofNat 9 s)) :
    codeBits T s = some (bitsMsb L (codeFirst T L + k)) := by
  have hsome : (codeBits T s).isSome := by
    refine findSome?_isSome _ _ (a := L) (by simp [List.mem_range'_1]; omega) ?_
    refine findSome?_isSome _ _ (a := k) (List.mem_range.2 hk) ?_
    rw [if_pos hs]; rfl
  obtain ⟨bs, hbs⟩ := Option.isSome_iff_exists.1 hsome
  obtain ⟨L', k', h1', h2', hk', hs', rfl⟩ := codeBits_some hbs
  have hlt := hT.index_lt h1 h2 hk
  have hlt' := hT.index_lt h1' h2' hk'
  rw [List.getElem?_eq_getElem hlt, Option.some.injEq] at hs
  rw [List.getElem?_eq_getElem hlt', Option.some.injEq] at hs'
  have := (hT.distinct.getElem_inj_iff).1 (hs.trans hs'.symm)
  obtain ⟨rfl, rfl⟩ := index_inj h1 h1' hk hk' this
  exact hbs

end Sys2Proof
end

