-- ==== Sys2Proof/Laws/Build.lean ====
section
/-! SUPPORT. BUILD (spec R152): the Kraft counter against `code_first`, the symbols in canonical order, and what an accepted table is. -/

namespace Sys2Proof.Machine

/-! ## The symbols of one length (R151) -/

theorem symbolsOfLength_length (L : Nat) (lens : List Nat) : ∀ s, (symbolsOfLength L s lens).length = lens.count L := by
  induction lens with
  | nil => intro s; rfl
  | cons l ls ih =>
    intro s
    simp only [symbolsOfLength]
    by_cases h : l = L
    · simp [h, ih]
    · rw [if_neg h, ih, List.count_cons_of_ne h]

theorem mem_symbolsOfLength {L : Nat} {lens : List Nat} {x : BitVec 9} : ∀ {s}, x ∈ symbolsOfLength L s lens →
    ∃ i, lens[i]? = some L ∧ x = BitVec.ofNat 9 (s + i) := by
  induction lens with
  | nil => intro s h; cases h
  | cons l ls ih =>
    intro s h
    simp only [symbolsOfLength] at h
    split at h
    · rename_i hl
      rcases List.mem_cons.1 h with h | h
      · exact ⟨0, by simp [hl], by simp [h]⟩
      · obtain ⟨i, hi, hx⟩ := ih h
        exact ⟨i + 1, by simpa using hi, by rw [hx]; congr 1; omega⟩
    · obtain ⟨i, hi, hx⟩ := ih h
      exact ⟨i + 1, by simpa using hi, by rw [hx]; congr 1; omega⟩

theorem symbolsOfLength_ge {L : Nat} {lens : List Nat} {s : Nat} {x : BitVec 9} (hs : s + lens.length ≤ 512)
    (h : x ∈ symbolsOfLength L s lens) : s ≤ x.toNat ∧ x.toNat < s + lens.length ∧ lens[x.toNat - s]? = some L := by
  obtain ⟨i, hi, rfl⟩ := mem_symbolsOfLength h
  have hlt : i < lens.length := (List.getElem?_eq_some_iff.1 hi).1
  have : (BitVec.ofNat 9 (s + i)).toNat = s + i := by simp only [BitVec.toNat_ofNat]; omega
  rw [this]
  exact ⟨by omega, by omega, by rw [← hi]; congr 1; omega⟩

theorem symbolsOfLength_pairwise {L : Nat} {lens : List Nat} : ∀ {s}, s + lens.length ≤ 512 →
    (symbolsOfLength L s lens).Pairwise (fun a b => a.toNat < b.toNat) := by
  induction lens with
  | nil => intro s _; exact List.Pairwise.nil
  | cons l ls ih =>
    intro s hs
    simp only [List.length_cons] at hs
    simp only [symbolsOfLength]
    split
    · refine List.pairwise_cons.2 ⟨fun x hx => ?_, ih (by omega)⟩
      have := (symbolsOfLength_ge (by omega) hx).1
      simp only [BitVec.toNat_ofNat]
      omega
    · exact ih (by omega)

/-! ## The Kraft counter (R152) -/

/-- While BUILD goes through the lengths, `code_first[L] + 2*left = 2^L` (R104, R152). -/
theorem kraftLoop_ok {T : HuffTable} (n : Nat) : ∀ {L : Nat} {left r : Int}, 1 ≤ L →
    (codeFirst T L : Int) + 2 * left = 2 ^ L → kraftLoop ((List.range' L n).map T.countAt) left = .ok r →
    (codeFirst T (L + n) : Int) + 2 * r = 2 ^ (L + n) ∧ (0 ≤ left → 0 ≤ r) := by
  induction n with
  | zero =>
    intro L left r h1 h2 h
    simp only [List.range'_zero, List.map_nil, kraftLoop, Except.ok.injEq] at h
    subst h
    exact ⟨h2, id⟩
  | succ n ih =>
    intro L left r h1 h2 h
    simp only [List.range'_succ, List.map_cons, kraftLoop] at h
    split at h
    · cases h
    · rename_i hneg
      have h3 : (codeFirst T (L + 1) : Int) + 2 * (2 * left - T.countAt L) = 2 ^ (L + 1) := by
        rw [codeFirst_succ T h1, pow_succ, ← h2]
        push_cast
        ring
      obtain ⟨h4, h5⟩ := ih (by omega) h3 h
      rw [show L + (n + 1) = L + 1 + n by omega]
      exact ⟨h4, fun _ => h5 (by omega)⟩

theorem kraftLoop_nonneg : ∀ {cs : List Nat} {left r : Int}, 0 ≤ left → kraftLoop cs left = .ok r → 0 ≤ r := by
  intro cs
  induction cs with
  | nil => intro left r h0 h; simp only [kraftLoop, Except.ok.injEq] at h; omega
  | cons c cs ih =>
    intro left r h0 h
    simp only [kraftLoop] at h
    split at h
    · cases h
    · exact ih (by omega) h

/-- The only fault of the counter is ErrHuffOver (R152). -/
theorem kraftLoop_error : ∀ {cs : List Nat} {left : Int} {e : Err}, kraftLoop cs left = .error e → e = .huffOver := by
  intro cs
  induction cs with
  | nil => intro left e h; cases h
  | cons c cs ih =>
    intro left e h
    simp only [kraftLoop] at h
    split at h
    · simp only [Except.error.injEq] at h; exact h.symm
    · exact ih h

/-- The counter in closed form: ErrHuffOver exactly when what is left at the end is negative (R152). -/
theorem kraftLoop_foldl (cs : List Nat) : ∀ left : Int, 0 ≤ left →
    (cs.foldl (fun (l : Int) (c : Nat) => 2 * l - (c : Int)) left < 0 → kraftLoop cs left = .error .huffOver) ∧
    (0 ≤ cs.foldl (fun (l : Int) (c : Nat) => 2 * l - (c : Int)) left →
      kraftLoop cs left = .ok (cs.foldl (fun (l : Int) (c : Nat) => 2 * l - (c : Int)) left)) := by
  have below : ∀ (cs : List Nat) (l : Int), l < 0 → cs.foldl (fun (l : Int) (c : Nat) => 2 * l - (c : Int)) l < 0 := by
    intro cs
    induction cs with
    | nil => intro l h; exact h
    | cons c cs ih => intro l h; rw [List.foldl_cons]; exact ih _ (by omega)
  induction cs with
  | nil => intro l h; exact ⟨fun h' => absurd h (by simpa using h'), fun _ => rfl⟩
  | cons c cs ih =>
    intro l h
    simp only [kraftLoop, List.foldl_cons]
    split
    · exact ⟨fun _ => rfl, fun h' => absurd (below cs _ (by assumption)) (by omega)⟩
    · exact ih _ (by omega)

/-! ## An accepted table -/

theorem countAt_ofFn {lens : List Nat} (hlen : lens.length < 512) {T : HuffTable}
    (hT : T.count = Vector.ofFn fun L : Fin 16 => BitVec.ofNat 9 (lens.count L.val)) {L : Nat} (hL : L ≤ 15) :
    T.countAt L = lens.count L := by
  have : T.count[L]? = some (BitVec.ofNat 9 (lens.count L)) := by
    rw [hT, Vector.getElem?_eq_getElem (by omega), Vector.getElem_ofFn]
  rw [HuffTable.countAt, this]
  have := List.count_le_length (a := L) (l := lens)
  simp only [Option.getD_some, BitVec.toNat_ofNat]
  omega

theorem indexFirst_eq_sum (T : HuffTable) (n : Nat) : indexFirst T (n + 1) = ((List.range' 1 n).map T.countAt).sum := by
  induction n with
  | zero => rfl
  | succ n ih =>
    rw [indexFirst_succ T (by omega), ih, List.range'_concat]
    simp [Nat.add_comm 1 n]

theorem canonicalPrefix_length (lens : List Nat) (n : Nat) :
    ((List.range' 1 n).flatMap fun L => symbolsOfLength L 0 lens).length = ((List.range' 1 n).map (lens.count ·)).sum := by
  rw [List.length_flatMap]
  congr 1
  apply List.map_congr_left
  intro L _
  exact symbolsOfLength_length L lens 0

/-- Everything BUILD can answer (R152). -/
theorem build_cases (lens : List Nat) :
    (lens.any (fun l => 15 < l) = true ∧ build lens = .error .huffLenRange) ∨
    (lens.any (fun l => 15 < l) = false ∧
      ((∃ e, kraftLoop ((List.range' 1 15).map (lens.count ·)) 1 = .error e ∧ build lens = .error e) ∨
       (∃ r, kraftLoop ((List.range' 1 15).map (lens.count ·)) 1 = .ok r ∧ 0 < r ∧ build lens = .error .huffUnder) ∨
       (kraftLoop ((List.range' 1 15).map (lens.count ·)) 1 = .ok 0 ∧
        build lens = .ok { count := Vector.ofFn fun L : Fin 16 => BitVec.ofNat 9 (lens.count L.val),
                           symbol := canonicalSymbols lens, valid := true }))) := by
  unfold build
  cases h : lens.any (fun l => decide (15 < l)) with
  | true => exact .inl ⟨rfl, by simp⟩
  | false =>
    refine .inr ⟨rfl, ?_⟩
    simp only [Bool.false_eq_true, if_false]
    cases hk : kraftLoop ((List.range' 1 15).map (lens.count ·)) 1 with
    | error e => exact .inl ⟨e, rfl, rfl⟩
    | ok r =>
      have := kraftLoop_nonneg (by omega) hk
      by_cases hr : 0 < r
      · exact .inr (.inl ⟨r, rfl, hr, by simp [hr]⟩)
      · have : r = 0 := by omega
        subst this
        exact .inr (.inr ⟨rfl, by simp⟩)

/-- A table that BUILD accepted: complete, with the counts of the array and its symbols in canonical order (R151, R152). -/
theorem build_ok {lens : List Nat} {T : HuffTable} (hlen : lens.length ≤ 288) (h : build lens = .ok T) :
    HuffTableWf lens.length T ∧ (∀ l ∈ lens, l ≤ 15) ∧ (∀ L, L ≤ 15 → T.countAt L = lens.count L) ∧
      T.symbol = canonicalSymbols lens := by
  rcases build_cases lens with ⟨-, h'⟩ | ⟨hany, ⟨e, -, h'⟩ | ⟨r, -, -, h'⟩ | ⟨hk, h'⟩⟩
  · rw [h] at h'; cases h'
  · rw [h] at h'; cases h'
  · rw [h] at h'; cases h'
  · rw [h] at h'
    simp only [Except.ok.injEq] at h'
    have hcount : ∀ L, L ≤ 15 → T.countAt L = lens.count L := fun L hL =>
      countAt_ofFn (by omega) (by rw [h']) hL
    have hmap : ∀ n, n ≤ 15 → (List.range' 1 n).map (lens.count ·) = (List.range' 1 n).map T.countAt := by
      intro n hn
      apply List.map_congr_left
      intro L hL
      rw [List.mem_range'_1] at hL
      exact (hcount L (by omega)).symm
    have hsym : T.symbol = canonicalSymbols lens := by rw [h']
    refine ⟨⟨by rw [h'], ?_, ?_, ?_, ?_⟩, ?_, hcount, hsym⟩
    · rw [hmap 15 (by omega)] at hk
      have := (kraftLoop_ok (T := T) 15 (L := 1) (by omega) (by simp [codeFirst]) hk).1
      norm_num at this
      exact_mod_cast this
    · rw [hsym, canonicalSymbols, canonicalPrefix_length, hmap 15 (by omega)]
      exact (indexFirst_eq_sum T 15).symm
    · intro s hs
      rw [hsym, canonicalSymbols, List.mem_flatMap] at hs
      obtain ⟨L, -, hs⟩ := hs
      have := (symbolsOfLength_ge (by omega) hs).2.1
      omega
    · rw [hsym, canonicalSymbols, List.nodup_flatMap]
      refine ⟨fun L _ => (symbolsOfLength_pairwise (by omega)).imp (fun h he => ?_), ?_⟩
      · subst he; omega
      · refine (List.nodup_range' (s := 1) (n := 15)).imp ?_
        intro a b hab x hxa hxb
        have h1 := (symbolsOfLength_ge (by omega) hxa).2.2
        have h2 := (symbolsOfLength_ge (by omega) hxb).2.2
        rw [h1] at h2
        exact hab (Option.some.inj h2)
    · intro l hl
      have := List.any_eq_false.1 hany l hl
      simp only [decide_eq_true_eq] at this
      omega

/-- The `k`-th symbol of length L stands at position `indexFirst L + k` (R151). -/
theorem canonicalSymbols_at {lens : List Nat} {T : HuffTable} (hcount : ∀ L, L ≤ 15 → T.countAt L = lens.count L) {L k : Nat}
    (h1 : 1 ≤ L) (h2 : L ≤ 15) (hk : k < lens.count L) :
    (canonicalSymbols lens)[indexFirst T L + k]? = (symbolsOfLength L 0 lens)[k]? := by
  have hsplit : List.range' 1 15 = List.range' 1 (L - 1) ++ L :: List.range' (L + 1) (15 - L) := by
    rw [← List.range'_succ (s := L) (n := 15 - L)]
    have := List.range'_append (s := 1) (m := L - 1) (n := 15 - L + 1) (step := 1)
    rw [show 1 + 1 * (L - 1) = L by omega, show L - 1 + (15 - L + 1) = 15 by omega] at this
    exact this.symm
  have hpre : ((List.range' 1 (L - 1)).flatMap fun L => symbolsOfLength L 0 lens).length = indexFirst T L := by
    rw [canonicalPrefix_length]
    have := indexFirst_eq_sum T (L - 1)
    rw [Nat.sub_add_cancel h1] at this
    rw [this]
    congr 1
    apply List.map_congr_left
    intro l hl
    rw [List.mem_range'_1] at hl
    exact (hcount l (by omega)).symm
  rw [canonicalSymbols, hsplit, List.flatMap_append, List.flatMap_cons]
  rw [List.getElem?_append_right (by omega), hpre, Nat.add_sub_cancel_left, List.getElem?_append_left]
  rw [symbolsOfLength_length]
  exact hk

theorem HuffTableWf.mono {n m : Nat} {T : HuffTable} (h : HuffTableWf n T) (hnm : n ≤ m) : HuffTableWf m T :=
  ⟨h.valid, h.complete, h.length, fun s hs => Nat.lt_of_lt_of_le (h.symbols s hs) hnm, h.distinct⟩

/-- A list of symbol numbers below 512, none twice, as 9-bit symbols. -/
theorem symbolList_nodup {ns : List Nat} (h : ns.Nodup) (hlt : ∀ v ∈ ns, v < 512) : (ns.map (BitVec.ofNat 9)).Nodup := by
  refine List.Nodup.map_on (fun a ha b hb hab => ?_) h
  have h1 := hlt a ha
  have h2 := hlt b hb
  have := congrArg BitVec.toNat hab
  simp only [BitVec.toNat_ofNat] at this
  omega

theorem symbolList_lt {ns : List Nat} {n : Nat} (hlt : ∀ v ∈ ns, v < n) : ∀ s ∈ ns.map (BitVec.ofNat 9), s.toNat < n := by
  intro s hs
  obtain ⟨v, hv, rfl⟩ := List.mem_map.1 hs
  have := hlt v hv
  simp only [BitVec.toNat_ofNat]
  omega

theorem flltSymbols_lt : ∀ v ∈ List.range' 256 24 ++ List.range' 0 144 ++ List.range' 280 8 ++ List.range' 144 112, v < 288 := by
  intro v hv
  simp only [List.mem_append, List.mem_range'_1] at hv
  omega

/-- The constant tables are complete tables of their alphabets (R181). -/
theorem fllt_wf : HuffTableWf 288 fllt := by
  refine ⟨rfl, by decide +kernel, ?_, symbolList_lt flltSymbols_lt, symbolList_nodup ?_ (fun v hv => ?_)⟩
  · have h1 : indexFirst fllt 16 = 288 := by decide +kernel
    rw [h1]
    simp [fllt]
  · refine List.nodup_append.2 ⟨List.nodup_append.2 ⟨List.nodup_append.2 ⟨List.nodup_range', List.nodup_range', ?_⟩,
      List.nodup_range', ?_⟩, List.nodup_range', ?_⟩ <;>
      (intro a ha b hb
       simp only [List.mem_append, List.mem_range'_1] at ha hb
       omega)
  · have := flltSymbols_lt v hv
    omega

theorem fdt_wf : HuffTableWf 32 fdt := ⟨rfl, by decide +kernel, by decide +kernel, by decide +kernel, by decide +kernel⟩

end Sys2Proof.Machine
end

