-- ==== Sys2Proof/Laws/Encode.lean ====
section
/-! SUPPORT. The encoder and the decoder, piece by piece (spec R91 to R107): what a symbol and its raw field decode to, the shape of what
they decode to, and the bits of a coded element and of a dynamic header's lengths, each way. -/

namespace Sys2Proof

open Machine

/-! ## Decoded elements are well-formed -/

/-- `k` lengths are read (R184). -/
theorem getLengths_length {σ : Type} (S : BitSource σ) (k : Nat) :
    ∀ (x : σ) ls y, getLengths S k x = .ok (ls, y) → ls.length = k := by
  induction k with
  | zero => intro x ls y h; cases h; rfl
  | succ k ih =>
    intro x ls y h
    simp only [getLengths] at h
    split at h
    · cases h
    · split at h
      · cases h
      · rename_i h'; cases h; simp [ih _ _ _ h']

theorem clInstr_wf {n e i} (h : clInstr n e = some i) : i.wf = true := by
  by_cases hn : n < 19
  · interval_cases n <;> simp only [clInstr, Option.some.injEq] at h <;> subst h <;> rfl
  · have : clInstr n e = none := by unfold clInstr; split <;> first | omega | rfl
    rw [this] at h; cases h

theorem llInstr_wf {n e i} (h : llInstr n e = some i) : i.wf = true := by
  unfold llInstr at h
  split at h
  · cases h; rfl
  · generalize n - 256 = k at h
    by_cases hn : k < 32
    · interval_cases k <;> simp only [lenInstr, Option.some.injEq] at h <;> subst h <;> rfl
    · have : lenInstr k e = none := by unfold lenInstr; split <;> first | omega | rfl
      rw [this] at h; cases h

theorem dInstr_wf {n e i} (h : dInstr n e = some i) : i.wf = true := by
  by_cases hn : n < 32
  · interval_cases n <;> simp only [dInstr, Option.some.injEq] at h <;> subst h <;> rfl
  · have : dInstr n e = none := by unfold dInstr; split <;> first | omega | rfl
    rw [this] at h; cases h

theorem filterInstr_wf (b : Byte) : (filterInstr b).wf = true := by
  revert b; decide

/-- A coded element is well-formed if what its symbol stands for is. -/
theorem decodeCoded_wf {σ : Type} (S : BitSource σ) {T extra mk} {x : σ} {f : Fetched σ}
    (hmk : ∀ n e i, mk n e = some i → i.wf = true) (h : decodeCoded S T extra mk x = .ok f) : f.instr.wf = true := by
  simp only [decodeCoded] at h
  split at h
  · cases h
  · split at h
    · cases h
    · split at h
      · rename_i h'; cases h; exact hmk _ _ _ h'
      · cases h

/-! ## Shapes: from an element to its symbol and raw field, and back -/

/-- The element of a shape, and the width and range of its raw field. -/
theorem shape_cl {i s n e} (h : Instr.shape i = .cl s n e) : clInstr s e = some i ∧ n = clExtra s ∧ e < 2 ^ n ∧ s < 19 := by
  cases i <;> simp only [Instr.shape, Shape.cl.injEq, reduceCtorEq] at h <;> obtain ⟨rfl, rfl, rfl⟩ := h
  all_goals first
    | exact ⟨rfl, rfl, by decide, by decide⟩
    | (rename_i e; exact ⟨by simp [clInstr], rfl, e.isLt, by decide⟩)

theorem shape_ll {i s n e} (h : Instr.shape i = .ll s n e) : llInstr s e = some i ∧ n = llExtra s ∧ e < 2 ^ n ∧ s < 288 := by
  cases i <;> simp only [Instr.shape, Shape.ll.injEq, reduceCtorEq] at h <;> obtain ⟨rfl, rfl, rfl⟩ := h
  all_goals first
    | exact ⟨rfl, rfl, by decide, by decide⟩
    | (rename_i e; exact ⟨by simp [llInstr, lenInstr], rfl, e.isLt, by decide⟩)
    | skip
  rename_i b
  have := b.isLt
  refine ⟨by simp [llInstr, this], ?_, by decide, by omega⟩
  rw [llExtra, if_neg (by omega)]

theorem shape_d {i s n e} (h : Instr.shape i = .d s n e) : dInstr s e = some i ∧ n = dExtra s ∧ e < 2 ^ n ∧ s < 32 := by
  cases i <;> simp only [Instr.shape, Shape.d.injEq, reduceCtorEq] at h <;> obtain ⟨rfl, rfl, rfl⟩ := h
  all_goals first
    | exact ⟨rfl, rfl, by decide, by decide⟩
    | (rename_i e; exact ⟨by simp [dInstr], rfl, e.isLt, by decide⟩)

/-- The code of a symbol and its raw field decode to what they stand for, and nothing beyond them is read (R97, R98, R100). -/
theorem decodeCoded_code {n : Nat} {T : HuffTable} (hT : HuffTableWf n T) (hn : n ≤ 288) {s : Nat} (hs : s < 512)
    {code : List Bool} (hc : codeBits T s = some code) {extra : Nat → Nat} {mk : Nat → Nat → Option Instr} {e : Nat} {i : Instr}
    (hmk : mk s e = some i) (hx : extra s ≤ 24) (he : e < 2 ^ extra s) (pos : Nat) (tail : List Bool) :
    ∃ regs, decodeCoded bitStringSource T extra mk { pos := pos, bits := code ++ bitsLsb (extra s) e ++ tail } =
      .ok { instr := i, regs := regs, rest := { pos := pos + (code ++ bitsLsb (extra s) e).length, bits := tail } } := by
  obtain ⟨L, k, h1, h2, h3, h4, h5⟩ := codeBits_some hc
  obtain ⟨r, h6, h7⟩ := hdecode_code hT hn h1 h2 h3 pos (bitsLsb (extra s) e ++ tail)
  have hsym : r.sym.toNat = s := by
    have := h7.sym; rw [h4] at this; rw [← Option.some.inj this]; simp; omega
  refine ⟨some r, ?_⟩
  rw [decodeCoded, h5, List.append_assoc, h6]
  simp only [hsym]
  rw [bitString_get_append hx he]
  simp only [hmk]
  simp [Nat.add_assoc]

/-- The bits of a list of lengths read back (R184). -/
theorem getLengths_bits (ls : List (BitVec 3)) (tail : List Bool) : ∀ pos,
    getLengths bitStringSource ls.length { pos := pos, bits := lengthsBits ls ++ tail } =
      .ok (ls, { pos := pos + (lengthsBits ls).length, bits := tail }) := by
  induction ls with
  | nil => intro pos; rfl
  | cons l ls ih =>
    intro pos
    simp only [List.length_cons, getLengths, lengthsBits, List.append_assoc]
    rw [bitString_get_append (by omega) l.isLt]
    simp only [ih]
    simp [Nat.add_assoc]

theorem align_pad (pos : Nat) (bs : List Bool) :
    bitStringSource.align { pos := pos, bits := List.replicate (padding pos) false ++ bs } =
      { pos := pos + padding pos, bits := bs } := by
  rw [bitString_align]; simp

/-- The shape of the element of a symbol and a raw field. -/
theorem clInstr_shape {n e i} (h : clInstr n e = some i) (he : e < 2 ^ clExtra n) : i.shape = .cl n (clExtra n) e := by
  by_cases hn : n < 19
  · interval_cases n <;> simp only [clInstr, Option.some.injEq] at h <;> subst h <;> simp [clExtra] at he <;>
      simp [Instr.shape, clExtra] <;> omega
  · have : clInstr n e = none := by unfold clInstr; split <;> first | omega | rfl
    rw [this] at h; cases h

theorem llInstr_shape {n e i} (h : llInstr n e = some i) (he : e < 2 ^ llExtra n) : i.shape = .ll n (llExtra n) e := by
  unfold llInstr at h
  split at h
  · rename_i hn
    cases h
    have h0 : llExtra n = 0 := by rw [llExtra, if_neg (by omega)]
    rw [h0] at he ⊢
    simp [Instr.shape]; omega
  · by_cases hn : n < 288
    · obtain ⟨k, rfl⟩ : ∃ k, n = 256 + k := ⟨n - 256, by omega⟩
      have : k < 32 := by omega
      rw [Nat.add_sub_cancel_left] at h
      interval_cases k <;> simp only [lenInstr, Option.some.injEq] at h <;> subst h <;> simp [llExtra, lext] at he <;>
        simp [Instr.shape, llExtra, lext] <;> omega
    · have : lenInstr (n - 256) e = none := by unfold lenInstr; split <;> first | omega | rfl
      rw [this] at h; cases h

theorem dInstr_shape {n e i} (h : dInstr n e = some i) (he : e < 2 ^ dExtra n) : i.shape = .d n (dExtra n) e := by
  by_cases hn : n < 32
  · interval_cases n <;> simp only [dInstr, Option.some.injEq] at h <;> subst h <;> simp [dExtra, dext] at he <;>
      simp [Instr.shape, dExtra, dext] <;> omega
  · have : dInstr n e = none := by unfold dInstr; split <;> first | omega | rfl
    rw [this] at h; cases h

/-- What GETBITS read. -/
theorem get_bits {n : Nat} {x y : BitString} {v : Nat} (h : bitStringSource.get n x = .ok (v, y)) :
    x.bits = bitsLsb n v ++ y.bits ∧ y.pos = x.pos + n ∧ v < 2 ^ n := by
  obtain ⟨h1, h2, h3⟩ := bitString_get_ok h
  have hl : (x.bits.take n).length = n := by rw [List.length_take]; exact Nat.min_eq_left h1.enough
  refine ⟨?_, h1.pos, bitString_get_lt h⟩
  rw [h1.bits, h2]
  conv_rhs => arg 1; arg 1; rw [← hl]
  rw [bitsLsb_natOfBits, List.take_append_drop]

/-- What a decoded coded element was read from: the code of its symbol, then its raw field (R97, R98, R100, R107). -/
theorem coded_bits {n : Nat} {T : HuffTable} (hT : HuffTableWf n T) (hn : n ≤ 288) {extra mk} {x : BitString}
    {f : Fetched BitString} (h : decodeCoded bitStringSource T extra mk x = .ok f) :
    ∃ s e code, codeBits T s = some code ∧ mk s e = some f.instr ∧ e < 2 ^ extra s ∧
      x.bits = code ++ bitsLsb (extra s) e ++ f.rest.bits ∧ f.rest.pos = x.pos + code.length + extra s := by
  obtain ⟨r, y, e, h1, h2, h3, -⟩ := decodeCoded_ok h
  obtain ⟨h4, h5, h6⟩ := get_bits h2
  rcases hdecode_complete hT hn x with ⟨-, hh⟩ | ⟨r', y', L, k, hh, hm, hb, hp⟩
  · rw [hh] at h1; cases h1
  · rw [hh] at h1; cases h1
    refine ⟨_, e, _, codeBits_of_symbol hT hm.pos hm.le hm.lt (s := r.sym.toNat) ?_, h3, h6, ?_, ?_⟩
    · rw [hm.sym]; simp
    · rw [hb, h4, List.append_assoc]
    · rw [h5, hp]; simp

/-- What a list of lengths was read from (R184). -/
theorem lengths_bits : ∀ (k : Nat) (x : BitString) ls y, getLengths bitStringSource k x = .ok (ls, y) →
    x.bits = lengthsBits ls ++ y.bits ∧ y.pos = x.pos + (lengthsBits ls).length := by
  intro k
  induction k with
  | zero => intro x ls y h; cases h; simp [lengthsBits]
  | succ k ih =>
    intro x ls y h
    simp only [getLengths] at h
    split at h
    · cases h
    · rename_i v x' hg
      split at h
      · cases h
      · rename_i h'; cases h
        obtain ⟨h1, h2⟩ := ih _ _ _ h'
        obtain ⟨h3, h4, h5⟩ := get_bits hg
        rw [h3, h1, h2, h4]
        have : (BitVec.ofNat 3 v).toNat = v := by simp; omega
        simp [lengthsBits, this]; omega

end Sys2Proof
end

