-- ==== Sys2Proof/Laws/State.lean ====
section
/-! SUPPORT. What each named update of the state does to each field: one lemma per field, so that no proof unfolds a record update. -/

namespace Sys2Proof.Machine

section
variable (b : Byte) (s : State)
@[simp] theorem adlerStep_br : (adlerStep b s).br = s.br := rfl
@[simp] theorem adlerStep_hd : (adlerStep b s).hd = s.hd := rfl
@[simp] theorem adlerStep_opos : (adlerStep b s).opos = s.opos := rfl
@[simp] theorem adlerStep_expected : (adlerStep b s).expected = s.expected := rfl
@[simp] theorem adlerStep_bfinal : (adlerStep b s).bfinal = s.bfinal := rfl
@[simp] theorem adlerStep_btype : (adlerStep b s).btype = s.btype := rfl
@[simp] theorem adlerStep_hlit : (adlerStep b s).hlit = s.hlit := rfl
@[simp] theorem adlerStep_hdist : (adlerStep b s).hdist = s.hdist := rfl
@[simp] theorem adlerStep_hclen : (adlerStep b s).hclen = s.hclen := rfl
@[simp] theorem adlerStep_lidx : (adlerStep b s).lidx = s.lidx := rfl
@[simp] theorem adlerStep_mlen : (adlerStep b s).mlen = s.mlen := rfl
@[simp] theorem adlerStep_mdist : (adlerStep b s).mdist = s.mdist := rfl
@[simp] theorem adlerStep_slen : (adlerStep b s).slen = s.slen := rfl
@[simp] theorem adlerStep_snlen : (adlerStep b s).snlen = s.snlen := rfl
@[simp] theorem adlerStep_clt : (adlerStep b s).clt = s.clt := rfl
@[simp] theorem adlerStep_llt : (adlerStep b s).llt = s.llt := rfl
@[simp] theorem adlerStep_dt : (adlerStep b s).dt = s.dt := rfl
@[simp] theorem adlerStep_cllens : (adlerStep b s).cllens = s.cllens := rfl
@[simp] theorem adlerStep_lens : (adlerStep b s).lens = s.lens := rfl
@[simp] theorem adlerStep_phase : (adlerStep b s).phase = s.phase := rfl
@[simp] theorem adlerStep_s1 : (adlerStep b s).s1 = BitVec.ofNat 16 ((s.s1.toNat + b.toNat) % adlerMod) := rfl
@[simp] theorem adlerStep_s2 : (adlerStep b s).s2 = BitVec.ofNat 16 ((s.s2.toNat + (s.s1.toNat + b.toNat) % adlerMod) % adlerMod) := rfl
@[simp] theorem adlerStep_row : (adlerStep b s).row = s.row := rfl
@[simp] theorem adlerStep_col : (adlerStep b s).col = s.col := rfl
@[simp] theorem adlerStep_ft : (adlerStep b s).ft = s.ft := rfl
@[simp] theorem adlerStep_rowbytes : (adlerStep b s).rowbytes = s.rowbytes := rfl
@[simp] theorem adlerStep_bpp : (adlerStep b s).bpp = s.bpp := rfl
@[simp] theorem adlerStep_err : (adlerStep b s).err = s.err := rfl
@[simp] theorem adlerStep_inLen : (adlerStep b s).inLen = s.inLen := rfl
@[simp] theorem adlerStep_width : (adlerStep b s).width = s.width := rfl
@[simp] theorem adlerStep_height : (adlerStep b s).height = s.height := rfl
@[simp] theorem adlerStep_channels : (adlerStep b s).channels = s.channels := rfl
@[simp] theorem adlerStep_outLen : (adlerStep b s).outLen = s.outLen := rfl
@[simp] theorem adlerStep_pixLen : (adlerStep b s).pixLen = s.pixLen := rfl
@[simp] theorem adlerStep_inm : (adlerStep b s).inm = s.inm := rfl
@[simp] theorem adlerStep_out : (adlerStep b s).out = s.out := rfl
@[simp] theorem adlerStep_pix : (adlerStep b s).pix = s.pix := rfl
@[simp] theorem adlerStep_inMatch : (adlerStep b s).inMatch = s.inMatch := rfl
@[simp] theorem adlerStep_par : (adlerStep b s).par = s.par := rfl
@[simp] theorem adlerStep_sched : (adlerStep b s).sched = s.sched := rfl
@[simp] theorem adlerStep_rdata : (adlerStep b s).rdata = s.rdata := rfl
@[simp] theorem adlerStep_freeCtr : (adlerStep b s).freeCtr = s.freeCtr := rfl
end

section
variable (b : Byte) (s : State)
@[simp] theorem emitByte_br : (emitByte b s).br = s.br := rfl
@[simp] theorem emitByte_hd : (emitByte b s).hd = s.hd := rfl
@[simp] theorem emitByte_opos : (emitByte b s).opos = s.opos + 1 := rfl
@[simp] theorem emitByte_expected : (emitByte b s).expected = s.expected := rfl
@[simp] theorem emitByte_bfinal : (emitByte b s).bfinal = s.bfinal := rfl
@[simp] theorem emitByte_btype : (emitByte b s).btype = s.btype := rfl
@[simp] theorem emitByte_hlit : (emitByte b s).hlit = s.hlit := rfl
@[simp] theorem emitByte_hdist : (emitByte b s).hdist = s.hdist := rfl
@[simp] theorem emitByte_hclen : (emitByte b s).hclen = s.hclen := rfl
@[simp] theorem emitByte_lidx : (emitByte b s).lidx = s.lidx := rfl
@[simp] theorem emitByte_mlen : (emitByte b s).mlen = s.mlen := rfl
@[simp] theorem emitByte_mdist : (emitByte b s).mdist = s.mdist := rfl
@[simp] theorem emitByte_slen : (emitByte b s).slen = s.slen := rfl
@[simp] theorem emitByte_snlen : (emitByte b s).snlen = s.snlen := rfl
@[simp] theorem emitByte_clt : (emitByte b s).clt = s.clt := rfl
@[simp] theorem emitByte_llt : (emitByte b s).llt = s.llt := rfl
@[simp] theorem emitByte_dt : (emitByte b s).dt = s.dt := rfl
@[simp] theorem emitByte_cllens : (emitByte b s).cllens = s.cllens := rfl
@[simp] theorem emitByte_lens : (emitByte b s).lens = s.lens := rfl
@[simp] theorem emitByte_phase : (emitByte b s).phase = s.phase := rfl
@[simp] theorem emitByte_s1 : (emitByte b s).s1 = BitVec.ofNat 16 ((s.s1.toNat + b.toNat) % adlerMod) := rfl
@[simp] theorem emitByte_s2 : (emitByte b s).s2 = BitVec.ofNat 16 ((s.s2.toNat + (s.s1.toNat + b.toNat) % adlerMod) % adlerMod) := rfl
@[simp] theorem emitByte_row : (emitByte b s).row = s.row := rfl
@[simp] theorem emitByte_col : (emitByte b s).col = s.col := rfl
@[simp] theorem emitByte_ft : (emitByte b s).ft = s.ft := rfl
@[simp] theorem emitByte_rowbytes : (emitByte b s).rowbytes = s.rowbytes := rfl
@[simp] theorem emitByte_bpp : (emitByte b s).bpp = s.bpp := rfl
@[simp] theorem emitByte_err : (emitByte b s).err = s.err := rfl
@[simp] theorem emitByte_inLen : (emitByte b s).inLen = s.inLen := rfl
@[simp] theorem emitByte_width : (emitByte b s).width = s.width := rfl
@[simp] theorem emitByte_height : (emitByte b s).height = s.height := rfl
@[simp] theorem emitByte_channels : (emitByte b s).channels = s.channels := rfl
@[simp] theorem emitByte_outLen : (emitByte b s).outLen = s.outLen := rfl
@[simp] theorem emitByte_pixLen : (emitByte b s).pixLen = s.pixLen := rfl
@[simp] theorem emitByte_inm : (emitByte b s).inm = s.inm := rfl
@[simp] theorem emitByte_out : (emitByte b s).out = Memory.write s.out s.opos.toNat b := rfl
@[simp] theorem emitByte_pix : (emitByte b s).pix = s.pix := rfl
@[simp] theorem emitByte_inMatch : (emitByte b s).inMatch = s.inMatch := rfl
@[simp] theorem emitByte_par : (emitByte b s).par = s.par := rfl
@[simp] theorem emitByte_sched : (emitByte b s).sched = s.sched := rfl
@[simp] theorem emitByte_rdata : (emitByte b s).rdata = s.rdata := rfl
@[simp] theorem emitByte_freeCtr : (emitByte b s).freeCtr = s.freeCtr := rfl
end

section
variable (e : Err) (s : State)
@[simp] theorem raiseFault_phase : (raiseFault e s).phase = .fault := rfl
@[simp] theorem raiseFault_err : (raiseFault e s).err = errCode e := rfl
@[simp] theorem raiseFault_inLen : (raiseFault e s).inLen = s.inLen := rfl
@[simp] theorem raiseFault_width : (raiseFault e s).width = s.width := rfl
@[simp] theorem raiseFault_height : (raiseFault e s).height = s.height := rfl
@[simp] theorem raiseFault_channels : (raiseFault e s).channels = s.channels := rfl
@[simp] theorem raiseFault_inm : (raiseFault e s).inm = s.inm := rfl
@[simp] theorem raiseFault_out : (raiseFault e s).out = Memory.ofCells (Config.freeCells s.freeCtr 40) := rfl
@[simp] theorem raiseFault_pix : (raiseFault e s).pix = Memory.ofCells (Config.freeCells s.freeCtr 41) := rfl
@[simp] theorem raiseFault_inMatch : (raiseFault e s).inMatch = false := rfl
@[simp] theorem raiseFault_par : (raiseFault e s).par = s.par := rfl
@[simp] theorem raiseFault_sched : (raiseFault e s).sched = s.sched := rfl
@[simp] theorem raiseFault_rdata : (raiseFault e s).rdata = s.rdata := rfl
@[simp] theorem raiseFault_freeCtr : (raiseFault e s).freeCtr = s.freeCtr + 1 := rfl
end

section
variable (f : Bool) (t : BitVec 2) (p : Phase) (s : State)
@[simp] theorem latchHeader_br : (latchHeader f t p s).br = s.br := rfl
@[simp] theorem latchHeader_hd : (latchHeader f t p s).hd = s.hd := rfl
@[simp] theorem latchHeader_opos : (latchHeader f t p s).opos = s.opos := rfl
@[simp] theorem latchHeader_expected : (latchHeader f t p s).expected = s.expected := rfl
@[simp] theorem latchHeader_bfinal : (latchHeader f t p s).bfinal = f := rfl
@[simp] theorem latchHeader_btype : (latchHeader f t p s).btype = t := rfl
@[simp] theorem latchHeader_hlit : (latchHeader f t p s).hlit = s.hlit := rfl
@[simp] theorem latchHeader_hdist : (latchHeader f t p s).hdist = s.hdist := rfl
@[simp] theorem latchHeader_hclen : (latchHeader f t p s).hclen = s.hclen := rfl
@[simp] theorem latchHeader_lidx : (latchHeader f t p s).lidx = s.lidx := rfl
@[simp] theorem latchHeader_mlen : (latchHeader f t p s).mlen = s.mlen := rfl
@[simp] theorem latchHeader_mdist : (latchHeader f t p s).mdist = s.mdist := rfl
@[simp] theorem latchHeader_slen : (latchHeader f t p s).slen = s.slen := rfl
@[simp] theorem latchHeader_snlen : (latchHeader f t p s).snlen = s.snlen := rfl
@[simp] theorem latchHeader_clt : (latchHeader f t p s).clt = s.clt := rfl
@[simp] theorem latchHeader_llt : (latchHeader f t p s).llt = s.llt := rfl
@[simp] theorem latchHeader_dt : (latchHeader f t p s).dt = s.dt := rfl
@[simp] theorem latchHeader_cllens : (latchHeader f t p s).cllens = s.cllens := rfl
@[simp] theorem latchHeader_lens : (latchHeader f t p s).lens = s.lens := rfl
@[simp] theorem latchHeader_phase : (latchHeader f t p s).phase = p := rfl
@[simp] theorem latchHeader_s1 : (latchHeader f t p s).s1 = s.s1 := rfl
@[simp] theorem latchHeader_s2 : (latchHeader f t p s).s2 = s.s2 := rfl
@[simp] theorem latchHeader_row : (latchHeader f t p s).row = s.row := rfl
@[simp] theorem latchHeader_col : (latchHeader f t p s).col = s.col := rfl
@[simp] theorem latchHeader_ft : (latchHeader f t p s).ft = s.ft := rfl
@[simp] theorem latchHeader_rowbytes : (latchHeader f t p s).rowbytes = s.rowbytes := rfl
@[simp] theorem latchHeader_bpp : (latchHeader f t p s).bpp = s.bpp := rfl
@[simp] theorem latchHeader_err : (latchHeader f t p s).err = s.err := rfl
@[simp] theorem latchHeader_inLen : (latchHeader f t p s).inLen = s.inLen := rfl
@[simp] theorem latchHeader_width : (latchHeader f t p s).width = s.width := rfl
@[simp] theorem latchHeader_height : (latchHeader f t p s).height = s.height := rfl
@[simp] theorem latchHeader_channels : (latchHeader f t p s).channels = s.channels := rfl
@[simp] theorem latchHeader_outLen : (latchHeader f t p s).outLen = s.outLen := rfl
@[simp] theorem latchHeader_pixLen : (latchHeader f t p s).pixLen = s.pixLen := rfl
@[simp] theorem latchHeader_inm : (latchHeader f t p s).inm = s.inm := rfl
@[simp] theorem latchHeader_out : (latchHeader f t p s).out = s.out := rfl
@[simp] theorem latchHeader_pix : (latchHeader f t p s).pix = s.pix := rfl
@[simp] theorem latchHeader_inMatch : (latchHeader f t p s).inMatch = s.inMatch := rfl
@[simp] theorem latchHeader_par : (latchHeader f t p s).par = s.par := rfl
@[simp] theorem latchHeader_sched : (latchHeader f t p s).sched = s.sched := rfl
@[simp] theorem latchHeader_rdata : (latchHeader f t p s).rdata = s.rdata := rfl
@[simp] theorem latchHeader_freeCtr : (latchHeader f t p s).freeCtr = s.freeCtr := rfl
end

section
variable (s : State)
@[simp] theorem clearValid_br : (clearValid s).br = s.br := rfl
@[simp] theorem clearValid_hd : (clearValid s).hd = s.hd := rfl
@[simp] theorem clearValid_opos : (clearValid s).opos = s.opos := rfl
@[simp] theorem clearValid_expected : (clearValid s).expected = s.expected := rfl
@[simp] theorem clearValid_bfinal : (clearValid s).bfinal = s.bfinal := rfl
@[simp] theorem clearValid_btype : (clearValid s).btype = s.btype := rfl
@[simp] theorem clearValid_hlit : (clearValid s).hlit = s.hlit := rfl
@[simp] theorem clearValid_hdist : (clearValid s).hdist = s.hdist := rfl
@[simp] theorem clearValid_hclen : (clearValid s).hclen = s.hclen := rfl
@[simp] theorem clearValid_lidx : (clearValid s).lidx = s.lidx := rfl
@[simp] theorem clearValid_mlen : (clearValid s).mlen = s.mlen := rfl
@[simp] theorem clearValid_mdist : (clearValid s).mdist = s.mdist := rfl
@[simp] theorem clearValid_slen : (clearValid s).slen = s.slen := rfl
@[simp] theorem clearValid_snlen : (clearValid s).snlen = s.snlen := rfl
@[simp] theorem clearValid_clt : (clearValid s).clt = { s.clt with valid := false } := rfl
@[simp] theorem clearValid_llt : (clearValid s).llt = { s.llt with valid := false } := rfl
@[simp] theorem clearValid_dt : (clearValid s).dt = { s.dt with valid := false } := rfl
@[simp] theorem clearValid_cllens : (clearValid s).cllens = s.cllens := rfl
@[simp] theorem clearValid_lens : (clearValid s).lens = s.lens := rfl
@[simp] theorem clearValid_phase : (clearValid s).phase = s.phase := rfl
@[simp] theorem clearValid_s1 : (clearValid s).s1 = s.s1 := rfl
@[simp] theorem clearValid_s2 : (clearValid s).s2 = s.s2 := rfl
@[simp] theorem clearValid_row : (clearValid s).row = s.row := rfl
@[simp] theorem clearValid_col : (clearValid s).col = s.col := rfl
@[simp] theorem clearValid_ft : (clearValid s).ft = s.ft := rfl
@[simp] theorem clearValid_rowbytes : (clearValid s).rowbytes = s.rowbytes := rfl
@[simp] theorem clearValid_bpp : (clearValid s).bpp = s.bpp := rfl
@[simp] theorem clearValid_err : (clearValid s).err = s.err := rfl
@[simp] theorem clearValid_inLen : (clearValid s).inLen = s.inLen := rfl
@[simp] theorem clearValid_width : (clearValid s).width = s.width := rfl
@[simp] theorem clearValid_height : (clearValid s).height = s.height := rfl
@[simp] theorem clearValid_channels : (clearValid s).channels = s.channels := rfl
@[simp] theorem clearValid_outLen : (clearValid s).outLen = s.outLen := rfl
@[simp] theorem clearValid_pixLen : (clearValid s).pixLen = s.pixLen := rfl
@[simp] theorem clearValid_inm : (clearValid s).inm = s.inm := rfl
@[simp] theorem clearValid_out : (clearValid s).out = s.out := rfl
@[simp] theorem clearValid_pix : (clearValid s).pix = s.pix := rfl
@[simp] theorem clearValid_inMatch : (clearValid s).inMatch = s.inMatch := rfl
@[simp] theorem clearValid_par : (clearValid s).par = s.par := rfl
@[simp] theorem clearValid_sched : (clearValid s).sched = s.sched := rfl
@[simp] theorem clearValid_rdata : (clearValid s).rdata = s.rdata := rfl
@[simp] theorem clearValid_freeCtr : (clearValid s).freeCtr = s.freeCtr := rfl
end

section
variable (s : State)
@[simp] theorem endOfBlock_br : (endOfBlock s).br = s.br := rfl
@[simp] theorem endOfBlock_hd : (endOfBlock s).hd = s.hd := rfl
@[simp] theorem endOfBlock_opos : (endOfBlock s).opos = s.opos := rfl
@[simp] theorem endOfBlock_expected : (endOfBlock s).expected = s.expected := rfl
@[simp] theorem endOfBlock_bfinal : (endOfBlock s).bfinal = s.bfinal := rfl
@[simp] theorem endOfBlock_btype : (endOfBlock s).btype = s.btype := rfl
@[simp] theorem endOfBlock_hlit : (endOfBlock s).hlit = s.hlit := rfl
@[simp] theorem endOfBlock_hdist : (endOfBlock s).hdist = s.hdist := rfl
@[simp] theorem endOfBlock_hclen : (endOfBlock s).hclen = s.hclen := rfl
@[simp] theorem endOfBlock_lidx : (endOfBlock s).lidx = s.lidx := rfl
@[simp] theorem endOfBlock_mlen : (endOfBlock s).mlen = s.mlen := rfl
@[simp] theorem endOfBlock_mdist : (endOfBlock s).mdist = s.mdist := rfl
@[simp] theorem endOfBlock_slen : (endOfBlock s).slen = s.slen := rfl
@[simp] theorem endOfBlock_snlen : (endOfBlock s).snlen = s.snlen := rfl
@[simp] theorem endOfBlock_clt : (endOfBlock s).clt = s.clt := rfl
@[simp] theorem endOfBlock_llt : (endOfBlock s).llt = s.llt := rfl
@[simp] theorem endOfBlock_dt : (endOfBlock s).dt = s.dt := rfl
@[simp] theorem endOfBlock_cllens : (endOfBlock s).cllens = s.cllens := rfl
@[simp] theorem endOfBlock_lens : (endOfBlock s).lens = s.lens := rfl
@[simp] theorem endOfBlock_phase : (endOfBlock s).phase = if s.bfinal then .endchk else .blkhdr := rfl
@[simp] theorem endOfBlock_s1 : (endOfBlock s).s1 = s.s1 := rfl
@[simp] theorem endOfBlock_s2 : (endOfBlock s).s2 = s.s2 := rfl
@[simp] theorem endOfBlock_row : (endOfBlock s).row = s.row := rfl
@[simp] theorem endOfBlock_col : (endOfBlock s).col = s.col := rfl
@[simp] theorem endOfBlock_ft : (endOfBlock s).ft = s.ft := rfl
@[simp] theorem endOfBlock_rowbytes : (endOfBlock s).rowbytes = s.rowbytes := rfl
@[simp] theorem endOfBlock_bpp : (endOfBlock s).bpp = s.bpp := rfl
@[simp] theorem endOfBlock_err : (endOfBlock s).err = s.err := rfl
@[simp] theorem endOfBlock_inLen : (endOfBlock s).inLen = s.inLen := rfl
@[simp] theorem endOfBlock_width : (endOfBlock s).width = s.width := rfl
@[simp] theorem endOfBlock_height : (endOfBlock s).height = s.height := rfl
@[simp] theorem endOfBlock_channels : (endOfBlock s).channels = s.channels := rfl
@[simp] theorem endOfBlock_outLen : (endOfBlock s).outLen = s.outLen := rfl
@[simp] theorem endOfBlock_pixLen : (endOfBlock s).pixLen = s.pixLen := rfl
@[simp] theorem endOfBlock_inm : (endOfBlock s).inm = s.inm := rfl
@[simp] theorem endOfBlock_out : (endOfBlock s).out = s.out := rfl
@[simp] theorem endOfBlock_pix : (endOfBlock s).pix = s.pix := rfl
@[simp] theorem endOfBlock_inMatch : (endOfBlock s).inMatch = s.inMatch := rfl
@[simp] theorem endOfBlock_par : (endOfBlock s).par = s.par := rfl
@[simp] theorem endOfBlock_sched : (endOfBlock s).sched = s.sched := rfl
@[simp] theorem endOfBlock_rdata : (endOfBlock s).rdata = s.rdata := rfl
@[simp] theorem endOfBlock_freeCtr : (endOfBlock s).freeCtr = s.freeCtr := rfl
end

section
variable (base e : Nat) (s : State)
@[simp] theorem lengthElement_br : (lengthElement base e s).br = s.br := rfl
@[simp] theorem lengthElement_hd : (lengthElement base e s).hd = s.hd := rfl
@[simp] theorem lengthElement_opos : (lengthElement base e s).opos = s.opos := rfl
@[simp] theorem lengthElement_expected : (lengthElement base e s).expected = s.expected := rfl
@[simp] theorem lengthElement_bfinal : (lengthElement base e s).bfinal = s.bfinal := rfl
@[simp] theorem lengthElement_btype : (lengthElement base e s).btype = s.btype := rfl
@[simp] theorem lengthElement_hlit : (lengthElement base e s).hlit = s.hlit := rfl
@[simp] theorem lengthElement_hdist : (lengthElement base e s).hdist = s.hdist := rfl
@[simp] theorem lengthElement_hclen : (lengthElement base e s).hclen = s.hclen := rfl
@[simp] theorem lengthElement_lidx : (lengthElement base e s).lidx = s.lidx := rfl
@[simp] theorem lengthElement_mlen : (lengthElement base e s).mlen = BitVec.ofNat 9 (base + e) := rfl
@[simp] theorem lengthElement_mdist : (lengthElement base e s).mdist = s.mdist := rfl
@[simp] theorem lengthElement_slen : (lengthElement base e s).slen = s.slen := rfl
@[simp] theorem lengthElement_snlen : (lengthElement base e s).snlen = s.snlen := rfl
@[simp] theorem lengthElement_clt : (lengthElement base e s).clt = s.clt := rfl
@[simp] theorem lengthElement_llt : (lengthElement base e s).llt = s.llt := rfl
@[simp] theorem lengthElement_dt : (lengthElement base e s).dt = s.dt := rfl
@[simp] theorem lengthElement_cllens : (lengthElement base e s).cllens = s.cllens := rfl
@[simp] theorem lengthElement_lens : (lengthElement base e s).lens = s.lens := rfl
@[simp] theorem lengthElement_phase : (lengthElement base e s).phase = s.phase := rfl
@[simp] theorem lengthElement_s1 : (lengthElement base e s).s1 = s.s1 := rfl
@[simp] theorem lengthElement_s2 : (lengthElement base e s).s2 = s.s2 := rfl
@[simp] theorem lengthElement_row : (lengthElement base e s).row = s.row := rfl
@[simp] theorem lengthElement_col : (lengthElement base e s).col = s.col := rfl
@[simp] theorem lengthElement_ft : (lengthElement base e s).ft = s.ft := rfl
@[simp] theorem lengthElement_rowbytes : (lengthElement base e s).rowbytes = s.rowbytes := rfl
@[simp] theorem lengthElement_bpp : (lengthElement base e s).bpp = s.bpp := rfl
@[simp] theorem lengthElement_err : (lengthElement base e s).err = s.err := rfl
@[simp] theorem lengthElement_inLen : (lengthElement base e s).inLen = s.inLen := rfl
@[simp] theorem lengthElement_width : (lengthElement base e s).width = s.width := rfl
@[simp] theorem lengthElement_height : (lengthElement base e s).height = s.height := rfl
@[simp] theorem lengthElement_channels : (lengthElement base e s).channels = s.channels := rfl
@[simp] theorem lengthElement_outLen : (lengthElement base e s).outLen = s.outLen := rfl
@[simp] theorem lengthElement_pixLen : (lengthElement base e s).pixLen = s.pixLen := rfl
@[simp] theorem lengthElement_inm : (lengthElement base e s).inm = s.inm := rfl
@[simp] theorem lengthElement_out : (lengthElement base e s).out = s.out := rfl
@[simp] theorem lengthElement_pix : (lengthElement base e s).pix = s.pix := rfl
@[simp] theorem lengthElement_inMatch : (lengthElement base e s).inMatch = true := rfl
@[simp] theorem lengthElement_par : (lengthElement base e s).par = s.par := rfl
@[simp] theorem lengthElement_sched : (lengthElement base e s).sched = s.sched := rfl
@[simp] theorem lengthElement_rdata : (lengthElement base e s).rdata = s.rdata := rfl
@[simp] theorem lengthElement_freeCtr : (lengthElement base e s).freeCtr = s.freeCtr := rfl
end

section
variable (s : State) (f : Fetched BitReader)
@[simp] theorem fetched_br : (s.fetched f).br = f.rest := rfl
@[simp] theorem fetched_hd : (s.fetched f).hd = f.regs.getD s.hd := rfl
@[simp] theorem fetched_opos : (s.fetched f).opos = s.opos := rfl
@[simp] theorem fetched_expected : (s.fetched f).expected = s.expected := rfl
@[simp] theorem fetched_bfinal : (s.fetched f).bfinal = s.bfinal := rfl
@[simp] theorem fetched_btype : (s.fetched f).btype = s.btype := rfl
@[simp] theorem fetched_hlit : (s.fetched f).hlit = s.hlit := rfl
@[simp] theorem fetched_hdist : (s.fetched f).hdist = s.hdist := rfl
@[simp] theorem fetched_hclen : (s.fetched f).hclen = s.hclen := rfl
@[simp] theorem fetched_lidx : (s.fetched f).lidx = s.lidx := rfl
@[simp] theorem fetched_mlen : (s.fetched f).mlen = s.mlen := rfl
@[simp] theorem fetched_mdist : (s.fetched f).mdist = s.mdist := rfl
@[simp] theorem fetched_slen : (s.fetched f).slen = s.slen := rfl
@[simp] theorem fetched_snlen : (s.fetched f).snlen = s.snlen := rfl
@[simp] theorem fetched_clt : (s.fetched f).clt = s.clt := rfl
@[simp] theorem fetched_llt : (s.fetched f).llt = s.llt := rfl
@[simp] theorem fetched_dt : (s.fetched f).dt = s.dt := rfl
@[simp] theorem fetched_cllens : (s.fetched f).cllens = s.cllens := rfl
@[simp] theorem fetched_lens : (s.fetched f).lens = s.lens := rfl
@[simp] theorem fetched_phase : (s.fetched f).phase = s.phase := rfl
@[simp] theorem fetched_s1 : (s.fetched f).s1 = s.s1 := rfl
@[simp] theorem fetched_s2 : (s.fetched f).s2 = s.s2 := rfl
@[simp] theorem fetched_row : (s.fetched f).row = s.row := rfl
@[simp] theorem fetched_col : (s.fetched f).col = s.col := rfl
@[simp] theorem fetched_ft : (s.fetched f).ft = s.ft := rfl
@[simp] theorem fetched_rowbytes : (s.fetched f).rowbytes = s.rowbytes := rfl
@[simp] theorem fetched_bpp : (s.fetched f).bpp = s.bpp := rfl
@[simp] theorem fetched_err : (s.fetched f).err = s.err := rfl
@[simp] theorem fetched_inLen : (s.fetched f).inLen = s.inLen := rfl
@[simp] theorem fetched_width : (s.fetched f).width = s.width := rfl
@[simp] theorem fetched_height : (s.fetched f).height = s.height := rfl
@[simp] theorem fetched_channels : (s.fetched f).channels = s.channels := rfl
@[simp] theorem fetched_outLen : (s.fetched f).outLen = s.outLen := rfl
@[simp] theorem fetched_pixLen : (s.fetched f).pixLen = s.pixLen := rfl
@[simp] theorem fetched_inm : (s.fetched f).inm = s.inm := rfl
@[simp] theorem fetched_out : (s.fetched f).out = s.out := rfl
@[simp] theorem fetched_pix : (s.fetched f).pix = s.pix := rfl
@[simp] theorem fetched_inMatch : (s.fetched f).inMatch = s.inMatch := rfl
@[simp] theorem fetched_par : (s.fetched f).par = s.par := rfl
@[simp] theorem fetched_sched : (s.fetched f).sched = s.sched := rfl
@[simp] theorem fetched_rdata : (s.fetched f).rdata = s.rdata := rfl
@[simp] theorem fetched_freeCtr : (s.fetched f).freeCtr = s.freeCtr := rfl
end

section
variable (s : State)
@[simp] theorem startJob_br : (startJob s).br = { pos := 0, acc := 0, bitcnt := 0 } := rfl
@[simp] theorem startJob_hd : (startJob s).hd = s.hd := rfl
@[simp] theorem startJob_opos : (startJob s).opos = 0 := rfl
@[simp] theorem startJob_expected : (startJob s).expected = s.expected := rfl
@[simp] theorem startJob_bfinal : (startJob s).bfinal = false := rfl
@[simp] theorem startJob_btype : (startJob s).btype = s.btype := rfl
@[simp] theorem startJob_hlit : (startJob s).hlit = s.hlit := rfl
@[simp] theorem startJob_hdist : (startJob s).hdist = s.hdist := rfl
@[simp] theorem startJob_hclen : (startJob s).hclen = s.hclen := rfl
@[simp] theorem startJob_lidx : (startJob s).lidx = s.lidx := rfl
@[simp] theorem startJob_mlen : (startJob s).mlen = s.mlen := rfl
@[simp] theorem startJob_mdist : (startJob s).mdist = s.mdist := rfl
@[simp] theorem startJob_slen : (startJob s).slen = s.slen := rfl
@[simp] theorem startJob_snlen : (startJob s).snlen = s.snlen := rfl
@[simp] theorem startJob_clt : (startJob s).clt = { s.clt with valid := false } := rfl
@[simp] theorem startJob_llt : (startJob s).llt = { s.llt with valid := false } := rfl
@[simp] theorem startJob_dt : (startJob s).dt = { s.dt with valid := false } := rfl
@[simp] theorem startJob_cllens : (startJob s).cllens = s.cllens := rfl
@[simp] theorem startJob_lens : (startJob s).lens = s.lens := rfl
@[simp] theorem startJob_phase : (startJob s).phase = .cfg := rfl
@[simp] theorem startJob_s1 : (startJob s).s1 = 1 := rfl
@[simp] theorem startJob_s2 : (startJob s).s2 = 0 := rfl
@[simp] theorem startJob_row : (startJob s).row = 0 := rfl
@[simp] theorem startJob_col : (startJob s).col = s.col := rfl
@[simp] theorem startJob_ft : (startJob s).ft = s.ft := rfl
@[simp] theorem startJob_rowbytes : (startJob s).rowbytes = s.rowbytes := rfl
@[simp] theorem startJob_bpp : (startJob s).bpp = s.bpp := rfl
@[simp] theorem startJob_err : (startJob s).err = 0 := rfl
@[simp] theorem startJob_inLen : (startJob s).inLen = s.inLen := rfl
@[simp] theorem startJob_width : (startJob s).width = s.width := rfl
@[simp] theorem startJob_height : (startJob s).height = s.height := rfl
@[simp] theorem startJob_channels : (startJob s).channels = s.channels := rfl
@[simp] theorem startJob_outLen : (startJob s).outLen = 0 := rfl
@[simp] theorem startJob_pixLen : (startJob s).pixLen = 0 := rfl
@[simp] theorem startJob_inm : (startJob s).inm = s.inm := rfl
@[simp] theorem startJob_out : (startJob s).out = s.out := rfl
@[simp] theorem startJob_pix : (startJob s).pix = s.pix := rfl
@[simp] theorem startJob_inMatch : (startJob s).inMatch = false := rfl
@[simp] theorem startJob_par : (startJob s).par = s.par := rfl
@[simp] theorem startJob_sched : (startJob s).sched = s.sched := rfl
@[simp] theorem startJob_rdata : (startJob s).rdata = s.rdata := rfl
@[simp] theorem startJob_freeCtr : (startJob s).freeCtr = s.freeCtr := rfl
end

section
variable (s : State)
@[simp] theorem completeJob_br : (completeJob s).br = s.br := rfl
@[simp] theorem completeJob_hd : (completeJob s).hd = s.hd := rfl
@[simp] theorem completeJob_opos : (completeJob s).opos = s.opos := rfl
@[simp] theorem completeJob_expected : (completeJob s).expected = s.expected := rfl
@[simp] theorem completeJob_bfinal : (completeJob s).bfinal = s.bfinal := rfl
@[simp] theorem completeJob_btype : (completeJob s).btype = s.btype := rfl
@[simp] theorem completeJob_hlit : (completeJob s).hlit = s.hlit := rfl
@[simp] theorem completeJob_hdist : (completeJob s).hdist = s.hdist := rfl
@[simp] theorem completeJob_hclen : (completeJob s).hclen = s.hclen := rfl
@[simp] theorem completeJob_lidx : (completeJob s).lidx = s.lidx := rfl
@[simp] theorem completeJob_mlen : (completeJob s).mlen = s.mlen := rfl
@[simp] theorem completeJob_mdist : (completeJob s).mdist = s.mdist := rfl
@[simp] theorem completeJob_slen : (completeJob s).slen = s.slen := rfl
@[simp] theorem completeJob_snlen : (completeJob s).snlen = s.snlen := rfl
@[simp] theorem completeJob_clt : (completeJob s).clt = s.clt := rfl
@[simp] theorem completeJob_llt : (completeJob s).llt = s.llt := rfl
@[simp] theorem completeJob_dt : (completeJob s).dt = s.dt := rfl
@[simp] theorem completeJob_cllens : (completeJob s).cllens = s.cllens := rfl
@[simp] theorem completeJob_lens : (completeJob s).lens = s.lens := rfl
@[simp] theorem completeJob_phase : (completeJob s).phase = .done := rfl
@[simp] theorem completeJob_s1 : (completeJob s).s1 = s.s1 := rfl
@[simp] theorem completeJob_s2 : (completeJob s).s2 = s.s2 := rfl
@[simp] theorem completeJob_row : (completeJob s).row = s.row := rfl
@[simp] theorem completeJob_col : (completeJob s).col = s.col := rfl
@[simp] theorem completeJob_ft : (completeJob s).ft = s.ft := rfl
@[simp] theorem completeJob_rowbytes : (completeJob s).rowbytes = s.rowbytes := rfl
@[simp] theorem completeJob_bpp : (completeJob s).bpp = s.bpp := rfl
@[simp] theorem completeJob_err : (completeJob s).err = s.err := rfl
@[simp] theorem completeJob_inLen : (completeJob s).inLen = s.inLen := rfl
@[simp] theorem completeJob_width : (completeJob s).width = s.width := rfl
@[simp] theorem completeJob_height : (completeJob s).height = s.height := rfl
@[simp] theorem completeJob_channels : (completeJob s).channels = s.channels := rfl
@[simp] theorem completeJob_outLen : (completeJob s).outLen = s.opos := rfl
@[simp] theorem completeJob_pixLen : (completeJob s).pixLen = BitVec.ofNat 32 s.pixSize := rfl
@[simp] theorem completeJob_inm : (completeJob s).inm = s.inm := rfl
@[simp] theorem completeJob_out : (completeJob s).out = s.out := rfl
@[simp] theorem completeJob_pix : (completeJob s).pix = s.pix := rfl
@[simp] theorem completeJob_inMatch : (completeJob s).inMatch = s.inMatch := rfl
@[simp] theorem completeJob_par : (completeJob s).par = s.par := rfl
@[simp] theorem completeJob_sched : (completeJob s).sched = s.sched := rfl
@[simp] theorem completeJob_rdata : (completeJob s).rdata = s.rdata := rfl
@[simp] theorem completeJob_freeCtr : (completeJob s).freeCtr = s.freeCtr := rfl
end

@[simp] theorem raiseFault_status (e : Err) (s : State) : (raiseFault e s).status = .fault := rfl

@[simp] theorem startJob_status (s : State) : (startJob s).status = .busy := rfl

@[simp] theorem finish_ok (s t : State) : finish s (.ok t) = .next t := rfl

@[simp] theorem finish_raise (s : State) (e : Err) : finish s (.error (.raise e)) = .next (raiseFault e s) := rfl

/-- An element or phase action answers next exactly when its operation completes or raises a fault of the spec. -/
theorem finish_next {s t : State} {r : Except Stop State} (h : finish s r = .next t) :
    r = .ok t ∨ ∃ e, r = .error (.raise e) ∧ t = raiseFault e s := by
  rcases r with (e | f | r) | u <;> simp_all [finish]

end Sys2Proof.Machine
end

