-- ==== Sys2Proof/Laws/Filter.lean ====
section
/-! SUPPORT. Everything the row loop of UNFILTER can do (spec R321, R322). -/

namespace Sys2Proof.Machine

/-- What the row loop needs: the row exists, OUT holds all rows, a pixel has a byte (R321, R353). -/
structure RowReady (s : State) : Prop where
  row_lt : s.row.toNat < s.height.toNat
  expected_eq : s.expected.toNat = s.height.toNat * (1 + s.rowbytes.toNat)
  bpp_pos : 1 ≤ s.bpp.toNat

theorem GeometryInv.rowReady {s : State} (h : GeometryInv s) (hr : s.row.toNat < s.height.toNat) : RowReady s := by
  refine ⟨hr, ?_, ?_⟩
  · rw [h.expected_eq, State.cfgExpected, h.rowbytes_eq]
  · rw [h.bpp_eq]; exact h.channels_pos

theorem row_in_range {r h rb c : Nat} (hr : r < h) (hc : c < rb) : r * rb + c < h * rb := by
  have : (r + 1) * rb ≤ h * rb := Nat.mul_le_mul_right _ hr
  rw [Nat.add_mul] at this
  omega

theorem prevRow {r rb : Nat} (h : 1 ≤ r) : (r - 1) * rb + rb = r * rb := by
  obtain ⟨k, rfl⟩ : ∃ k, r = k + 1 := ⟨r - 1, by omega⟩
  rw [Nat.add_sub_cancel, Nat.add_mul, Nat.one_mul]

section
variable {s : State} (h : RowReady s) {c : Nat} (hc : c < s.rowbytes.toNat)
include h hc

theorem readOut_row : readOut (s.row.toNat * (1 + s.rowbytes.toNat) + 1 + c) s = .ok (filteredByte s c) := by
  rw [readOut, if_pos, filteredByte]
  rw [h.expected_eq, Nat.add_assoc]
  exact row_in_range h.row_lt (by omega)

theorem readLeft_ok : readLeft c s = .ok (leftByte s c) := by
  have hin := row_in_range h.row_lt hc
  have hb := h.bpp_pos
  unfold readLeft leftByte
  split
  · rw [readPix, if_pos (by rw [State.pixSize]; omega)]
  · rfl

theorem readAbove_ok : readAbove c s = .ok (aboveByte s c) := by
  have hin := row_in_range h.row_lt hc
  unfold readAbove aboveByte
  split
  · rename_i h1
    have := prevRow (rb := s.rowbytes.toNat) h1
    rw [readPix, if_pos (by rw [State.pixSize]; omega)]
  · rfl

theorem readAboveLeft_ok : readAboveLeft c s = .ok (aboveLeftByte s c) := by
  have hin := row_in_range h.row_lt hc
  unfold readAboveLeft aboveLeftByte
  split
  · rename_i h1
    have := prevRow (rb := s.rowbytes.toNat) h1.1
    rw [readPix, if_pos (by rw [State.pixSize]; omega)]
  · rfl

theorem unfilterByte_ok (pred : Byte → Byte → Byte → Byte) :
    unfilterByte pred c s = .ok { s with
      pix := Memory.write s.pix (s.row.toNat * s.rowbytes.toNat + c)
        (filteredByte s c + pred (leftByte s c) (aboveByte s c) (aboveLeftByte s c))
      col := BitVec.ofNat 34 c } := by
  have hin := row_in_range h.row_lt hc
  simp only [unfilterByte, readOut_row h hc, readLeft_ok h hc, readAbove_ok h hc, readAboveLeft_ok h hc, bind, Except.bind]
  rw [writePix, if_pos (by simpa only [State.pixSize] using hin)]

end

/-- The rest of a row from byte `c0` on: PIX holds the reconstruction of every byte of it, in terms of the PIX the loop leaves, and
nothing else changed (R321). -/
theorem unfilterLoop_spec (pred : Byte → Byte → Byte → Byte) (k : Nat) : ∀ {c0 : Nat} {s : State}, RowReady s →
    Memory.wf s.pix = true → c0 + k = s.rowbytes.toNat →
    ∃ t, unfilterLoop pred k c0 s = .ok t ∧
      t = { s with col := if k = 0 then s.col else BitVec.ofNat 34 (s.rowbytes.toNat - 1), pix := t.pix } ∧
      Memory.wf t.pix = true ∧
      (∀ c, c0 ≤ c → c < s.rowbytes.toNat → Memory.read t.pix (s.row.toNat * s.rowbytes.toNat + c) =
        filteredByte s c + pred (leftByte t c) (aboveByte t c) (aboveLeftByte t c)) ∧
      ∀ a, a < s.row.toNat * s.rowbytes.toNat + c0 ∨ s.row.toNat * s.rowbytes.toNat + s.rowbytes.toNat ≤ a →
        Memory.read t.pix a = Memory.read s.pix a := by
  induction k with
  | zero =>
    intro c0 s h hwf hk
    exact ⟨s, rfl, by simp, hwf, fun c h1 h2 => absurd h2 (by omega), fun _ _ => rfl⟩
  | succ k ih =>
    intro c0 s h hwf hk
    have hc : c0 < s.rowbytes.toNat := by omega
    set v := filteredByte s c0 + pred (leftByte s c0) (aboveByte s c0) (aboveLeftByte s c0) with hv
    set u : State := { s with pix := Memory.write s.pix (s.row.toNat * s.rowbytes.toNat + c0) v, col := BitVec.ofNat 34 c0 }
    have hstep : unfilterByte pred c0 s = .ok u := unfilterByte_ok h hc pred
    obtain ⟨t, h1, h2, h3, h4, h5⟩ := ih (c0 := c0 + 1) (s := u) ⟨h.row_lt, h.expected_eq, h.bpp_pos⟩
      (Memory.wf_write hwf _ _) (by change c0 + 1 + k = s.rowbytes.toNat; omega)
    change ∀ a, a < s.row.toNat * s.rowbytes.toNat + (c0 + 1) ∨ s.row.toNat * s.rowbytes.toNat + s.rowbytes.toNat ≤ a →
      Memory.read t.pix a = Memory.read (Memory.write s.pix (s.row.toNat * s.rowbytes.toNat + c0) v) a at h5
    have htrow : t.row = s.row := by rw [h2]
    have htrb : t.rowbytes = s.rowbytes := by rw [h2]
    have htbpp : t.bpp = s.bpp := by rw [h2]
    have hbp := h.bpp_pos
    refine ⟨t, by simp only [unfilterLoop, hstep, h1], ?_, h3, ?_, ?_⟩
    · rw [if_neg (by omega)]
      conv_lhs => rw [h2]
      by_cases hk0 : k = 0
      · have : c0 = s.rowbytes.toNat - 1 := by omega
        rw [if_pos hk0, ← this]
      · rw [if_neg hk0]
    · intro c hc0 hcr
      by_cases hceq : c = c0
      · subst hceq
        have hsame : ∀ a, a < s.row.toNat * s.rowbytes.toNat + c → Memory.read t.pix a = Memory.read s.pix a := by
          intro a ha
          rw [h5 a (.inl (by omega)), Memory.read_write hwf, if_neg (by omega)]
        have hl : leftByte t c = leftByte s c := by
          simp only [leftByte, htbpp, htrow, htrb]
          split
          · exact hsame _ (by omega)
          · rfl
        have hab : aboveByte t c = aboveByte s c := by
          simp only [aboveByte, htrow, htrb]
          split
          · rename_i h1
            have := prevRow (rb := s.rowbytes.toNat) h1
            exact hsame _ (by omega)
          · rfl
        have hal : aboveLeftByte t c = aboveLeftByte s c := by
          simp only [aboveLeftByte, htbpp, htrow, htrb]
          split
          · rename_i h1
            have := prevRow (rb := s.rowbytes.toNat) h1.1
            exact hsame _ (by omega)
          · rfl
        rw [h5 _ (.inl (by omega)), Memory.read_write hwf, if_pos rfl, hl, hab, hal]
      · exact h4 c (by omega) hcr
    · intro a ha
      rw [h5 a (by omega), Memory.read_write hwf, if_neg (by omega)]

/-- One row of UNFILTER (R321). -/
theorem unfilterRow_spec {t : Byte} {pred : Byte → Byte → Byte → Byte} {s : State} (h : RowReady s)
    (hwf : Memory.wf s.pix = true) (hrb : 1 ≤ s.rowbytes.toNat) :
    ∃ u, unfilterRow t pred s = .ok { u with row := s.row + 1 } ∧
      u = { s with ft := t, col := BitVec.ofNat 34 (s.rowbytes.toNat - 1), pix := u.pix } ∧
      Memory.wf u.pix = true ∧
      (∀ c, c < s.rowbytes.toNat → Memory.read u.pix (s.row.toNat * s.rowbytes.toNat + c) =
        filteredByte s c + pred (leftByte u c) (aboveByte u c) (aboveLeftByte u c)) ∧
      ∀ a, a < s.row.toNat * s.rowbytes.toNat ∨ s.row.toNat * s.rowbytes.toNat + s.rowbytes.toNat ≤ a →
        Memory.read u.pix a = Memory.read s.pix a := by
  obtain ⟨u, h1, h2, h3, h4, h5⟩ := unfilterLoop_spec pred s.rowbytes.toNat (c0 := 0) (s := { s with ft := t })
    ⟨h.row_lt, h.expected_eq, h.bpp_pos⟩ hwf (by simp)
  have hrow : u.row = s.row := by rw [h2]
  refine ⟨u, by simp only [unfilterRow, h1, hrow], ?_, h3, fun c hc => h4 c (by omega) hc, fun a ha => h5 a (by simpa using ha)⟩
  conv_lhs => rw [h2]
  simp only
  rw [if_neg (by omega)]

end Sys2Proof.Machine
end

