-- ==== Sys2Proof/Laws/Ops.lean ====
section
/-! SUPPORT. Everything the shared operations can do: EMIT and the loops over it (spec R135, R214, R218), code-length writes (R188,
R189) and the row loop (R321). -/

namespace Sys2Proof.Machine

/-! ## The checksum over a list (R305) -/

theorem adlerMod_eq : adlerMod = 65521 := rfl

theorem adlerFrom_append (bs cs : List Byte) : ∀ s1 s2,
    adlerFrom s1 s2 (bs ++ cs) = adlerFrom (adlerFrom s1 s2 bs).1 (adlerFrom s1 s2 bs).2 cs := by
  induction bs with
  | nil => intro s1 s2; rfl
  | cons b bs ih => intro s1 s2; exact ih _ _

theorem adlerStep_sums (b : Byte) (s : State) :
    ((adlerStep b s).s1.toNat, (adlerStep b s).s2.toNat) = adlerFrom s.s1.toNat s.s2.toNat [b] := by
  simp only [adlerStep_s1, adlerStep_s2, adlerFrom, BitVec.toNat_ofNat, adlerMod_eq, Prod.mk.injEq]
  omega

/-! ## EMIT (R214) -/

/-- `t` is `s` after the bytes `bs` went through EMIT: OUT, OPOS and the checksum changed, and besides them at most the bit
reader. -/
structure Emitted (s t : State) (bs : List Byte) : Prop where
  eq : t = { s with br := t.br, out := t.out, opos := t.opos, s1 := t.s1, s2 := t.s2 }
  opos : t.opos.toNat = s.opos.toNat + bs.length
  fits : t.opos.toNat ≤ s.expected.toNat
  wf : Memory.wf t.out = true
  bytes : ∀ j (h : j < bs.length), Memory.read t.out (s.opos.toNat + j) = bs[j]
  other : ∀ a, a < s.opos.toNat ∨ t.opos.toNat ≤ a → Memory.read t.out a = Memory.read s.out a
  sums : (t.s1.toNat, t.s2.toNat) = adlerFrom s.s1.toNat s.s2.toNat bs

theorem Emitted.nil {s : State} (hwf : Memory.wf s.out = true) (hfit : s.opos.toNat ≤ s.expected.toNat) : Emitted s s [] :=
  ⟨rfl, rfl, hfit, hwf, fun _ h => absurd h (by simp), fun _ _ => rfl, rfl⟩

theorem Emitted.expected {s t : State} {bs : List Byte} (h : Emitted s t bs) : t.expected = s.expected := by rw [h.eq]

theorem Emitted.trans {s t u : State} {bs cs : List Byte} (h : Emitted s t bs) (h' : Emitted t u cs) :
    Emitted s u (bs ++ cs) := by
  refine ⟨?_, ?_, ?_, h'.wf, ?_, ?_, ?_⟩
  · have e := h'.eq
    rw [h.eq] at e
    exact e
  · rw [h'.opos, h.opos, List.length_append]; omega
  · have := h'.fits; rwa [h.expected] at this
  · intro j hj
    rw [List.length_append] at hj
    by_cases hjb : j < bs.length
    · rw [h'.other _ (.inl (by rw [h.opos]; omega)), List.getElem_append_left hjb]
      exact h.bytes j hjb
    · rw [List.getElem_append_right (by omega)]
      have := h'.bytes (j - bs.length) (by omega)
      rw [h.opos] at this
      rwa [show s.opos.toNat + bs.length + (j - bs.length) = s.opos.toNat + j by omega] at this
  · intro a ha
    have h1 := h.opos
    have h2 := h'.opos
    rw [h'.other a (by omega), h.other a (by omega)]
  · rw [adlerFrom_append, ← h.sums]; exact h'.sums

theorem Emitted.emit {s : State} (hwf : Memory.wf s.out = true) (hfit : s.opos.toNat < s.expected.toNat) (b : Byte) :
    Machine.emit b s = .ok (emitByte b s) ∧ Emitted s (emitByte b s) [b] := by
  have hopos : (emitByte b s).opos.toNat = s.opos.toNat + 1 := by
    have := s.expected.isLt
    rw [emitByte_opos, BitVec.toNat_add]
    simp
    omega
  refine ⟨by rw [Machine.emit, if_neg (by omega)], rfl, hopos, by omega, Memory.wf_write hwf _ _, ?_, ?_, ?_⟩
  · intro j hj
    simp only [List.length_cons, List.length_nil] at hj
    have : j = 0 := by omega
    subst this
    simp [Memory.read_write hwf]
  · intro a ha
    rw [emitByte_out, Memory.read_write hwf, if_neg (by omega)]
  · exact adlerStep_sums b _

/-- Changing only the bit reader before the bytes or after them. -/
theorem Emitted.of_br {s t : State} {bs : List Byte} {br : BitReader} (h : Emitted { s with br := br } t bs) : Emitted s t bs :=
  ⟨by have := h.eq; exact this, h.opos, h.fits, h.wf, h.bytes, h.other, h.sums⟩

theorem Emitted.to_br {s t : State} {bs : List Byte} {br : BitReader} (h : Emitted s t bs) : Emitted s { t with br := br } bs :=
  ⟨by conv_lhs => rw [h.eq], h.opos, h.fits, h.wf, h.bytes, h.other, h.sums⟩

theorem Emitted.inm {s t : State} {bs : List Byte} (h : Emitted s t bs) : t.inm = s.inm := by rw [h.eq]

theorem Emitted.inLen {s t : State} {bs : List Byte} (h : Emitted s t bs) : t.inLen = s.inLen := by rw [h.eq]

/-! ## MATCHCOPY (R218) -/

/-- The bytes a match copies, as the copy makes them: byte `j` is byte `j` of what stands `d` before, which the copy extends (R73). -/
def matchBytes (m : Memory) (p d : Nat) (n : Nat) : List Byte := (List.range n).map fun j => Memory.read m (p - d + j % d)

theorem copyLoop_spec (n : Nat) : ∀ {s : State}, Memory.wf s.out = true → 1 ≤ s.mdist.toNat → s.mdist.toNat ≤ s.opos.toNat →
    s.opos.toNat + n ≤ s.expected.toNat →
    ∃ t bs, copyLoop n s = .ok t ∧ Emitted s t bs ∧ bs.length = n ∧ t.br = s.br ∧
      ∀ j, j < n → Memory.read t.out (s.opos.toNat + j) = Memory.read t.out (s.opos.toNat + j - s.mdist.toNat) := by
  induction n with
  | zero =>
    intro s hwf _ _ hfit
    exact ⟨s, [], rfl, Emitted.nil hwf (by omega), rfl, rfl, fun j hj => absurd hj (by omega)⟩
  | succ n ih =>
    intro s hwf hd hle hfit
    have hro : readOut (s.opos.toNat - s.mdist.toNat) s = .ok (Memory.read s.out (s.opos.toNat - s.mdist.toNat)) := by
      rw [readOut, if_pos (by omega)]
    set b := Memory.read s.out (s.opos.toNat - s.mdist.toNat) with hb
    obtain ⟨he, hem⟩ := Emitted.emit hwf (by omega : s.opos.toNat < s.expected.toNat) b
    have hop : (emitByte b s).opos.toNat = s.opos.toNat + 1 := hem.opos
    obtain ⟨t, bs, h1, h2, h3, h4, h5⟩ := ih (s := emitByte b s) hem.wf (by simpa using hd) (by rw [hop]; simp; omega)
      (by rw [hop]; simp; omega)
    refine ⟨t, b :: bs, ?_, hem.trans h2, by simp [h3], by rw [h4]; rfl, ?_⟩
    · simp only [copyLoop, hro, he, h1]
    · intro j hj
      have hother := h2.other
      rw [hop] at hother h5
      cases j with
      | zero =>
        rw [Nat.add_zero, hother _ (by omega), hother _ (by omega)]
        simp only [emitByte_out]
        rw [Memory.read_write hwf, if_pos rfl, Memory.read_write hwf, if_neg (by omega)]
      | succ j =>
        have := h5 j (by omega)
        rw [show s.opos.toNat + 1 + j = s.opos.toNat + (j + 1) by omega] at this
        simpa using this

/-- A copy whose bytes repeat what stands `d` before is periodic (R218, closed form). -/
theorem periodic_of_recurrence {r : Nat → Byte} {p d n : Nat} (hd : 1 ≤ d) (hle : d ≤ p)
    (h : ∀ j, j < n → r (p + j) = r (p + j - d)) : ∀ j, j < n → r (p + j) = r (p - d + j % d) := by
  intro j
  induction j using Nat.strong_induction_on with
  | _ j ih =>
    intro hj
    rw [h j hj]
    by_cases hjd : j < d
    · rw [Nat.mod_eq_of_lt hjd]; congr 1; omega
    · have := ih (j - d) (by omega) (by omega)
      rw [show p + (j - d) = p + j - d by omega] at this
      rw [this, ← Nat.mod_eq_sub_mod (by omega)]

/-- MATCHCOPY within the bytes produced and within EXPECTED copies the periodic extension (R218). -/
theorem matchCopy_spec {s : State} (hwf : Memory.wf s.out = true) (hd : 1 ≤ s.mdist.toNat) (hle : s.mdist.toNat ≤ s.opos.toNat)
    (hfit : s.opos.toNat + s.mlen.toNat ≤ s.expected.toNat) :
    ∃ t, matchCopy s = .ok t ∧ t.br = s.br ∧
      Emitted s t (matchBytes s.out s.opos.toNat s.mdist.toNat s.mlen.toNat) := by
  obtain ⟨t, bs, h1, h2, h3, h4, h5⟩ := copyLoop_spec s.mlen.toNat hwf hd hle hfit
  refine ⟨t, by rw [matchCopy, if_neg (by omega), if_neg (by omega), h1], h4, ?_⟩
  have hbs : bs = matchBytes s.out s.opos.toNat s.mdist.toNat s.mlen.toNat := by
    apply List.ext_getElem
    · simp [matchBytes, h3]
    · intro j hj hj'
      rw [← h2.bytes j hj, periodic_of_recurrence hd hle h5 j (by omega)]
      simp only [matchBytes, List.getElem_map, List.getElem_range]
      have := Nat.mod_lt j (by omega : 0 < s.mdist.toNat)
      exact h2.other _ (.inl (by omega))
  rw [← hbs]
  exact h2

/-! ## READBYTES (R135) -/

/-- The bytes of the stream at the cursor: GETBITS(8) `n` times (R135). -/
def streamBytes (inm : Memory) (bp n : Nat) : List Byte :=
  (List.range n).map fun j => BitVec.ofNat 8 (streamBits inm (bp + 8 * j) 8)

theorem streamBytes_succ (inm : Memory) (bp n : Nat) :
    streamBytes inm bp (n + 1) = BitVec.ofNat 8 (streamBits inm bp 8) :: streamBytes inm (bp + 8) n := by
  simp only [streamBytes, List.range_succ_eq_map, List.map_cons, List.map_map, Nat.mul_zero, Nat.add_zero, List.cons.injEq,
    true_and]
  apply List.map_congr_left
  intro j _
  simp only [Function.comp]
  congr 2
  omega

theorem readBytesAligned_spec (n : Nat) : ∀ {s : State}, ReaderInv s.inm s.inLen.toNat s.br → s.br.bitcnt = 0 →
    Memory.wf s.out = true → s.opos.toNat + n ≤ s.expected.toNat → s.br.pos.toNat + n ≤ s.inLen.toNat →
    ∃ t, readBytesAligned n s = .ok t ∧ Emitted s t (streamBytes s.inm s.br.bp n) ∧
      ReaderInv s.inm s.inLen.toNat t.br ∧ t.br.bp = s.br.bp + 8 * n := by
  induction n with
  | zero => intro s hr _ hwf hfit _; exact ⟨s, rfl, Emitted.nil hwf (by omega), hr, rfl⟩
  | succ n ih =>
    intro s hr h0 hwf hfit hin
    set b := Memory.read s.inm s.br.pos.toNat with hb
    obtain ⟨he, hem⟩ := Emitted.emit hwf (by omega : s.opos.toNat < s.expected.toNat) b
    have hlt := s.inLen.isLt
    have hpos : (s.br.pos + 1).toNat = s.br.pos.toNat + 1 := by rw [BitVec.toNat_add]; simp; omega
    set u : State := { emitByte b s with br := { (emitByte b s).br with pos := (emitByte b s).br.pos + 1 } } with hu
    have hubr : u.br = { s.br with pos := s.br.pos + 1 } := rfl
    have hbp : s.br.bp = 8 * s.br.pos.toNat := by rw [BitReader.bp, h0]; simp
    have hubp : u.br.bp = s.br.bp + 8 := by rw [hbp, hubr, BitReader.bp]; simp [h0]; omega
    have hur : ReaderInv s.inm s.inLen.toNat u.br := by
      refine ⟨by rw [hubr, h0]; decide, by rw [hubr]; simp only [hpos]; omega, by rw [hubr]; simp [h0], ?_⟩
      have h1 := hr.acc_eq
      have h2 := (Memory.read s.inm (s.br.pos.toNat - 1)).isLt
      have h3 := (Memory.read s.inm (u.br.pos.toNat - 1)).isLt
      simp only [h0] at h1
      rw [hubr]
      simp only [h0, h1]
      rw [Nat.div_eq_of_lt (by simpa using h2), Nat.div_eq_of_lt (by simpa using BitVec.isLt _)]
    have hop : u.opos.toNat = s.opos.toNat + 1 := hem.opos
    obtain ⟨t, h1, h2, h3, h4⟩ := ih (s := u) hur (by rw [hubr]; exact h0) hem.wf (by rw [hop]; simp [hu]; omega)
      (by rw [hubr]; simp only [hpos]; simp [hu]; omega)
    refine ⟨t, ?_, ?_, h3, by rw [h4, hubp]; omega⟩
    · simp only [readBytesAligned, ← hb, he]
      exact h1
    · have hsb : BitVec.ofNat 8 (streamBits s.inm s.br.bp 8) = b := by
        rw [hbp, streamBits_whole_byte, hb, BitVec.ofNat_toNat, BitVec.setWidth_eq]
      rw [streamBytes_succ, hsb]
      have hum : u.inm = s.inm := rfl
      rw [hubp, hum] at h2
      exact Emitted.trans hem.to_br h2

theorem stateGetbits_cases {s : State} (hw : s.par.Wf) {n : Nat} (hn : n ≤ 24) (h : ReaderInv s.inm s.inLen.toNat s.br) :
    (8 * s.inLen.toNat < s.br.bp + n ∧ stateGetbits n s = .error (.raise .inputExhausted)) ∨
    ∃ br, stateGetbits n s = .ok (streamBits s.inm s.br.bp n, { s with br := br }) ∧ ReaderInv s.inm s.inLen.toNat br ∧
      br.bp = s.br.bp + n ∧ s.br.bp + n ≤ 8 * s.inLen.toNat := by
  rcases getbits_cases s.inLen.isLt hw hn h with ⟨h1, h2⟩ | ⟨r, h1, h2, h3, h4⟩
  · exact .inl ⟨h1, by rw [stateGetbits, h2]; rfl⟩
  · exact .inr ⟨r, by rw [stateGetbits, h1], h2, h3, h4⟩

theorem readBytesShifted_spec (n : Nat) : ∀ {s : State}, s.par.Wf → ReaderInv s.inm s.inLen.toNat s.br → Memory.wf s.out = true →
    s.opos.toNat + n ≤ s.expected.toNat →
    (8 * s.inLen.toNat < s.br.bp + 8 * n ∧ readBytesShifted n s = .error (.raise .inputExhausted)) ∨
    ∃ t, readBytesShifted n s = .ok t ∧ Emitted s t (streamBytes s.inm s.br.bp n) ∧
      ReaderInv s.inm s.inLen.toNat t.br ∧ t.br.bp = s.br.bp + 8 * n ∧ s.br.bp + 8 * n ≤ 8 * s.inLen.toNat := by
  induction n with
  | zero => intro s hw hr hwf hfit; exact .inr ⟨s, rfl, Emitted.nil hwf (by omega), hr, rfl, hr.bp_le⟩
  | succ n ih =>
    intro s hw hr hwf hfit
    rcases stateGetbits_cases hw (by omega : 8 ≤ 24) hr with ⟨h1, h2⟩ | ⟨br, h1, h2, h3, h4⟩
    · exact .inl ⟨by omega, by simp only [readBytesShifted, h2]⟩
    · set s' : State := { s with br := br } with hs'
      obtain ⟨he, hem⟩ := Emitted.emit (s := s') hwf (by simp only [hs']; omega) (BitVec.ofNat 8 (streamBits s.inm s.br.bp 8))
      generalize hb : (BitVec.ofNat 8 (streamBits s.inm s.br.bp 8) : Byte) = b at he hem
      have hop : (emitByte b s').opos.toNat = s.opos.toNat + 1 := hem.opos
      have hbr : (emitByte b s').br = br := rfl
      have hexp : (emitByte b s').expected = s.expected := rfl
      have hinm : (emitByte b s').inm = s.inm := rfl
      have hinl : (emitByte b s').inLen = s.inLen := rfl
      rcases ih (s := emitByte b s') hw (by rw [hbr, hinm, hinl]; exact h2) hem.wf (by rw [hop, hexp]; omega) with
        ⟨h5, h6⟩ | ⟨t, h5, h6, h7, h8, h9⟩
      · rw [hbr, hinl, h3] at h5
        exact .inl ⟨by omega, by simp only [readBytesShifted, h1]; rw [hb, he]; exact h6⟩
      · rw [hbr, hinm, h3] at h6
        rw [hinm, hinl] at h7
        rw [hbr, h3] at h8
        rw [hbr, hinl, h3] at h9
        refine .inr ⟨t, by simp only [readBytesShifted, h1]; rw [hb, he]; exact h5, ?_, h7, by omega, by omega⟩
        rw [streamBytes_succ, hb]
        exact Emitted.of_br (Emitted.trans hem h6)

/-- READBYTES(len), where the output has room: it fails exactly when IN ends first, else the bytes of the stream enter OUT and BP
moves past them, on both paths (R135). -/
theorem readBytes_spec {s : State} (n : Nat) (hw : s.par.Wf) (hr : ReaderInv s.inm s.inLen.toNat s.br) (hwf : Memory.wf s.out = true)
    (hfit : s.opos.toNat + n ≤ s.expected.toNat) :
    (8 * s.inLen.toNat < s.br.bp + 8 * n ∧ readBytes n s = .error (.raise .inputExhausted)) ∨
    ∃ t, readBytes n s = .ok t ∧ Emitted s t (streamBytes s.inm s.br.bp n) ∧
      ReaderInv s.inm s.inLen.toNat t.br ∧ t.br.bp = s.br.bp + 8 * n ∧ s.br.bp + 8 * n ≤ 8 * s.inLen.toNat := by
  by_cases h0 : s.br.bitcnt = 0
  · have hbp : s.br.bp = 8 * s.br.pos.toNat := by rw [BitReader.bp, h0]; simp
    simp only [readBytes, h0, if_true]
    by_cases hin : s.inLen.toNat < s.br.pos.toNat + n
    · exact .inl ⟨by omega, by rw [if_pos hin]⟩
    · rw [if_neg hin]
      obtain ⟨t, h1, h2, h3, h4⟩ := readBytesAligned_spec n hr h0 hwf hfit (by omega)
      exact .inr ⟨t, h1, h2, h3, h4, by omega⟩
  · simp only [readBytes, h0, if_false]
    exact readBytesShifted_spec n hw hr hwf hfit

/-! ## Code lengths (R188, R189) -/

/-- Entries `a` to `a + r - 1` set to `v`. -/
def fillLens (lens : Vector (BitVec 4) 320) (a r : Nat) (v : BitVec 4) : Vector (BitVec 4) 320 :=
  Vector.ofFn fun k : Fin 320 => if a ≤ k.val ∧ k.val < a + r then v else lens[k]

theorem setLens_spec (r : Nat) : ∀ {s : State} {v : BitVec 4}, s.lidx.toNat + r ≤ 320 →
    setLens r v s = .ok { s with lens := fillLens s.lens s.lidx.toNat r v, lidx := BitVec.ofNat 9 (s.lidx.toNat + r) } := by
  induction r with
  | zero =>
    intro s v h
    have h1 : fillLens s.lens s.lidx.toNat 0 v = s.lens := by
      apply Vector.ext
      intro k hk
      simp only [fillLens, Vector.getElem_ofFn, Fin.getElem_fin]
      rw [if_neg (by omega)]
    simp [setLens, h1]
  | succ r ih =>
    intro s v h
    have hl : (s.lidx + 1).toNat = s.lidx.toNat + 1 := by rw [BitVec.toNat_add]; simp; omega
    simp only [setLens, setLen]
    rw [if_pos (by omega)]
    simp only
    rw [ih (by simp only [hl]; omega)]
    have h1 : fillLens (s.lens.setIfInBounds s.lidx.toNat v) (s.lidx.toNat + 1) r v = fillLens s.lens s.lidx.toNat (r + 1) v := by
      apply Vector.ext
      intro k hk
      simp only [fillLens, Vector.getElem_ofFn, Fin.getElem_fin, Vector.getElem_setIfInBounds]
      by_cases h1 : s.lidx.toNat + 1 ≤ k ∧ k < s.lidx.toNat + 1 + r
      · rw [if_pos h1, if_pos (by omega)]
      · rw [if_neg h1]
        by_cases h2 : s.lidx.toNat = k
        · rw [if_pos h2, if_pos (by omega)]
        · rw [if_neg h2, if_neg (by omega)]
    simp only [hl]
    rw [h1, show s.lidx.toNat + 1 + r = s.lidx.toNat + (r + 1) by omega]

end Sys2Proof.Machine
end

