-- ==== Sys2Proof/Laws/Exec.lean ====
section
/-! SUPPORT. What executing an element can do, by the context it was decoded in: one lemma a format (spec R107). -/

namespace Sys2Proof.Machine

/-! ## From a decoded symbol to the meaning it has -/

/-- A block header (R93, R171): its body's phase follows, or ErrBlockType. -/
theorem blkInstr_exec (f : Bool) (ty : BitVec 2) :
    (ty = 3 ∧ ∀ u, exec (blkInstr f ty) u = .next (raiseFault .blockType u)) ∨
    ∃ body, (ty = 0 ∧ body = .stored ∨ ty = 1 ∧ body = .symloop ∨ ty = 2 ∧ body = .dynhdr) ∧
      ∀ u, exec (blkInstr f ty) u = .next (latchHeader f ty body u) := by
  have h : ty = 0 ∨ ty = 1 ∨ ty = 2 ∨ ty = 3 := by revert ty; decide
  rcases h with rfl | rfl | rfl | rfl
  · exact .inr ⟨.stored, .inl ⟨rfl, rfl⟩, fun _ => rfl⟩
  · exact .inr ⟨.symloop, .inr (.inl ⟨rfl, rfl⟩), fun _ => rfl⟩
  · exact .inr ⟨.dynhdr, .inr (.inr ⟨rfl, rfl⟩), fun _ => rfl⟩
  · exact .inl ⟨rfl, fun _ => rfl⟩

/-- A code-length symbol (R97): one length, the previous length again, or zeros. -/
theorem clInstr_exec {n e : Nat} {i : Instr} (h : clInstr n e = some i) :
    (∃ v : BitVec 4, ∀ u, exec i u = finish u (setLen v u)) ∨
    (n = 16 ∧ ∃ x : BitVec 2, ∀ u, exec i u = finish u (repeatPrevious x.toNat u)) ∨
    ∃ r, 3 ≤ r ∧ r ≤ 138 ∧ ∀ u, exec i u = finish u (repeatLen 0 r u) := by
  by_cases hn : n < 19
  · interval_cases n <;> simp only [clInstr, Option.some.injEq] at h <;> subst h
    all_goals first
      | exact .inl ⟨_, fun _ => rfl⟩
      | exact .inr (.inl ⟨rfl, _, fun _ => rfl⟩)
      | exact .inr (.inr ⟨3 + (BitVec.ofNat 3 e).toNat, by omega, by have := (BitVec.ofNat 3 e).isLt; omega, fun _ => rfl⟩)
      | exact .inr (.inr ⟨11 + (BitVec.ofNat 7 e).toNat, by omega, by have := (BitVec.ofNat 7 e).isLt; omega, fun _ => rfl⟩)
  · have : clInstr n e = none := by
      unfold clInstr
      split <;> first | omega | rfl
    rw [this] at h
    cases h

/-- A field of `n` bits used as a number. -/
theorem field_lt (n e : Nat) : (BitVec.ofNat n e).toNat < 2 ^ n := BitVec.isLt _

/-- A literal/length symbol (R98, R212): a literal, the end of the block, a length, or a reserved symbol. -/
theorem llInstr_exec {n e : Nat} {i : Instr} (h : llInstr n e = some i) :
    (∃ b, ∀ u, exec i u = finish u (emit b u)) ∨ (∀ u, exec i u = .next (endOfBlock u)) ∨
    (∃ base x, 3 ≤ base + x ∧ base + x ≤ 258 ∧ ∀ u, exec i u = .next (lengthElement base x u)) ∨
    ∀ u, exec i u = .next (raiseFault .badLitLenSym u) := by
  unfold llInstr at h
  split at h
  · simp only [Option.some.injEq] at h
    subst h
    exact .inl ⟨_, fun _ => rfl⟩
  · generalize n - 256 = k at h
    by_cases hk : k < 32
    · have f1 := field_lt 1 e
      have f2 := field_lt 2 e
      have f3 := field_lt 3 e
      have f4 := field_lt 4 e
      have f5 := field_lt 5 e
      norm_num only at f1 f2 f3 f4 f5
      interval_cases k <;> simp only [lenInstr, Option.some.injEq] at h <;> subst h
      all_goals first
        | exact .inr (.inl fun _ => rfl)
        | exact .inr (.inr (.inl ⟨_, _, by omega, by omega, fun _ => rfl⟩))
        | exact .inr (.inr (.inr fun _ => rfl))
    · have : lenInstr k e = none := by
        unfold lenInstr
        split <;> first | omega | rfl
      rw [this] at h
      cases h

/-- A distance symbol (R100, R250): a distance and its match, or a reserved symbol. -/
theorem dInstr_exec {n e : Nat} {i : Instr} (h : dInstr n e = some i) :
    (∃ base x, 1 ≤ base + x ∧ base + x ≤ 32768 ∧ ∀ u, exec i u = finish u (distanceElement base x u)) ∨
    ∀ u, exec i u = .next (raiseFault .badDistSym u) := by
  by_cases hn : n < 32
  · have f1 := field_lt 1 e
    have f2 := field_lt 2 e
    have f3 := field_lt 3 e
    have f4 := field_lt 4 e
    have f5 := field_lt 5 e
    have f6 := field_lt 6 e
    have f7 := field_lt 7 e
    have f8 := field_lt 8 e
    have f9 := field_lt 9 e
    have f10 := field_lt 10 e
    have f11 := field_lt 11 e
    have f12 := field_lt 12 e
    have f13 := field_lt 13 e
    norm_num only at f1 f2 f3 f4 f5 f6 f7 f8 f9 f10 f11 f12 f13
    interval_cases n <;> simp only [dInstr, Option.some.injEq] at h <;> subst h
    all_goals first
      | exact .inl ⟨_, _, by omega, by omega, fun _ => rfl⟩
      | exact .inr fun _ => rfl
  · have : dInstr n e = none := by
      unfold dInstr
      split <;> first | omega | rfl
    rw [this] at h
    cases h

/-- A filter-type byte (R321, R328): one row, or ErrBadFilterType. -/
theorem filterInstr_exec (b : Byte) :
    (∃ pred, ∀ u, exec (filterInstr b) u = finish u (unfilterRow b pred u)) ∨
    ∀ u, exec (filterInstr b) u = .next (raiseFault .badFilterType u) := by
  by_cases hb : b.toNat < 5
  · have h : b = 0 ∨ b = 1 ∨ b = 2 ∨ b = 3 ∨ b = 4 := by
      have : b = BitVec.ofNat 8 b.toNat := by simp
      interval_cases b.toNat <;> simp_all
    rcases h with rfl | rfl | rfl | rfl | rfl
    all_goals exact .inl ⟨_, fun _ => rfl⟩
  · have : filterInstr b = .ftRsvd b := by
      unfold filterInstr
      split <;> first | omega | rfl
    rw [this]
    exact .inr fun _ => rfl

/-! ## Decoding fails only where IN ends -/

theorem clInstr_total {n : Nat} (h : n < 19) (e : Nat) : ∃ i, clInstr n e = some i := by
  interval_cases n <;> exact ⟨_, rfl⟩

theorem llInstr_total {n : Nat} (h : n < 288) (e : Nat) : ∃ i, llInstr n e = some i := by
  unfold llInstr
  split
  · exact ⟨_, rfl⟩
  · have : n - 256 < 32 := by omega
    generalize n - 256 = k at this
    interval_cases k <;> exact ⟨_, rfl⟩

theorem dInstr_total {n : Nat} (h : n < 32) (e : Nat) : ∃ i, dInstr n e = some i := by
  interval_cases n <;> exact ⟨_, rfl⟩

theorem decodeCoded_error {n : Nat} {T : HuffTable} (hT : HuffTableWf n T) (hn : n ≤ 288) {extra : Nat → Nat}
    (hextra : ∀ s, extra s ≤ 24) {mk : Nat → Nat → Option Instr} (hmk : ∀ s e, s < n → ∃ i, mk s e = some i) {x : BitString}
    {err : DecodeError} (h : decodeCoded bitStringSource T extra mk x = .error err) : err = .exhausted := by
  simp only [decodeCoded] at h
  rcases hdecode_complete hT hn x with ⟨-, hd⟩ | ⟨r, y, L, k, hd, hm, -, -⟩
  · rw [hd] at h
    simp only [Except.error.injEq] at h
    exact h.symm
  · rw [hd] at h
    simp only at h
    rw [bitString_get (hextra _)] at h
    split at h
    · rename_i e1 heq
      split at heq
      · cases heq
      · simp only [Except.error.injEq] at heq h
        rw [← h, ← heq]
    · rename_i v z heq
      obtain ⟨i, hi⟩ := hmk r.sym.toNat v (hm.sym_lt hT)
      rw [hi] at h
      cases h

theorem bitString_get_error {n : Nat} (hn : n ≤ 24) {x : BitString} {e : DecodeError}
    (h : bitStringSource.get n x = .error e) : e = .exhausted := by
  rw [bitString_get hn] at h
  split at h
  · cases h
  · simp only [Except.error.injEq] at h; exact h.symm

theorem getLengths_error (k : Nat) : ∀ {x : BitString} {e : DecodeError}, getLengths bitStringSource k x = .error e →
    e = .exhausted := by
  induction k with
  | zero => intro x e h; cases h
  | succ k ih =>
    intro x e h
    simp only [getLengths] at h
    split at h
    · rename_i e1 heq
      simp only [Except.error.injEq] at h
      rw [← h]
      exact bitString_get_error (by omega) heq
    · split at h
      · rename_i e1 heq
        simp only [Except.error.injEq] at h
        rw [← h]
        exact ih heq
      · cases h

theorem Except.bind_error {ε α β : Type} {p : Except ε α} {k : α → Except ε β} {e : ε} (h : (p >>= k) = .error e) :
    p = .error e ∨ ∃ a, p = .ok a ∧ k a = .error e := by
  cases p with
  | error e' =>
    have h' : (Except.error e' : Except ε β) = .error e := h
    simp only [Except.error.injEq] at h'
    exact .inl (by rw [h'])
  | ok a => exact .inr ⟨a, rfl, h⟩

/-- Decoding with accepted tables fails only where the bits end (R157, R359). -/
theorem decode_error {c : Ctx} (hc : CtxWf c) {x : BitString} {e : DecodeError} (h : decode bitStringSource c x = .error e) :
    e = .exhausted := by
  have step : ∀ {α β : Type} {n : Nat} {y : BitString} {k : Nat × BitString → Except DecodeError β}, n ≤ 24 →
      (bitStringSource.get n y >>= k) = .error e → e = .exhausted ∨ ∃ a, k a = .error e := by
    intro _ _ n y k hn h
    rcases Except.bind_error h with h | ⟨a, -, h⟩
    · exact .inl (bitString_get_error hn h)
    · exact .inr ⟨a, h⟩
  cases c with
  | cl T p =>
    exact decodeCoded_error hc (by omega) (fun s => by have := clExtraRead_le p s; omega) (fun s e hs => clInstr_total hs e) h
  | ll T => exact decodeCoded_error hc (by omega) (fun s => by have := llExtra_le s; omega) (fun s e hs => llInstr_total hs e) h
  | d T => exact decodeCoded_error hc (by omega) (fun s => by have := dExtra_le s; omega) (fun s e hs => dInstr_total hs e) h
  | ft =>
    rcases step (α := Nat) (by omega) h with h | ⟨a, h⟩
    · exact h
    · cases h
  | zh =>
    rcases step (α := Nat) (by omega) h with h | ⟨a, h⟩
    · exact h
    · rcases step (α := Nat) (by omega) h with h | ⟨a, h⟩
      · exact h
      · cases h
  | bh =>
    rcases step (α := Nat) (by omega) h with h | ⟨a, h⟩
    · exact h
    · rcases step (α := Nat) (by omega) h with h | ⟨a, h⟩
      · exact h
      · cases h
  | st =>
    rcases step (α := Nat) (by omega) h with h | ⟨a, h⟩
    · exact h
    · rcases step (α := Nat) (by omega) h with h | ⟨a, h⟩
      · exact h
      · cases h
  | dh =>
    rcases step (α := Nat) (by omega) h with h | ⟨a, h⟩
    · exact h
    rcases step (α := Nat) (by omega) h with h | ⟨b, h⟩
    · exact h
    rcases step (α := Nat) (by omega) h with h | ⟨c, h⟩
    · exact h
    rcases Except.bind_error h with h | ⟨d, -, h⟩
    · exact getLengths_error _ h
    · cases h
  | tr =>
    rcases step (α := Nat) (by omega) h with h | ⟨a, h⟩
    · exact h
    rcases step (α := Nat) (by omega) h with h | ⟨b, h⟩
    · exact h
    rcases step (α := Nat) (by omega) h with h | ⟨c, h⟩
    · exact h
    rcases step (α := Nat) (by omega) h with h | ⟨d, h⟩
    · exact h
    · cases h

end Sys2Proof.Machine
end

