-- ==== Sys2Proof/Laws/Step.lean ====
section
/-! SUPPORT. Everything a step of a running job can do, said once (spec R14, R171, R409): from a state that satisfies the invariant the core
always answers a next state, and that state is one of these. -/

namespace Sys2Proof.Machine

/-- `u` is `s` after an element has been read: the reader has moved past it, and HDECODE's registers may have changed. -/
structure Read (s u : State) : Prop where
  eq : u = { s with br := u.br, hd := u.hd }
  inv : ReaderInv s.inm s.inLen.toNat u.br
  lt : s.br.bp < u.br.bp

theorem Read.par {s u : State} (h : Read s u) : u.par = s.par := by rw [h.eq]

/-- Fetching an element of IN: the decoder of the bit string of the reader says which, or how it fails (R136). -/
theorem fetchElement_cases {s : State} (hw : s.par.Wf) (hr : ReaderInv s.inm s.inLen.toNat s.br) (c : Ctx) :
    (∃ e, decode bitStringSource c (readerString s.inm s.inLen.toNat s.br) = .error e ∧
      fetchElement c s = .stop (decodeStop e)) ∨
    ∃ g u, decode bitStringSource c (readerString s.inm s.inLen.toNat s.br) = .ok g ∧ fetchElement c s = .run g.instr u ∧
      Read s u ∧ u.hd = g.regs.getD s.hd := by
  rcases decode_reader s.inLen.isLt hw hr c with ⟨e, h1, h2⟩ | ⟨f, g, h1, h2, h3, h4, h5, h6, -⟩
  · exact .inl ⟨e, h2, by simp only [fetchElement, h1]⟩
  · refine .inr ⟨g, s.fetched f, h2, by simp only [fetchElement, h1, h3], ⟨rfl, h5, h6⟩, ?_⟩
    rw [← h4]; rfl

/-- DICTID: `k` bytes skipped (R303). -/
theorem skipBytes_spec (k : Nat) : ∀ {s : State}, s.par.Wf → ReaderInv s.inm s.inLen.toNat s.br →
    (8 * s.inLen.toNat < s.br.bp + 8 * k ∧ skipBytes k s = .error (.raise .inputExhausted)) ∨
    ∃ br, skipBytes k s = .ok { s with br := br } ∧ ReaderInv s.inm s.inLen.toNat br ∧ br.bp = s.br.bp + 8 * k := by
  induction k with
  | zero => intro s _ hr; exact .inr ⟨s.br, rfl, hr, rfl⟩
  | succ k ih =>
    intro s hw hr
    rcases stateGetbits_cases hw (by omega : 8 ≤ 24) hr with ⟨h1, h2⟩ | ⟨br, h1, h2, h3, h4⟩
    · exact .inl ⟨by omega, by simp only [skipBytes, h2]⟩
    · rcases ih (s := { s with br := br }) hw h2 with ⟨h5, h6⟩ | ⟨br', h5, h6, h7⟩
      · simp only [h3] at h5
        exact .inl ⟨by omega, by simp only [skipBytes, h1, h6]⟩
      · simp only [h3] at h7
        exact .inr ⟨br', by simp only [skipBytes, h1, h5], h6, by omega⟩

/-- The steps of a running job. -/
inductive JobStep (s : State) : State → Prop
  /-- fault entry from the state before the element, or after it was read (R360) -/
  | fault (e : Err) (u : State) (hu : u = { s with br := u.br, hd := u.hd }) : JobStep s (raiseFault e u)
  /-- CFG passed (R353) -/
  | config (t : State) (hp : s.phase = .cfg) (hok : configCheck s = .ok t) : JobStep s t
  /-- ZHDR passed (R301 to R304) -/
  | header (u : State) (hp : s.phase = .zhdr) (hu : Read s u) : JobStep s { u with phase := .blkhdr }
  /-- a block header (R172) -/
  | block (u : State) (f : Bool) (ty : BitVec 2) (body : Phase) (hp : s.phase = .blkhdr) (hu : Read s u)
      (hbody : ty = 0 ∧ body = .stored ∨ ty = 1 ∧ body = .symloop ∨ ty = 2 ∧ body = .dynhdr) :
      JobStep s (latchHeader f ty body u)
  /-- a stored body (R177) -/
  | stored (u v : State) (len nlen : BitVec 16) (bs : List Byte) (hp : s.phase = .stored) (hu : Read s u)
      (hv : Emitted { u with slen := len, snlen := nlen } v bs) (hr : ReaderInv s.inm s.inLen.toNat v.br)
      (hle : u.br.bp ≤ v.br.bp) : JobStep s (endOfBlock v)
  /-- a dynamic header (R183 to R185) -/
  | dynamic (u : State) (a b : BitVec 5) (c : BitVec 4) (ls : List (BitVec 3)) (T : HuffTable) (hp : s.phase = .dynhdr)
      (hu : Read s u) (hT : HuffTableWf 19 T) : JobStep s { dynhdrRegs a b c ls u with clt := T }
  /-- a code-length symbol (R188 to R192) -/
  | lengths (u : State) (lens : Vector (BitVec 4) 320) (n : Nat) (hp : s.phase = .dynlens) (hu : Read s u)
      (hlt : s.lidx.toNat < n) (hle : n ≤ s.totalLens) : JobStep s { u with lens := lens, lidx := BitVec.ofNat 9 n }
  /-- DYNBUILD (R193) -/
  | tables (ll d : HuffTable) (hp : s.phase = .dynlens) (hdone : s.lidx.toNat = s.totalLens) (hll : build s.llLens = .ok ll)
      (hd : build s.dLens = .ok d) : JobStep s { s with llt := ll, dt := d, phase := .symloop }
  /-- LIT (R213) -/
  | literal (u : State) (b : Byte) (hp : s.phase = .symloop) (hm : s.inMatch = false) (hu : Read s u)
      (hfit : s.opos.toNat < s.expected.toNat) : JobStep s (emitByte b u)
  /-- EOB (R215) -/
  | eob (u : State) (hp : s.phase = .symloop) (hm : s.inMatch = false) (hu : Read s u) : JobStep s (endOfBlock u)
  /-- a length code (R216, R217) -/
  | length (u : State) (base x : Nat) (hp : s.phase = .symloop) (hm : s.inMatch = false) (hu : Read s u) (h1 : 3 ≤ base + x)
      (h2 : base + x ≤ 258) : JobStep s (lengthElement base x u)
  /-- a distance code and its match (R250, R218) -/
  | copy (u v : State) (base x : Nat) (hp : s.phase = .symloop) (hm : s.inMatch = true) (hu : Read s u) (h1 : 1 ≤ base + x)
      (h2 : base + x ≤ s.opos.toNat) (hbr : v.br = u.br)
      (hv : Emitted { u with mdist := BitVec.ofNat 16 (base + x), inMatch := false } v
        (matchBytes s.out s.opos.toNat (base + x) s.mlen.toNat)) : JobStep s v
  /-- ENDCHK passed (R194) -/
  | endchk (hp : s.phase = .endchk) (heq : s.opos = s.expected) : JobStep s { s with phase := .trailer }
  /-- ZTRL passed (R306) -/
  | trailer (u : State) (hp : s.phase = .trailer) (hu : Read s u) : JobStep s { u with phase := .unfilter }
  /-- one row of UNFILTER (R321) -/
  | row (u : State) (b : Byte) (hp : s.phase = .unfilter) (hrow : s.row.toNat < s.height.toNat)
      (hu : u = { s with ft := b, col := BitVec.ofNat 34 (s.rowbytes.toNat - 1), pix := u.pix })
      (hwf : Memory.wf u.pix = true)
      (hother : ∀ a, a < s.row.toNat * s.rowbytes.toNat ∨ s.row.toNat * s.rowbytes.toNat + s.rowbytes.toNat ≤ a →
        Memory.read u.pix a = Memory.read s.pix a) : JobStep s { u with row := s.row + 1 }
  /-- completion after the last row (R361) -/
  | done (hp : s.phase = .unfilter) (hrow : s.row.toNat = s.height.toNat) : JobStep s (completeJob s)

theorem Phase.status_busy {p : Phase} : p.status = .busy ↔ p ≠ .idle ∧ p ≠ .done ∧ p ≠ .fault := by cases p <;> decide

/-- An operation run by `finish` either completes or raises a fault of the spec. -/
theorem finish_cases {u : State} {r : Except Stop State} {Q : State → Prop} (hok : ∀ t, r = .ok t → Q t)
    (hr : (∃ t, r = .ok t) ∨ ∃ e, r = .error (.raise e)) (hf : ∀ e, Q (raiseFault e u)) : ∃ t, finish u r = .next t ∧ Q t := by
  rcases hr with ⟨t, h⟩ | ⟨e, h⟩
  · exact ⟨t, by rw [h]; rfl, hok t h⟩
  · exact ⟨_, by rw [h]; rfl, hf e⟩

section
variable {s : State} (hi : Inv s)
include hi

/-- From a fetched element to the step: either the fetch faults, or the element runs. -/
theorem element_step (hb : s.busy) {c : Ctx} (hc : CtxWf c) (hf : fetch s = fetchElement c s)
    (hrun : ∀ g u, decode bitStringSource c (readerString s.inm s.inLen.toNat s.br) = .ok g → Read s u →
      u.hd = g.regs.getD s.hd → ∃ t, exec g.instr u = .next t ∧ JobStep s t) :
    ∃ t, coreStep s = .next t ∧ JobStep s t := by
  rcases fetchElement_cases hi.par (hi.reader hb) c with ⟨e, h1, h2⟩ | ⟨g, u, h1, h2, h3, h4⟩
  · have he := decode_error hc h1
    subst he
    refine ⟨raiseFault .inputExhausted s, ?_, .fault _ _ rfl⟩
    simp only [coreStep, hf, h2]
    rfl
  · obtain ⟨t, h5, h6⟩ := hrun g u h1 h3 h4
    exact ⟨t, by simp only [coreStep, hf, h2, h5], h6⟩

omit hi in
theorem fetch_of_ctx {c : Ctx} (hp : s.phase ≠ .unfilter) (hc : elementCtx s = some c) : fetch s = fetchElement c s := by
  simp only [fetch]
  rw [if_neg (by simp [hp]), hc]

omit hi in
theorem busy_of_phase {p : Phase} (hp : s.phase = p) (h : p.status = .busy) : s.busy := by
  rw [State.busy, State.status, hp, h]

omit hi in
theorem cfg_step (hp : s.phase = .cfg) : ∃ t, coreStep s = .next t ∧ JobStep s t := by
  have hf : fetch s = .none := by
    simp only [fetch, hp, elementCtx]
    rw [if_neg (by simp)]
  simp only [coreStep, hf, phaseAction, hp]
  refine finish_cases (fun t h => .config t hp h) ?_ (fun e => .fault e s rfl)
  simp only [configCheck]
  split
  · exact .inr ⟨_, rfl⟩
  · split
    · exact .inr ⟨_, rfl⟩
    · exact .inl ⟨_, rfl⟩

theorem zhdr_step (hp : s.phase = .zhdr) : ∃ t, coreStep s = .next t ∧ JobStep s t := by
  refine element_step hi (busy_of_phase hp rfl) (c := .zh) trivial (fetch_of_ctx (by simp [hp]) (by simp [elementCtx, hp])) ?_
  intro g u hg hu hhd
  obtain ⟨⟨cmf, y⟩, -, hg⟩ := Except.bind_ok hg
  obtain ⟨⟨flg, z⟩, -, hg⟩ := Except.bind_ok hg
  simp only [Except.ok.injEq] at hg
  subst hg
  change ∃ t, finish u (headerCheck _ _ u) = _ ∧ _
  generalize BitVec.ofNat 8 cmf = a
  generalize BitVec.ofNat 8 flg = b
  have hfault : ∀ e, JobStep s (raiseFault e u) := fun e => .fault e u hu.eq
  simp only [headerCheck]
  split
  · exact ⟨_, rfl, hfault _⟩
  · split
    · exact ⟨_, rfl, hfault _⟩
    · split
      · split
        · exact ⟨_, rfl, hfault _⟩
        · have hinm : u.inm = s.inm := by rw [hu.eq]
          have hinl : u.inLen = s.inLen := by rw [hu.eq]
          have hinv : ReaderInv u.inm u.inLen.toNat u.br := by rw [hinm, hinl]; exact hu.inv
          rcases skipBytes_spec 4 (s := { u with phase := .blkhdr }) (hu.par ▸ hi.par) hinv with ⟨-, h⟩ | ⟨br, h, h1, h2⟩
          · rw [h]; exact ⟨_, rfl, hfault _⟩
          · rw [h]
            have hlt := hu.lt
            refine ⟨_, rfl, .header { u with br := br } hp ⟨?_, ?_, ?_⟩⟩
            · conv_lhs => rw [hu.eq]
            · have h1' : ReaderInv u.inm u.inLen.toNat br := h1
              rw [hinm, hinl] at h1'
              exact h1'
            · have h2' : br.bp = u.br.bp + 8 * 4 := h2
              change s.br.bp < br.bp
              omega
      · exact ⟨_, rfl, .header u hp hu⟩

theorem blkhdr_step (hp : s.phase = .blkhdr) : ∃ t, coreStep s = .next t ∧ JobStep s t := by
  refine element_step hi (busy_of_phase hp rfl) (c := .bh) trivial (fetch_of_ctx (by simp [hp]) (by simp [elementCtx, hp])) ?_
  intro g u hg hu hhd
  obtain ⟨⟨f, y⟩, -, hg⟩ := Except.bind_ok hg
  obtain ⟨⟨ty, z⟩, -, hg⟩ := Except.bind_ok hg
  simp only [Except.ok.injEq] at hg
  subst hg
  rcases blkInstr_exec (f == 1) (BitVec.ofNat 2 ty) with ⟨-, h⟩ | ⟨body, hbody, h⟩
  · exact ⟨_, h u, .fault _ u hu.eq⟩
  · exact ⟨_, h u, .block u _ _ body hp hu hbody⟩

theorem stored_step (hp : s.phase = .stored) : ∃ t, coreStep s = .next t ∧ JobStep s t := by
  refine element_step hi (busy_of_phase hp rfl) (c := .st) trivial (fetch_of_ctx (by simp [hp]) (by simp [elementCtx, hp])) ?_
  intro g u hg hu hhd
  obtain ⟨⟨len, y⟩, -, hg⟩ := Except.bind_ok hg
  obtain ⟨⟨nlen, z⟩, -, hg⟩ := Except.bind_ok hg
  simp only [Except.ok.injEq] at hg
  subst hg
  change ∃ t, finish u (storedBody _ _ u) = _ ∧ _
  generalize BitVec.ofNat 16 len = a
  generalize BitVec.ofNat 16 nlen = b
  have hfault : ∀ e, JobStep s (raiseFault e u) := fun e => .fault e u hu.eq
  have hinm : u.inm = s.inm := by rw [hu.eq]
  have hinl : u.inLen = s.inLen := by rw [hu.eq]
  have hout : u.out = s.out := by rw [hu.eq]
  simp only [storedBody]
  split
  · exact ⟨_, rfl, hfault _⟩
  · split
    · exact ⟨_, rfl, hfault _⟩
    · rename_i hfit
      set w : State := { u with slen := a, snlen := b } with hw
      have hinv : ReaderInv w.inm w.inLen.toNat w.br := by
        change ReaderInv u.inm u.inLen.toNat u.br
        rw [hinm, hinl]; exact hu.inv
      rcases readBytes_spec a.toNat (hu.par ▸ hi.par) hinv (by change Memory.wf u.out = true; rw [hout]; exact hi.out_wf)
        (by change u.opos.toNat + a.toNat ≤ u.expected.toNat; change ¬ u.expected.toNat < u.opos.toNat + a.toNat at hfit; omega)
        with ⟨-, h⟩ | ⟨v, h, h1, h2, h3, -⟩
      · rw [h]; exact ⟨_, rfl, hfault _⟩
      · rw [h]
        refine ⟨_, rfl, .stored u v a b _ hp hu h1 ?_ ?_⟩
        · change ReaderInv u.inm u.inLen.toNat v.br at h2
          rwa [hinm, hinl] at h2
        · change v.br.bp = u.br.bp + 8 * a.toNat at h3
          omega

omit hi in
theorem cllensOf_length (v : Vector (BitVec 3) 19) : (v.toList.map BitVec.toNat).length = 19 := by simp

theorem dynhdr_step (hp : s.phase = .dynhdr) : ∃ t, coreStep s = .next t ∧ JobStep s t := by
  refine element_step hi (busy_of_phase hp rfl) (c := .dh) trivial (fetch_of_ctx (by simp [hp]) (by simp [elementCtx, hp])) ?_
  intro g u hg hu hhd
  obtain ⟨⟨a, y⟩, -, hg⟩ := Except.bind_ok hg
  obtain ⟨⟨b, z⟩, -, hg⟩ := Except.bind_ok hg
  obtain ⟨⟨c, z'⟩, -, hg⟩ := Except.bind_ok hg
  obtain ⟨⟨ls, z''⟩, -, hg⟩ := Except.bind_ok hg
  simp only [Except.ok.injEq] at hg
  subst hg
  change ∃ t, finish u (dynHeader _ _ _ _ u) = _ ∧ _
  generalize BitVec.ofNat 5 a = a
  generalize BitVec.ofNat 5 b = b
  generalize BitVec.ofNat 4 c = c
  simp only [dynHeader]
  cases hbuild : build ((dynhdrRegs a b c ls u).cllens.toList.map BitVec.toNat) with
  | error e => exact ⟨_, rfl, .fault e u hu.eq⟩
  | ok T =>
    have hT := (build_ok (by rw [cllensOf_length]; omega) hbuild).1
    rw [cllensOf_length] at hT
    exact ⟨_, rfl, .dynamic u a b c ls T hp hu hT⟩

end

/-- A code-length write of `r` entries in a state whose LENS has room: past HLIT + HDIST it faults, else it fills them (R189). -/
theorem repeatLen_cases {u : State} (v : BitVec 4) (r : Nat) (hsum : u.totalLens ≤ 320) :
    (u.totalLens < u.lidx.toNat + r ∧ repeatLen v r u = .error (.raise .repeatOverrun)) ∨
    (u.lidx.toNat + r ≤ u.totalLens ∧ repeatLen v r u =
      .ok { u with lens := fillLens u.lens u.lidx.toNat r v, lidx := BitVec.ofNat 9 (u.lidx.toNat + r) }) := by
  by_cases h : u.totalLens < u.lidx.toNat + r
  · exact .inl ⟨h, by rw [repeatLen, if_pos h]⟩
  · exact .inr ⟨by omega, by rw [repeatLen, if_neg h, setLens_spec r (by omega)]⟩

section
variable {s : State} (hi : Inv s)
include hi

theorem dynlens_step (hp : s.phase = .dynlens) : ∃ t, coreStep s = .next t ∧ JobStep s t := by
  have hb := busy_of_phase hp rfl
  have hj := hi.job hb (by simp [hp])
  obtain ⟨h1, h2, h3, h4, h5, hT⟩ := hj.lens hp
  have hsum : s.totalLens ≤ 320 := by rw [State.totalLens]; omega
  by_cases hlt : s.lidx.toNat < s.totalLens
  · refine element_step hi hb (c := .cl s.clt (decide (s.lidx ≠ 0))) hT
      (fetch_of_ctx (by simp [hp]) (by simp [elementCtx, hp, hlt])) ?_
    intro g u hg hu hhd
    obtain ⟨r, y, e, -, -, hmk, -⟩ := decodeCoded_ok hg
    have hlidx : u.lidx = s.lidx := by rw [hu.eq]
    have hlens : u.lens = s.lens := by rw [hu.eq]
    have htot : u.totalLens = s.totalLens := by rw [hu.eq]; rfl
    have hrep : ∀ v r, 1 ≤ r → ∃ t, finish u (repeatLen v r u) = .next t ∧ JobStep s t := by
      intro v r hr
      rcases repeatLen_cases (u := u) v r (by omega) with ⟨-, h⟩ | ⟨hle, h⟩
      · rw [h]; exact ⟨_, rfl, .fault _ u hu.eq⟩
      · rw [h, hlidx]
        rw [hlidx, htot] at hle
        exact ⟨_, rfl, .lengths u _ (s.lidx.toNat + r) hp hu (by omega) hle⟩
    rcases clInstr_exec hmk with ⟨v, h⟩ | ⟨-, x, h⟩ | ⟨r, hr, -, h⟩
    · rw [h u, setLen, if_pos (by rw [hlidx]; omega)]
      refine ⟨_, rfl, ?_⟩
      have : u.lidx + 1 = BitVec.ofNat 9 (s.lidx.toNat + 1) := by
        rw [hlidx]
        apply BitVec.eq_of_toNat_eq
        simp
      rw [this]
      exact .lengths u _ (s.lidx.toNat + 1) hp hu (by omega) (by omega)
    · rw [h u, repeatPrevious]
      split
      · exact ⟨_, rfl, .fault _ u hu.eq⟩
      · have : u.lens[u.lidx.toNat - 1]? = some (u.lens[u.lidx.toNat - 1]'(by rw [hlidx]; omega)) :=
          Vector.getElem?_eq_getElem _
        simp only [previousLen, this]
        exact hrep _ _ (by omega)
    · rw [h u]
      exact hrep _ _ (by omega)
  · have hf : fetch s = .none := by
      simp only [fetch]
      rw [if_neg (by simp [hp])]
      simp only [elementCtx, hp]
      rw [if_neg hlt]
    simp only [coreStep, hf, phaseAction, hp]
    simp only [dynBuild]
    cases hll : build s.llLens with
    | error e => exact ⟨_, rfl, .fault e s rfl⟩
    | ok ll =>
      cases hd : build s.dLens with
      | error e => exact ⟨_, rfl, .fault e s rfl⟩
      | ok d => exact ⟨_, rfl, .tables ll d hp (by omega) hll hd⟩

theorem symloop_step (hp : s.phase = .symloop) : ∃ t, coreStep s = .next t ∧ JobStep s t := by
  have hb := busy_of_phase hp rfl
  have hj := hi.job hb (by simp [hp])
  have hll : HuffTableWf 288 s.llTable := by
    rcases hj.tables hp with h | ⟨h, h1, -⟩
    · rw [State.llTable, if_pos h]; exact fllt_wf
    · rw [State.llTable, if_neg (by rw [h]; decide)]; exact h1
  have hd : HuffTableWf 32 s.dTable := by
    rcases hj.tables hp with h | ⟨h, -, h1⟩
    · rw [State.dTable, if_pos h]; exact fdt_wf
    · rw [State.dTable, if_neg (by rw [h]; decide)]; exact h1
  cases hm : s.inMatch with
  | false =>
    refine element_step hi hb (c := .ll s.llTable) hll (fetch_of_ctx (by simp [hp]) (by simp [elementCtx, hp, hm])) ?_
    intro g u hg hu hhd
    obtain ⟨r, y, e, -, -, hmk, -⟩ := decodeCoded_ok hg
    have hopos : u.opos = s.opos := by rw [hu.eq]
    have hexp : u.expected = s.expected := by rw [hu.eq]
    rcases llInstr_exec hmk with ⟨b, h⟩ | h | ⟨base, x, h1, h2, h⟩ | h
    · rw [h u, emit, hopos, hexp]
      split
      · exact ⟨_, rfl, .fault _ u hu.eq⟩
      · exact ⟨_, rfl, .literal u b hp hm hu (by omega)⟩
    · exact ⟨_, h u, .eob u hp hm hu⟩
    · exact ⟨_, h u, .length u base x hp hm hu h1 h2⟩
    · exact ⟨_, h u, .fault _ u hu.eq⟩
  | true =>
    refine element_step hi hb (c := .d s.dTable) hd (fetch_of_ctx (by simp [hp]) (by simp [elementCtx, hp, hm])) ?_
    intro g u hg hu hhd
    obtain ⟨r, y, e, -, -, hmk, -⟩ := decodeCoded_ok hg
    rcases dInstr_exec hmk with ⟨base, x, h1, h2, h⟩ | h
    · rw [h u, distanceElement]
      set w : State := { u with mdist := BitVec.ofNat 16 (base + x), inMatch := false } with hw
      have hmd : w.mdist.toNat = base + x := by simp only [hw, BitVec.toNat_ofNat]; omega
      have hopos : w.opos = s.opos := by rw [hw, hu.eq]
      have hexp : w.expected = s.expected := by rw [hw, hu.eq]
      have hmlen : w.mlen = s.mlen := by rw [hw, hu.eq]
      have hout : w.out = s.out := by rw [hw, hu.eq]
      by_cases hfar : s.opos.toNat < base + x
      · rw [matchCopy, hmd, hopos, if_pos hfar]
        exact ⟨_, rfl, .fault _ u hu.eq⟩
      · by_cases hfit : s.expected.toNat < s.opos.toNat + s.mlen.toNat
        · rw [matchCopy, hmd, hopos, hexp, hmlen, if_neg hfar, if_pos hfit]
          exact ⟨_, rfl, .fault _ u hu.eq⟩
        · obtain ⟨v, h3, h4, h5⟩ := matchCopy_spec (s := w) (by rw [hout]; exact hi.out_wf) (by omega) (by rw [hopos]; omega)
            (by rw [hopos, hmlen, hexp]; omega)
          rw [h3]
          rw [hout, hopos, hmd, hmlen] at h5
          exact ⟨v, rfl, .copy u v base x hp hm hu h1 (by omega) h4 h5⟩
    · exact ⟨_, h u, .fault _ u hu.eq⟩

omit hi in
theorem endchk_step (hp : s.phase = .endchk) : ∃ t, coreStep s = .next t ∧ JobStep s t := by
  have hf : fetch s = .none := by
    simp only [fetch, hp, elementCtx]
    rw [if_neg (by simp)]
  simp only [coreStep, hf, phaseAction, hp, endCheck]
  by_cases h : s.opos = s.expected
  · rw [if_neg (by simp [h])]
    exact ⟨_, rfl, .endchk hp h⟩
  · rw [if_pos h]
    exact ⟨_, rfl, .fault _ s rfl⟩

theorem trailer_step (hp : s.phase = .trailer) : ∃ t, coreStep s = .next t ∧ JobStep s t := by
  refine element_step hi (busy_of_phase hp rfl) (c := .tr) trivial (fetch_of_ctx (by simp [hp]) (by simp [elementCtx, hp])) ?_
  intro g u hg hu hhd
  obtain ⟨⟨a, y⟩, -, hg⟩ := Except.bind_ok hg
  obtain ⟨⟨b, z⟩, -, hg⟩ := Except.bind_ok hg
  obtain ⟨⟨c, z'⟩, -, hg⟩ := Except.bind_ok hg
  obtain ⟨⟨d, z''⟩, -, hg⟩ := Except.bind_ok hg
  simp only [Except.ok.injEq] at hg
  subst hg
  change ∃ t, finish u (trailerCheck _ u) = _ ∧ _
  generalize BitVec.ofNat 32 _ = v
  simp only [trailerCheck]
  split
  · exact ⟨_, rfl, .fault _ u hu.eq⟩
  · exact ⟨_, rfl, .trailer u hp hu⟩

theorem unfilter_step (hp : s.phase = .unfilter) : ∃ t, coreStep s = .next t ∧ JobStep s t := by
  have hb := busy_of_phase hp rfl
  have hj := hi.job hb (by simp [hp])
  by_cases hrow : s.row.toNat < s.height.toNat
  · have hready := hj.geometry.rowReady hrow
    have hrb : 1 ≤ s.rowbytes.toNat := by
      rw [hj.geometry.rowbytes_eq, State.cfgRowBytes]
      exact Nat.mul_pos (Nat.pos_of_ne_zero hj.geometry.width_pos) hj.geometry.channels_pos
    have hro : readOut (s.row.toNat * (1 + s.rowbytes.toNat)) s = .ok (Memory.read s.out (s.row.toNat * (1 + s.rowbytes.toNat))) := by
      rw [readOut, if_pos]
      rw [hready.expected_eq]
      exact row_in_range hrow (c := 0) (by omega)
    have hf : fetch s = .run (filterInstr (Memory.read s.out (s.row.toNat * (1 + s.rowbytes.toNat)))) s := by
      simp only [fetch]
      rw [if_pos ⟨hp, hrow⟩, fetchFilter, hro]
    simp only [coreStep, hf]
    generalize Memory.read s.out (s.row.toNat * (1 + s.rowbytes.toNat)) = b
    rcases filterInstr_exec b with ⟨pred, h⟩ | h
    · obtain ⟨u, h1, h2, h3, -, h5⟩ := unfilterRow_spec (t := b) (pred := pred) hready hi.pix_wf hrb
      rw [h s, h1]
      exact ⟨_, rfl, .row u b hp hrow h2 h3 h5⟩
    · exact ⟨_, h s, .fault _ s rfl⟩
  · have hf : fetch s = .none := by
      simp only [fetch]
      rw [if_neg (by simp [hrow])]
      simp only [elementCtx, hp]
    simp only [coreStep, hf, phaseAction, hp]
    have := hj.row_le
    exact ⟨_, rfl, .done hp (by omega)⟩

/-- Everything a step of a running job can do; in particular it always answers a next state (R409). -/
theorem coreStep_jobStep (hb : s.busy) : ∃ t, coreStep s = .next t ∧ JobStep s t := by
  have hb' := Phase.status_busy.1 hb
  cases hp : s.phase with
  | idle => simp [hp] at hb'
  | done => simp [hp] at hb'
  | fault => simp [hp] at hb'
  | cfg => exact cfg_step hp
  | zhdr => exact zhdr_step hi hp
  | blkhdr => exact blkhdr_step hi hp
  | stored => exact stored_step hi hp
  | dynhdr => exact dynhdr_step hi hp
  | dynlens => exact dynlens_step hi hp
  | symloop => exact symloop_step hi hp
  | endchk => exact endchk_step hp
  | trailer => exact trailer_step hi hp
  | unfilter => exact unfilter_step hi hp

end

end Sys2Proof.Machine
end

