-- ==== Sys2Proof/Laws/Frame.lean ====
section
/-! SUPPORT. What no step of the core changes, from any state at all (spec R60, R64, R76): IN, the configuration and the parameters; and the
canonical form of OUT and PIX. Said once for each shared operation, then for every element and for a step of the core. -/

namespace Sys2Proof.Machine

/-- `t` has the IN, configuration and parameters of `s` (R60, R76), and canonical OUT and PIX if `s` has. -/
structure Kept (s t : State) : Prop where
  inm : t.inm = s.inm
  inLen : t.inLen = s.inLen
  width : t.width = s.width
  height : t.height = s.height
  channels : t.channels = s.channels
  par : t.par = s.par
  out_wf : Memory.wf s.out = true → Memory.wf t.out = true
  pix_wf : Memory.wf s.pix = true → Memory.wf t.pix = true

theorem Kept.refl (s : State) : Kept s s := ⟨rfl, rfl, rfl, rfl, rfl, rfl, id, id⟩

theorem Kept.trans {s t u : State} (h : Kept s t) (h' : Kept t u) : Kept s u :=
  ⟨h'.inm.trans h.inm, h'.inLen.trans h.inLen, h'.width.trans h.width, h'.height.trans h.height, h'.channels.trans h.channels,
    h'.par.trans h.par, h'.out_wf ∘ h.out_wf, h'.pix_wf ∘ h.pix_wf⟩

theorem Kept.fault (e : Err) (s : State) : Kept s (raiseFault e s) :=
  ⟨rfl, rfl, rfl, rfl, rfl, rfl, fun _ => Memory.wf_ofCells _, fun _ => Memory.wf_ofCells _⟩

/-- An operation that keeps what `Kept` says wherever it completes. -/
def Keeps (s : State) (r : Except Stop State) : Prop := ∀ t, r = .ok t → Kept s t

theorem Keeps.finish {s t : State} {r : Except Stop State} (h : Keeps s r) (hf : finish s r = .next t) : Kept s t := by
  cases r with
  | ok u => cases hf; exact h _ rfl
  | error e =>
    cases e with
    | raise e => cases hf; exact Kept.fault e s
    | fault f => cases hf
    | refuse r => cases hf

theorem Keeps.error (s : State) (e : Stop) : Keeps s (.error e) := fun _ h => by cases h

theorem Keeps.ok {s t : State} (h : Kept s t) : Keeps s (.ok t) := fun _ e => by cases e; exact h

theorem Keeps.from {s t : State} {r : Except Stop State} (h : Kept s t) (h' : Keeps t r) : Keeps s r := fun u hu => h.trans (h' u hu)

theorem keeps_emit (b : Byte) (s : State) : Keeps s (emit b s) := by
  unfold emit
  split
  · exact Keeps.error _ _
  · exact Keeps.ok ⟨rfl, rfl, rfl, rfl, rfl, rfl, fun h => Memory.wf_write h _ _, id⟩

theorem kept_br (s : State) (br) : Kept s { s with br := br } := ⟨rfl, rfl, rfl, rfl, rfl, rfl, id, id⟩

theorem stateGetbits_kept {n v : Nat} {s t : State} (h : stateGetbits n s = .ok (v, t)) : Kept s t := by
  simp only [stateGetbits] at h
  split at h
  · cases h
  · cases h; exact kept_br _ _

theorem keeps_readBytesAligned (n : Nat) : ∀ s, Keeps s (readBytesAligned n s) := by
  induction n with
  | zero => intro s; exact Keeps.ok (Kept.refl s)
  | succ n ih =>
    intro s
    simp only [readBytesAligned]
    split
    · exact Keeps.error _ _
    rename_i a ha
    exact Keeps.from ((keeps_emit _ s a ha).trans (kept_br a _)) (ih _)

theorem keeps_readBytesShifted (n : Nat) : ∀ s, Keeps s (readBytesShifted n s) := by
  induction n with
  | zero => intro s; exact Keeps.ok (Kept.refl s)
  | succ n ih =>
    intro s
    simp only [readBytesShifted]
    split
    · exact Keeps.error _ _
    rename_i v a ha
    split
    · exact Keeps.error _ _
    rename_i b hb
    exact Keeps.from ((stateGetbits_kept ha).trans (keeps_emit _ _ b hb)) (ih _)

theorem keeps_readBytes (n : Nat) (s : State) : Keeps s (readBytes n s) := by
  unfold readBytes
  split
  · split
    · exact Keeps.error _ _
    · exact keeps_readBytesAligned n s
  · exact keeps_readBytesShifted n s

theorem keeps_copyLoop (n : Nat) : ∀ s, Keeps s (copyLoop n s) := by
  induction n with
  | zero => intro s; exact Keeps.ok (Kept.refl s)
  | succ n ih =>
    intro s
    simp only [copyLoop]
    split
    · exact Keeps.error _ _
    split
    · exact Keeps.error _ _
    rename_i b hb
    exact Keeps.from (keeps_emit _ _ b hb) (ih _)

theorem keeps_distance (b x : Nat) (s : State) : Keeps s (distanceElement b x s) := by
  refine Keeps.from (t := { s with mdist := BitVec.ofNat 16 (b + x), inMatch := false }) ⟨rfl, rfl, rfl, rfl, rfl, rfl, id, id⟩ ?_
  change Keeps _ (matchCopy _)
  unfold matchCopy
  split
  · exact Keeps.error _ _
  · split
    · exact Keeps.error _ _
    · exact keeps_copyLoop _ _

theorem keeps_setLen (v) (s : State) : Keeps s (setLen v s) := by
  unfold setLen
  split
  · exact Keeps.ok ⟨rfl, rfl, rfl, rfl, rfl, rfl, id, id⟩
  · exact Keeps.error _ _

theorem keeps_setLens (n : Nat) (v) : ∀ s, Keeps s (setLens n v s) := by
  induction n with
  | zero => intro s; exact Keeps.ok (Kept.refl s)
  | succ n ih =>
    intro s
    simp only [setLens]
    split
    · exact Keeps.error _ _
    rename_i b hb
    exact Keeps.from (keeps_setLen _ _ b hb) (ih _)

theorem keeps_repeat (v r) (s : State) : Keeps s (repeatLen v r s) := by
  unfold repeatLen
  split
  · exact Keeps.error _ _
  · exact keeps_setLens _ _ _

theorem keeps_repeatPrevious (n) (s : State) : Keeps s (repeatPrevious n s) := by
  unfold repeatPrevious
  split
  · exact Keeps.error _ _
  · split
    · exact Keeps.error _ _
    · exact keeps_repeat _ _ _

theorem keeps_skip (n : Nat) : ∀ s, Keeps s (skipBytes n s) := by
  induction n with
  | zero => intro s; exact Keeps.ok (Kept.refl s)
  | succ n ih =>
    intro s
    simp only [skipBytes]
    split
    · exact Keeps.error _ _
    rename_i v b hb
    exact Keeps.from (stateGetbits_kept hb) (ih _)

theorem keeps_unfilterByte (pred) (c : Nat) (s : State) : Keeps s (unfilterByte pred c s) := by
  intro t h
  obtain ⟨x, -, h⟩ := Except.bind_ok h
  obtain ⟨a, -, h⟩ := Except.bind_ok h
  obtain ⟨b, -, h⟩ := Except.bind_ok h
  obtain ⟨d, -, h⟩ := Except.bind_ok h
  simp only [writePix] at h
  split at h
  · cases h; exact ⟨rfl, rfl, rfl, rfl, rfl, rfl, id, fun h => Memory.wf_write h _ _⟩
  · cases h

theorem keeps_unfilterLoop (pred) (n : Nat) : ∀ c s, Keeps s (unfilterLoop pred n c s) := by
  induction n with
  | zero => intro c s; exact Keeps.ok (Kept.refl s)
  | succ n ih =>
    intro c s
    simp only [unfilterLoop]
    split
    · exact Keeps.error _ _
    rename_i b hb
    exact Keeps.from (keeps_unfilterByte _ _ _ b hb) (ih _ _)

theorem keeps_row (t pred) (s : State) : Keeps s (unfilterRow t pred s) := by
  unfold unfilterRow
  split
  · exact Keeps.error _ _
  rename_i b hb
  have : Kept s { s with ft := t } := ⟨rfl, rfl, rfl, rfl, rfl, rfl, id, id⟩
  refine Keeps.ok (this.trans ((keeps_unfilterLoop _ _ _ _ b hb).trans ?_))
  exact ⟨rfl, rfl, rfl, rfl, rfl, rfl, id, id⟩

theorem keeps_header (a b) (s : State) : Keeps s (headerCheck a b s) := by
  have : Kept s { s with phase := .blkhdr } := ⟨rfl, rfl, rfl, rfl, rfl, rfl, id, id⟩
  unfold headerCheck
  split
  · exact Keeps.error _ _
  · split
    · exact Keeps.error _ _
    · split
      · split
        · exact Keeps.error _ _
        · exact Keeps.from this (keeps_skip _ _)
      · exact Keeps.ok this

theorem keeps_stored (a b) (s : State) : Keeps s (storedBody a b s) := by
  have : Kept s { s with slen := a, snlen := b } := ⟨rfl, rfl, rfl, rfl, rfl, rfl, id, id⟩
  simp only [storedBody]
  split
  · exact Keeps.error _ _
  · split
    · exact Keeps.error _ _
    · split
      · exact Keeps.error _ _
      rename_i t ht
      refine Keeps.from this ?_
      refine Keeps.from (keeps_readBytes _ _ t ht) (Keeps.ok ⟨rfl, rfl, rfl, rfl, rfl, rfl, id, id⟩)

theorem keeps_dynHeader (a b c ls) (s : State) : Keeps s (dynHeader a b c ls s) := by
  simp only [dynHeader]
  split
  · exact Keeps.error _ _
  · exact Keeps.ok ⟨rfl, rfl, rfl, rfl, rfl, rfl, id, id⟩

/-- Every element. -/
theorem exec_kept {i : Instr} {s t : State} (h : exec i s = .next t) : Kept s t := by
  have simple : ∀ {u : State}, (Host.Outcome.next u : Result) = .next t → Kept s u → Kept s t := fun h hk => by cases h; exact hk
  cases i
  all_goals first
    | exact (keeps_setLen _ s).finish h
    | exact (keeps_distance _ _ s).finish h
    | exact simple h ⟨rfl, rfl, rfl, rfl, rfl, rfl, id, id⟩
    | exact simple h (Kept.fault _ s)
    | exact (keeps_row _ _ s).finish h
    | exact (keeps_repeat _ _ s).finish h
    | exact (keeps_repeatPrevious _ s).finish h
    | exact (keeps_emit _ s).finish h
    | exact (keeps_header _ _ s).finish h
    | exact (keeps_stored _ _ s).finish h
    | exact (keeps_dynHeader _ _ _ _ s).finish h
    | skip
  rename_i v
  refine Keeps.finish ?_ h
  unfold trailerCheck
  split
  · exact Keeps.error _ _
  · exact Keeps.ok ⟨rfl, rfl, rfl, rfl, rfl, rfl, id, id⟩

theorem coreStep_kept {s t : State} (h : coreStep s = .next t) : Kept s t := by
  have hfetch : ∀ {i u}, fetch s = .run i u → Kept s u := by
    intro i u hf
    simp only [fetch] at hf
    split at hf
    · simp only [fetchFilter] at hf
      split at hf
      · cases hf; exact Kept.refl s
      · cases hf
    · split at hf
      · simp only [fetchElement] at hf
        split at hf
        · cases hf; exact ⟨rfl, rfl, rfl, rfl, rfl, rfl, id, id⟩
        · cases hf
      · cases hf
  simp only [coreStep] at h
  split at h
  · rename_i i u hf
    exact (hfetch hf).trans (exec_kept h)
  · exact (Keeps.error s _).finish h
  · simp only [phaseAction] at h
    have e := Kept.refl s
    split at h
    · refine Keeps.finish ?_ h
      unfold configCheck
      split
      · exact Keeps.error _ _
      · split
        · exact Keeps.error _ _
        · exact Keeps.ok ⟨rfl, rfl, rfl, rfl, rfl, rfl, id, id⟩
    · refine Keeps.finish ?_ h
      unfold dynBuild
      split
      · exact Keeps.error _ _
      · split
        · exact Keeps.error _ _
        · exact Keeps.ok ⟨rfl, rfl, rfl, rfl, rfl, rfl, id, id⟩
    · refine Keeps.finish ?_ h
      unfold endCheck
      split
      · exact Keeps.error _ _
      · exact Keeps.ok ⟨rfl, rfl, rfl, rfl, rfl, rfl, id, id⟩
    all_goals (cases h; exact ⟨rfl, rfl, rfl, rfl, rfl, rfl, id, id⟩)

end Sys2Proof.Machine
end

