-- ==== Sys2Proof/Laws/Job.lean ====
section
/-! SUPPORT. What a step of a running job does to the cursor, to OUT with the checksum, and to PIX (spec R24, R60, R62, R63, R305), for every
kind of step at once. -/

namespace Sys2Proof.Machine

/-- Outside a job the core does nothing (R364). -/
theorem coreStep_rest {s : State} (hb : ¬ s.busy) : coreStep s = .next s := by
  have : s.phase = .idle ∨ s.phase = .done ∨ s.phase = .fault := by
    by_contra h
    simp only [not_or] at h
    exact hb (Phase.status_busy.2 h)
  rcases this with h | h | h <;> simp [coreStep, fetch, elementCtx, h, phaseAction]

theorem jobStep_of {s t : State} (hi : Inv s) (hb : s.busy) (h : coreStep s = .next t) : JobStep s t := by
  obtain ⟨u, h1, h2⟩ := coreStep_jobStep hi hb
  rw [h1] at h
  cases h
  exact h2

/-- `t` is past `s` by the bytes `bs` in OUT, and its checksum has taken them. -/
structure Written (s t : State) (bs : List Byte) : Prop where
  opos : t.opos.toNat = s.opos.toNat + bs.length
  fits : s.phase ≠ .cfg → t.opos.toNat ≤ s.expected.toNat
  bytes : ∀ j (h : j < bs.length), Memory.read t.out (s.opos.toNat + j) = bs[j]
  other : ∀ a, a < s.opos.toNat ∨ t.opos.toNat ≤ a → Memory.read t.out a = Memory.read s.out a
  sums : (t.s1.toNat, t.s2.toNat) = adlerFrom s.s1.toNat s.s2.toNat bs

/-- What a step that does not fault leaves. -/
structure Effects (s t : State) : Prop where
  bp_mono : s.bp ≤ t.bp
  inLen : t.inLen = s.inLen
  bp_le : t.phase ≠ .done → t.bp ≤ 8 * s.inLen.toNat
  expected : s.phase ≠ .cfg → t.expected = s.expected
  out : ∃ bs, Written s t bs
  rows : s.row.toNat ≤ t.row.toNat ∧ t.row.toNat ≤ s.row.toNat + 1 ∧
    ∀ a, a < s.row.toNat * s.rowbytes.toNat ∨ t.row.toNat * s.rowbytes.toNat ≤ a → Memory.read t.pix a = Memory.read s.pix a

/-- Every step of a running job faults or has these effects. -/
theorem JobStep.effects {s t : State} (hi : Inv s) (hb : s.busy) (h : JobStep s t) (hnf : t.status ≠ .fault) : Effects s t := by
  have hbp : s.bp ≤ 8 * s.inLen.toNat := (hi.reader hb).bp_le
  have same : ∀ {t : State}, t.opos = s.opos → t.out = s.out → t.s1 = s.s1 → t.s2 = s.s2 →
      ∃ bs, Written s t bs := by
    intro t h1 h2 h3 h4
    refine ⟨[], by simp [h1], fun hp => by rw [h1]; exact (hi.job hb hp).opos_le, by simp, fun a _ => by rw [h2], by simp [h3, h4, adlerFrom]⟩
  have samep : ∀ {t : State}, t.row = s.row → t.pix = s.pix → s.row.toNat ≤ t.row.toNat ∧ t.row.toNat ≤ s.row.toNat + 1 ∧
      ∀ a, a < s.row.toNat * s.rowbytes.toNat ∨ t.row.toNat * s.rowbytes.toNat ≤ a → Memory.read t.pix a = Memory.read s.pix a := by
    intro t h1 h2
    rw [h1, h2]; exact ⟨Nat.le_refl _, by omega, fun _ _ => rfl⟩
  have rd : ∀ {u : State}, Read s u → u.bp ≤ 8 * s.inLen.toNat ∧ s.bp ≤ u.bp ∧ u = { s with br := u.br, hd := u.hd } := fun hu => ⟨hu.inv.bp_le, Nat.le_of_lt hu.lt, hu.eq⟩
  cases h with
  | fault e u hu => exact absurd rfl hnf
  | config t hp hok =>
    simp only [configCheck] at hok
    split at hok
    · cases hok
    · split at hok
      · cases hok
      · cases hok
        exact ⟨Nat.le_refl _, rfl, fun _ => hbp, fun h => absurd hp h, same rfl rfl rfl rfl, samep rfl rfl⟩
  | header u hp hu =>
    obtain ⟨h1, h2, h3⟩ := rd hu
    refine ⟨h2, ?_, fun _ => h1, fun _ => ?_, same ?_ ?_ ?_ ?_, samep ?_ ?_⟩ <;> rw [h3]
  | block u f ty body hp hu hbody =>
    obtain ⟨h1, h2, h3⟩ := rd hu
    refine ⟨h2, ?_, fun _ => h1, fun _ => ?_, same ?_ ?_ ?_ ?_, samep ?_ ?_⟩ <;> rw [h3] <;> rfl
  | stored u v len nlen bs hp hu hv hr hle =>
    obtain ⟨h1, h2, h3⟩ := rd hu
    have e1 : u.opos = s.opos := by rw [h3]
    have e2 : u.out = s.out := by rw [h3]
    have e3 : u.s1 = s.s1 := by rw [h3]
    have e4 : u.s2 = s.s2 := by rw [h3]
    have e5 : u.expected = s.expected := by rw [h3]
    refine ⟨Nat.le_trans h2 hle, ?_, fun _ => hr.bp_le, fun _ => ?_, ⟨bs, ?_, fun _ => ?_, ?_, ?_, ?_⟩, samep ?_ ?_⟩
    · change v.inLen = _; rw [hv.eq, h3]
    · change v.expected = _; rw [hv.eq, h3]
    · have := hv.opos; simp only [e1] at this; exact this
    · have := hv.fits; simp only [e5] at this; exact this
    · have := hv.bytes; simp only [e1] at this; exact this
    · have := hv.other; simp only [e1, e2] at this; exact this
    · have := hv.sums; simp only [e3, e4] at this; exact this
    · change v.row = _; rw [hv.eq, h3]
    · change v.pix = _; rw [hv.eq, h3]
  | dynamic u a b c ls T hp hu hT =>
    obtain ⟨h1, h2, h3⟩ := rd hu
    refine ⟨h2, ?_, fun _ => h1, fun _ => ?_, same ?_ ?_ ?_ ?_, samep ?_ ?_⟩ <;> rw [h3] <;> rfl
  | lengths u lens n hp hu hlt hle =>
    obtain ⟨h1, h2, h3⟩ := rd hu
    refine ⟨h2, ?_, fun _ => h1, fun _ => ?_, same ?_ ?_ ?_ ?_, samep ?_ ?_⟩ <;> rw [h3]
  | tables ll d hp hdone hll hd =>
    exact ⟨Nat.le_refl _, rfl, fun _ => hbp, fun h => rfl, same rfl rfl rfl rfl, samep rfl rfl⟩
  | literal u b hp hm hu hfit =>
    obtain ⟨h1, h2, h3⟩ := rd hu
    have e1 : u.opos = s.opos := by rw [h3]
    have e2 : u.out = s.out := by rw [h3]
    have e3 : u.s1 = s.s1 := by rw [h3]
    have e4 : u.s2 = s.s2 := by rw [h3]
    have e5 : u.expected = s.expected := by rw [h3]
    have hv := (Emitted.emit (s := u) (by rw [e2]; exact hi.out_wf) (by rw [e1, e5]; exact hfit) b).2
    refine ⟨h2, ?_, fun _ => h1, fun _ => ?_, ⟨[b], ?_, fun _ => ?_, ?_, ?_, ?_⟩, samep ?_ ?_⟩
    · rw [hv.eq, h3]
    · rw [hv.eq, h3]
    · have := hv.opos; simp only [e1] at this; exact this
    · have := hv.fits; simp only [e5] at this; exact this
    · have := hv.bytes; simp only [e1] at this; exact this
    · have := hv.other; simp only [e1, e2] at this; exact this
    · have := hv.sums; simp only [e3, e4] at this; exact this
    · rw [hv.eq, h3]
    · rw [hv.eq, h3]
  | eob u hp hm hu =>
    obtain ⟨h1, h2, h3⟩ := rd hu
    refine ⟨h2, ?_, fun _ => h1, fun _ => ?_, same ?_ ?_ ?_ ?_, samep ?_ ?_⟩ <;> rw [h3] <;> rfl
  | length u base x hp hm hu h1 h2 =>
    obtain ⟨h1, h2, h3⟩ := rd hu
    refine ⟨h2, ?_, fun _ => h1, fun _ => ?_, same ?_ ?_ ?_ ?_, samep ?_ ?_⟩ <;> rw [h3] <;> rfl
  | copy u v base x hp hm hu h1 h2 hbr hv =>
    obtain ⟨h1, h2, h3⟩ := rd hu
    have e1 : u.opos = s.opos := by rw [h3]
    have e2 : u.out = s.out := by rw [h3]
    have e3 : u.s1 = s.s1 := by rw [h3]
    have e4 : u.s2 = s.s2 := by rw [h3]
    have e5 : u.expected = s.expected := by rw [h3]
    refine ⟨by simpa only [State.bp, hbr] using h2, ?_, fun _ => by simpa only [State.bp, hbr] using h1, fun _ => ?_, ⟨matchBytes s.out s.opos.toNat (base + x) s.mlen.toNat, ?_, fun _ => ?_, ?_, ?_, ?_⟩, samep ?_ ?_⟩
    · rw [hv.eq, h3]
    · rw [hv.eq, h3]
    · have := hv.opos; simp only [e1] at this; exact this
    · have := hv.fits; simp only [e5] at this; exact this
    · have := hv.bytes; simp only [e1] at this; exact this
    · have := hv.other; simp only [e1, e2] at this; exact this
    · have := hv.sums; simp only [e3, e4] at this; exact this
    · rw [hv.eq, h3]
    · rw [hv.eq, h3]
  | endchk hp heq =>
    exact ⟨Nat.le_refl _, rfl, fun _ => hbp, fun h => rfl, same rfl rfl rfl rfl, samep rfl rfl⟩
  | trailer u hp hu =>
    obtain ⟨h1, h2, h3⟩ := rd hu
    refine ⟨h2, ?_, fun _ => h1, fun _ => ?_, same ?_ ?_ ?_ ?_, samep ?_ ?_⟩ <;> rw [h3]
  | row u b hp hrow hu hwf hother =>
    have hr : (s.row + 1).toNat = s.row.toNat + 1 := by have := s.height.isLt; rw [BitVec.toNat_add]; simp; omega
    refine ⟨?_, ?_, fun _ => ?_, fun _ => ?_, same ?_ ?_ ?_ ?_, ?_, ?_, fun a ha => ?_⟩
    · change s.bp ≤ u.bp; rw [hu]; exact Nat.le_refl _
    · rw [hu]
    · change u.bp ≤ _; rw [hu]; exact hbp
    · rw [hu]
    · rw [hu]
    · rw [hu]
    · rw [hu]
    · rw [hu]
    · simp only [hr]; omega
    · simp only [hr]; omega
    · simp only [hr] at ha
      refine hother a ?_
      rw [Nat.add_mul, Nat.one_mul] at ha; exact ha
  | done hp hrow =>
    exact ⟨Nat.le_refl _, rfl, fun _ => hbp, fun h => rfl, same rfl rfl rfl rfl, samep rfl rfl⟩

end Sys2Proof.Machine
end

