-- ==== Sys2Proof/Laws/History.lean ====
section
/-! SUPPORT. Two runs of one job (spec R402): what a running job may depend on, and that a step of the core keeps two states that agree on it
in agreement. -/

namespace Sys2Proof.Machine

/-! ## The stream of bits seen by two memories -/

section
variable {m m' : Memory} {n : Nat} (hm : ∀ a, a < n → Memory.read m a = Memory.read m' a)
include hm

theorem refill_congr (w k : Nat) (fuel : Nat) : ∀ br, refill m n w fuel k br = refill m' n w fuel k br := by
  induction fuel with
  | zero => intro br; rfl
  | succ fuel ih =>
    intro br
    simp only [refill]
    split
    · split
      · rfl
      · rw [hm _ (by omega), ih]
    · rfl

/-- The decoder's source depends on IN below IN_LEN alone (R61). -/
theorem readerSource_congr (w : Params) : readerSource m n w = readerSource m' n w := by
  simp only [readerSource, BitSource.mk.injEq, and_true]
  funext k br
  simp only [getbits, refill_congr hm]

theorem streamBits_congr (k : Nat) : ∀ i, i + k ≤ 8 * n → streamBits m i k = streamBits m' i k := by
  induction k with
  | zero => intro i _; rfl
  | succ k ih =>
    intro i h
    simp only [streamBits, streamBit]
    rw [hm _ (by omega), ih _ (by omega)]

theorem streamBytes_congr {bp k : Nat} (h : bp + 8 * k ≤ 8 * n) : streamBytes m bp k = streamBytes m' bp k := by
  refine List.map_congr_left fun j hj => ?_
  rw [List.mem_range] at hj
  rw [streamBits_congr hm 8 _ (by omega)]

/-- The bit reader's registers are determined by BP (R22, R136). -/
theorem ReaderInv.unique {r r' : BitReader} (h : ReaderInv m n r) (h' : ReaderInv m' n r') (hbp : r.bp = r'.bp) : r = r' := by
  have a1 := h.buffered.enough
  have a2 := h'.buffered.enough
  have b1 := h.bitcnt_lt
  have b2 := h'.bitcnt_lt
  simp only [BitReader.bp] at hbp
  have hpos : r.pos = r'.pos := BitVec.eq_of_toNat_eq (by omega)
  have hcnt : r.bitcnt = r'.bitcnt := BitVec.eq_of_toNat_eq (by omega)
  have hacc : r.acc = r'.acc := by
    rw [h.acc_eq, h'.acc_eq, hpos, hcnt]
    by_cases h0 : r'.bitcnt.toNat = 0
    · have l1 := (Memory.read m (r'.pos.toNat - 1)).isLt
      have l2 := (Memory.read m' (r'.pos.toNat - 1)).isLt
      rw [h0, Nat.div_eq_of_lt (by simpa using l1), Nat.div_eq_of_lt (by simpa using l2)]
    · have := h'.pos_pos h0
      have := h'.pos_le
      rw [hm _ (by omega)]
  cases r
  cases r'
  simp_all

end

/-! ## States that a running job cannot tell apart -/

/-- The two states agree on all that the rest of the run depends on, phase by phase. -/
structure SameRun (s t : State) : Prop where
  job : SameJob s t
  phase : s.phase = t.phase
  br : s.br = t.br
  opos : s.opos = t.opos
  bfinal : s.bfinal = t.bfinal
  s1 : s.s1 = t.s1
  s2 : s.s2 = t.s2
  row : s.row = t.row
  err : s.err = t.err
  outLen : s.outLen = t.outLen
  pixLen : s.pixLen = t.pixLen
  inMatch : s.inMatch = t.inMatch
  geometry : s.phase ≠ .cfg → s.expected = t.expected ∧ s.rowbytes = t.rowbytes ∧ s.bpp = t.bpp
  out : ∀ a, a < s.opos.toNat → Memory.read s.out a = Memory.read t.out a
  pix : s.phase ≠ .cfg → ∀ a, a < s.row.toNat * s.rowbytes.toNat → Memory.read s.pix a = Memory.read t.pix a
  btype : s.phase = .dynhdr ∨ s.phase = .dynlens ∨ s.phase = .symloop → s.btype = t.btype
  lens : s.phase = .dynlens → s.hlit = t.hlit ∧ s.hdist = t.hdist ∧ s.lidx = t.lidx ∧ s.clt = t.clt ∧
    ∀ k, k < s.lidx.toNat → s.lens[k]? = t.lens[k]?
  tables : s.phase = .symloop → s.btype = 1 ∨ (s.llt = t.llt ∧ s.dt = t.dt)
  mlen : s.inMatch = true → s.mlen = t.mlen
  wf : Memory.wf s.out = true ∧ Memory.wf t.out = true ∧ Memory.wf s.pix = true ∧ Memory.wf t.pix = true

/-- The two runs are in agreement: in such states, or in the same fault. -/
def Agreed (s t : State) : Prop := SameRun s t ∨ (s.phase = .fault ∧ t.phase = .fault ∧ s.err = t.err)

theorem Agreed.fault (e : Err) (s t : State) : Agreed (raiseFault e s) (raiseFault e t) := .inr ⟨rfl, rfl, rfl⟩

/-- Two answers in agreement. -/
def AgreedResults (p q : Result) : Prop := ∀ a, p = .next a → ∃ b, q = .next b ∧ Agreed a b

theorem AgreedResults.next {a b : State} (h : Agreed a b) : AgreedResults (.next a) (.next b) := fun _ e => by cases e; exact ⟨b, rfl, h⟩

theorem AgreedResults.raise (e : Err) (s t : State) : AgreedResults (finish s (.error (.raise e))) (finish t (.error (.raise e))) :=
  .next (.fault e s t)

theorem AgreedResults.fault (f : Fault) (q : Result) : AgreedResults (.fault f) q := fun _ e => by cases e
theorem AgreedResults.refused (f : Refusal) (q : Result) : AgreedResults (.refused f) q := fun _ e => by cases e

section
variable {s t : State} (h : SameRun s t)
include h

theorem SameRun.fetched (f : Fetched BitReader) : SameRun (s.fetched f) (t.fetched f) :=
  ⟨⟨h.job.inm, h.job.inLen, h.job.width, h.job.height, h.job.channels, h.job.par⟩, h.phase, rfl, h.opos, h.bfinal, h.s1, h.s2, h.row,
    h.err, h.outLen, h.pixLen, h.inMatch, h.geometry, h.out, h.pix, h.btype, h.lens, h.tables, h.mlen, h.wf⟩

/-- To a phase with no register of its own. -/
theorem SameRun.toPhase {p q : Phase} (hpq : p = q) (hc : s.phase ≠ .cfg) (hp : p ≠ .dynhdr ∧ p ≠ .dynlens ∧ p ≠ .symloop) :
    SameRun { s with phase := p } { t with phase := q } :=
  ⟨⟨h.job.inm, h.job.inLen, h.job.width, h.job.height, h.job.channels, h.job.par⟩, hpq, h.br, h.opos, h.bfinal, h.s1, h.s2, h.row,
    h.err, h.outLen, h.pixLen, h.inMatch, fun _ => h.geometry hc, h.out, fun _ => h.pix hc,
    fun e => by rcases e with e | e | e <;> simp_all, fun e => by simp_all, fun e => by simp_all, h.mlen, h.wf⟩

/-- The end of a block (R171). -/
theorem SameRun.endOfBlock (hc : s.phase ≠ .cfg) : SameRun (endOfBlock s) (endOfBlock t) :=
  h.toPhase (by rw [h.bfinal]) hc (by cases s.bfinal <;> simp)

/-- The bit reader moves alike. -/
theorem SameRun.withReader (br : BitReader) : SameRun { s with br := br } { t with br := br } :=
  ⟨⟨h.job.inm, h.job.inLen, h.job.width, h.job.height, h.job.channels, h.job.par⟩, h.phase, rfl, h.opos, h.bfinal, h.s1, h.s2, h.row,
    h.err, h.outLen, h.pixLen, h.inMatch, h.geometry, h.out, h.pix, h.btype, h.lens, h.tables, h.mlen, h.wf⟩

/-- EMIT acts alike (R214). -/
theorem SameRun.emit (hc : s.phase ≠ .cfg) (b : Byte) : Agree SameRun (emit b s) (emit b t) := by
  obtain ⟨w1, w2, w3, w4⟩ := h.wf
  simp only [Machine.emit, (h.geometry hc).1, h.opos]
  split
  · exact .error _
  · rename_i hlt
    refine .ok ⟨⟨h.job.inm, h.job.inLen, h.job.width, h.job.height, h.job.channels, h.job.par⟩, h.phase, h.br, ?_, h.bfinal, ?_, ?_,
      h.row, h.err, h.outLen, h.pixLen, h.inMatch, h.geometry, ?_, h.pix, h.btype, h.lens, h.tables, h.mlen, Memory.wf_write w1 _ _,
      Memory.wf_write w2 _ _, w3, w4⟩
    · simp only [emitByte_opos, h.opos]
    · simp only [emitByte_s1, h.s1]
    · simp only [emitByte_s2, h.s1, h.s2]
    · intro a ha
      have : (s.opos + 1).toNat = s.opos.toNat + 1 := by
        have := t.expected.isLt
        rw [h.opos, BitVec.toNat_add]
        simp
        omega
      rw [emitByte_opos, this] at ha
      simp only [emitByte_out]
      rw [Memory.read_write w1, Memory.read_write w2, h.opos]
      split
      · rfl
      · exact h.out a (by rw [h.opos] at ha ⊢; omega)

/-- GETBITS answers alike (R132). -/
theorem SameRun.getbits (n : Nat) : Agree (fun p q => p.1 = q.1 ∧ SameRun p.2 q.2) (stateGetbits n s) (stateGetbits n t) := by
  have hsrc : Machine.getbits s.inm s.inLen.toNat s.par n s.br = Machine.getbits t.inm t.inLen.toNat t.par n t.br := by
    have := readerSource_congr h.job.inm s.par
    simp only [readerSource, BitSource.mk.injEq, and_true] at this
    rw [this, h.job.inLen, h.job.par, h.br]
  simp only [stateGetbits, hsrc]
  split
  · exact .error _
  · exact .ok ⟨rfl, h.withReader _⟩

/-- DICTID (R303). -/
theorem SameRun.skipBytes (k : Nat) : Agree SameRun (skipBytes k s) (skipBytes k t) := by
  induction k generalizing s t with
  | zero => exact .ok h
  | succ k ih =>
    simp only [Machine.skipBytes]
    rcases h.getbits 8 with ⟨e, h1, h2⟩ | ⟨⟨a, u⟩, ⟨b, v⟩, h1, h2, -, h3⟩ <;> rw [h1, h2]
    · exact .error _
    · exact ih h3

end

/-- No EMIT or GETBITS changes the phase or MDIST. -/
theorem emit_fixed {s t : State} {b : Byte} (h : emit b s = .ok t) :
    t.phase = s.phase ∧ t.mdist = s.mdist ∧ t.opos.toNat = s.opos.toNat + 1 := by
  simp only [emit] at h
  split at h
  · cases h
  · simp only [Except.ok.injEq] at h
    subst h
    refine ⟨rfl, rfl, ?_⟩
    have := s.expected.isLt
    rw [emitByte_opos, BitVec.toNat_add]
    simp
    omega

theorem stateGetbits_phase {n v : Nat} {s t : State} (h : stateGetbits n s = .ok (v, t)) : t.phase = s.phase := by
  simp only [stateGetbits] at h
  split at h <;> simp only [Except.ok.injEq, Prod.mk.injEq, reduceCtorEq] at h
  rw [← h.2]

theorem readBytesAligned_phase (n : Nat) : ∀ {s t : State}, readBytesAligned n s = .ok t → t.phase = s.phase := by
  induction n with
  | zero => intro s t h; cases h; rfl
  | succ n ih =>
    intro s t h
    simp only [readBytesAligned] at h
    split at h
    · cases h
    · rename_i u hu
      rw [ih h]
      exact (emit_fixed hu).1

theorem readBytesShifted_phase (n : Nat) : ∀ {s t : State}, readBytesShifted n s = .ok t → t.phase = s.phase := by
  induction n with
  | zero => intro s t h; cases h; rfl
  | succ n ih =>
    intro s t h
    simp only [readBytesShifted] at h
    split at h
    · cases h
    · rename_i u hu
      split at h
      · cases h
      · rename_i v hv
        rw [ih h, (emit_fixed hv).1, stateGetbits_phase hu]

theorem readBytes_phase {n : Nat} {s t : State} (h : readBytes n s = .ok t) : t.phase = s.phase := by
  simp only [readBytes] at h
  split at h
  · split at h
    · cases h
    · exact readBytesAligned_phase n h
  · exact readBytesShifted_phase n h

section
variable {s t : State} (h : SameRun s t) (hc : s.phase ≠ .cfg)
include h hc

theorem SameRun.readBytesAligned (k : Nat) (hin : s.br.pos.toNat + k ≤ s.inLen.toNat) :
    Agree SameRun (readBytesAligned k s) (readBytesAligned k t) := by
  induction k generalizing s t with
  | zero => exact .ok h
  | succ k ih =>
    have hb : Memory.read s.inm s.br.pos.toNat = Memory.read t.inm t.br.pos.toNat := by
      rw [← h.br]
      exact h.job.inm _ (by omega)
    simp only [Machine.readBytesAligned, hb]
    rcases h.emit hc (Memory.read t.inm t.br.pos.toNat) with ⟨e, h1, h2⟩ | ⟨u, v, h1, h2, h3⟩ <;> rw [h1, h2]
    · exact .error _
    · have hbr : u.br = s.br ∧ u.inLen = s.inLen := by
        simp only [Machine.emit] at h1
        split at h1 <;> simp only [Except.ok.injEq, reduceCtorEq] at h1
        subst h1
        exact ⟨rfl, rfl⟩
      refine ih ?_ ?_ ?_
      · simpa [h3.br] using h3.withReader { v.br with pos := v.br.pos + 1 }
      · exact (emit_fixed h1).1 ▸ hc
      · have := s.inLen.isLt
        simp only [hbr.1, hbr.2, BitVec.toNat_add]
        simp
        omega

theorem SameRun.readBytesShifted (k : Nat) : Agree SameRun (readBytesShifted k s) (readBytesShifted k t) := by
  induction k generalizing s t with
  | zero => exact .ok h
  | succ k ih =>
    simp only [Machine.readBytesShifted]
    rcases h.getbits 8 with ⟨e, h1, h2⟩ | ⟨⟨a, u⟩, ⟨b, v⟩, h1, h2, h3, h4⟩ <;> rw [h1, h2]
    · exact .error _
    · simp only at h3 h4
      subst h3
      have hcu : u.phase ≠ .cfg := by
        simp only [stateGetbits] at h1
        split at h1 <;> simp only [Except.ok.injEq, Prod.mk.injEq, reduceCtorEq] at h1
        rw [← h1.2]
        exact hc
      simp only
      rcases h4.emit hcu (BitVec.ofNat 8 a) with ⟨e, h5, h6⟩ | ⟨u', v', h5, h6, h7⟩ <;> rw [h5, h6]
      · exact .error _
      · exact ih h7 (by rw [(emit_fixed h5).1]; exact hcu)

/-- READBYTES acts alike (R135). -/
theorem SameRun.readBytes (k : Nat) : Agree SameRun (readBytes k s) (readBytes k t) := by
  simp only [Machine.readBytes, ← h.br, ← h.job.inLen]
  split
  · split
    · exact .error _
    · exact h.readBytesAligned hc k (by omega)
  · exact h.readBytesShifted hc k

/-- The copy loop acts alike within the bytes produced (R218). -/
theorem SameRun.copyLoop (k : Nat) (hd : s.mdist = t.mdist) (h1 : 1 ≤ s.mdist.toNat) (hle : s.mdist.toNat ≤ s.opos.toNat) :
    Agree SameRun (copyLoop k s) (copyLoop k t) := by
  induction k generalizing s t with
  | zero => exact .ok h
  | succ k ih =>
    have hro : readOut (s.opos.toNat - s.mdist.toNat) s = readOut (t.opos.toNat - t.mdist.toNat) t := by
      simp only [readOut, ← hd, ← h.opos, ← (h.geometry hc).1]
      rw [h.out _ (by omega)]
    simp only [Machine.copyLoop, hro]
    split
    · exact .error _
    · rename_i b _
      rcases h.emit hc b with ⟨e, h5, h6⟩ | ⟨u, v, h5, h6, h7⟩ <;> rw [h5, h6]
      · exact .error _
      · obtain ⟨f1, f2, f3⟩ := emit_fixed h5
        obtain ⟨-, g2, -⟩ := emit_fixed h6
        exact ih h7 (by rw [f1]; exact hc) (by rw [f2, g2, hd]) (by rw [f2]; exact h1) (by rw [f2, f3]; omega)

end

/-- Operations that act alike, run by `finish`. -/
theorem Agree.finish {p q : Except Stop State} (h : Agree SameRun p q) (s t : State) : AgreedResults (finish s p) (finish t q) := by
  rcases h with ⟨e, h1, h2⟩ | ⟨a, b, h1, h2, h3⟩ <;> rw [h1, h2]
  · cases e with
    | raise e => exact .raise e s t
    | fault f => exact .fault f _
    | refuse r => exact .refused r _
  · exact .next (.inl h3)

section
variable {s t : State} (h : SameRun s t)
include h

/-- The next element's context is the same (R107). -/
theorem SameRun.elementCtx_eq : elementCtx s = elementCtx t := by
  unfold elementCtx
  rw [← h.phase]
  cases hp : s.phase <;> try rfl
  · obtain ⟨h1, h2, h3, h4, -⟩ := h.lens hp
    have e : s.totalLens = t.totalLens := by simp only [State.totalLens, h1, h2]
    by_cases hl : t.lidx.toNat < t.totalLens
    · rw [if_pos hl, if_pos (by rw [e, h3]; exact hl), h3, h4]
    · rw [if_neg hl, if_neg (by rw [e, h3]; exact hl)]
  · have hb := h.btype (.inr (.inr hp))
    simp only [h.inMatch, State.dTable, State.llTable, hb]
    rcases h.tables hp with h1 | ⟨h1, h2⟩
    · rw [hb] at h1
      simp [h1]
    · rw [h1, h2]

/-- From agreement on each element to agreement on the step that fetches it. -/
theorem SameRun.element (hs : Inv s) (hb : s.busy) {c : Ctx} (hp : s.phase ≠ .unfilter) (hc : elementCtx s = some c)
    (hrun : ∀ g u v, decode bitStringSource c (readerString s.inm s.inLen.toNat s.br) = .ok g → SameRun u v → u.phase = s.phase →
      (u.lidx = s.lidx ∧ u.hlit = s.hlit ∧ u.hdist = s.hdist) → u.inMatch = s.inMatch →
      AgreedResults (exec g.instr u) (exec g.instr v)) :
    AgreedResults (coreStep s) (coreStep t) := by
  have hc' := hc
  rw [h.elementCtx_eq] at hc'
  have hp' : t.phase ≠ .unfilter := by rwa [← h.phase]
  have hsrc : readerSource t.inm t.inLen.toNat t.par = readerSource s.inm s.inLen.toNat s.par := by
    rw [← h.job.inLen, ← h.job.par]
    exact (readerSource_congr h.job.inm _).symm
  simp only [coreStep, fetch_of_ctx hp hc, fetch_of_ctx hp' hc', fetchElement, hsrc, ← h.br]
  rcases decode_reader s.inLen.isLt hs.par (hs.reader hb) c with ⟨e, h1, -⟩ | ⟨f, g, h1, h2, h3, -, -, -⟩
  · rw [h1]
    cases e <;> first
      | exact .raise _ s t
      | exact .refused _ _
      | exact .fault _ _
  · rw [h1]
    have := hrun g _ _ h2 (h.fetched f) rfl ⟨rfl, rfl, rfl⟩ rfl
    rwa [← h3] at this

theorem SameRun.zhdr (hc : s.phase ≠ .cfg) (a b : Byte) : AgreedResults (exec (.zhdr a b) s) (exec (.zhdr a b) t) := by
  have h1 := h.toPhase (p := .blkhdr) rfl hc (by simp)
  have hf : s.par.fdictMode = t.par.fdictMode := by rw [h.job.par]
  refine Agree.finish ?_ s t
  simp only [headerCheck, hf]
  split
  · exact .error _
  · split
    · exact .error _
    · split
      · split
        · exact .error _
        · exact h1.skipBytes 4
      · exact .ok h1

theorem SameRun.blk (hc : s.phase ≠ .cfg) (f : Bool) (ty : BitVec 2) :
    AgreedResults (exec (blkInstr f ty) s) (exec (blkInstr f ty) t) := by
  rcases blkInstr_exec f ty with ⟨-, e⟩ | ⟨body, hbody, e⟩ <;> rw [e s, e t]
  · exact .next (.fault _ s t)
  · refine .next (.inl ⟨⟨h.job.inm, h.job.inLen, h.job.width, h.job.height, h.job.channels, h.job.par⟩, rfl, h.br, h.opos, rfl, h.s1,
      h.s2, h.row, h.err, h.outLen, h.pixLen, h.inMatch, fun _ => h.geometry hc, h.out, fun _ => h.pix hc, fun _ => rfl, ?_, ?_,
      h.mlen, h.wf⟩)
    · intro hp
      rcases hbody with ⟨-, rfl⟩ | ⟨-, rfl⟩ | ⟨-, rfl⟩ <;> cases hp
    · intro hp
      rcases hbody with ⟨rfl, rfl⟩ | ⟨rfl, rfl⟩ | ⟨rfl, rfl⟩
      · cases hp
      · exact .inl rfl
      · cases hp

theorem SameRun.stored (hc : s.phase ≠ .cfg) (a b : BitVec 16) :
    AgreedResults (exec (.storedbody a b) s) (exec (.storedbody a b) t) := by
  have h1 : SameRun { s with slen := a, snlen := b } { t with slen := a, snlen := b } :=
    ⟨⟨h.job.inm, h.job.inLen, h.job.width, h.job.height, h.job.channels, h.job.par⟩, h.phase, h.br, h.opos, h.bfinal, h.s1, h.s2, h.row,
      h.err, h.outLen, h.pixLen, h.inMatch, h.geometry, h.out, h.pix, h.btype, h.lens, h.tables, h.mlen, h.wf⟩
  refine Agree.finish ?_ s t
  simp only [storedBody]
  by_cases hz : a = ~~~b
  · by_cases hf : s.expected.toNat < s.opos.toNat + a.toNat
    · rw [if_neg (by simpa using hz), if_pos hf, if_neg (by simpa using hz), if_pos (by rw [← (h.geometry hc).1, ← h.opos]; exact hf)]
      exact .error _
    · rw [if_neg (by simpa using hz), if_neg hf, if_neg (by simpa using hz),
        if_neg (by rw [← (h.geometry hc).1, ← h.opos]; exact hf)]
      rcases h1.readBytes hc a.toNat with ⟨e, h2, h3⟩ | ⟨u, v, h2, h3, h4⟩ <;> rw [h2, h3]
      · exact .error _
      · exact .ok (h4.endOfBlock (by rw [readBytes_phase h2]; exact hc))
  · rw [if_pos hz, if_pos hz]
    exact .error _

theorem SameRun.dynhdr (hp : s.phase = .dynhdr) (a b : BitVec 5) (c : BitVec 4) (ls : List (BitVec 3)) :
    AgreedResults (exec (.dynhdr a b c ls) s) (exec (.dynhdr a b c ls) t) := by
  have hc : s.phase ≠ .cfg := by simp [hp]
  refine Agree.finish ?_ s t
  have e : (dynhdrRegs a b c ls s).cllens = (dynhdrRegs a b c ls t).cllens := rfl
  simp only [dynHeader, e]
  cases build ((dynhdrRegs a b c ls t).cllens.toList.map BitVec.toNat) with
  | error e => exact .error _
  | ok T =>
    exact .ok ⟨⟨h.job.inm, h.job.inLen, h.job.width, h.job.height, h.job.channels, h.job.par⟩, rfl, h.br, h.opos, h.bfinal, h.s1, h.s2,
      h.row, h.err, h.outLen, h.pixLen, h.inMatch, fun _ => h.geometry hc, h.out, fun _ => h.pix hc, fun _ => h.btype (.inl hp),
      fun _ => ⟨rfl, rfl, rfl, rfl, fun k hk => absurd hk (Nat.not_lt_zero k)⟩, fun e => (by cases e), h.mlen, h.wf⟩

/-- Code lengths written alike (R188, R189). -/
theorem SameRun.withLens (hp : s.phase = .dynlens) {l l' : Vector (BitVec 4) 320} {n : BitVec 9}
    (hl : ∀ k, k < n.toNat → l[k]? = l'[k]?) : SameRun { s with lens := l, lidx := n } { t with lens := l', lidx := n } := by
  obtain ⟨h1, h2, h3, h4, -⟩ := h.lens hp
  exact ⟨⟨h.job.inm, h.job.inLen, h.job.width, h.job.height, h.job.channels, h.job.par⟩, h.phase, h.br, h.opos, h.bfinal, h.s1, h.s2,
    h.row, h.err, h.outLen, h.pixLen, h.inMatch, h.geometry, h.out, h.pix, h.btype, fun _ => ⟨h1, h2, rfl, h4, hl⟩, h.tables, h.mlen,
    h.wf⟩

theorem SameRun.repeatLen (hp : s.phase = .dynlens) (v : BitVec 4) (r : Nat) (hsum : s.totalLens ≤ 320) :
    Agree SameRun (repeatLen v r s) (repeatLen v r t) := by
  obtain ⟨h1, h2, h3, h4, h5⟩ := h.lens hp
  have htot : t.totalLens = s.totalLens := by simp only [State.totalLens, h1, h2]
  rcases repeatLen_cases (u := s) v r hsum with ⟨h6, h7⟩ | ⟨h6, h7⟩ <;>
    rcases repeatLen_cases (u := t) v r (by omega) with ⟨h8, h9⟩ | ⟨h8, h9⟩ <;> rw [h7, h9]
  · exact .error _
  · rw [htot, ← h3] at h8; omega
  · rw [htot, ← h3] at h8; omega
  · refine .ok ?_
    rw [← h3]
    refine h.withLens hp fun k hk => ?_
    have hk' : k < s.lidx.toNat + r := by simp only [BitVec.toNat_ofNat] at hk; omega
    rw [Vector.getElem?_eq_getElem (by omega), Vector.getElem?_eq_getElem (by omega)]
    simp only [fillLens, Vector.getElem_ofFn, Fin.getElem_fin]
    split
    · rfl
    · have := h5 k (by omega)
      rw [Vector.getElem?_eq_getElem (by omega), Vector.getElem?_eq_getElem (by omega)] at this
      exact this

theorem SameRun.codeLength (hp : s.phase = .dynlens) (hsum : s.totalLens ≤ 320) (hlt : s.lidx.toNat < s.totalLens) {n e : Nat}
    {i : Instr} (hi : clInstr n e = some i) : AgreedResults (exec i s) (exec i t) := by
  obtain ⟨h1, h2, h3, h4, h5⟩ := h.lens hp
  rcases clInstr_exec hi with ⟨v, e⟩ | ⟨-, x, e⟩ | ⟨r, -, -, e⟩ <;> rw [e s, e t]
  · refine Agree.finish ?_ s t
    simp only [setLen, ← h3]
    rw [if_pos (by omega), if_pos (by omega)]
    refine .ok (h.withLens hp fun k hk => ?_)
    have hk' : k < s.lidx.toNat + 1 := by simp only [BitVec.toNat_add] at hk; simp at hk; omega
    simp only [Vector.getElem?_setIfInBounds]
    split
    · rfl
    · exact h5 k (by omega)
  · refine Agree.finish ?_ s t
    simp only [repeatPrevious, previousLen, ← h3]
    split
    · exact .error _
    · rename_i h0
      have hne : s.lidx.toNat ≠ 0 := fun e => h0 (BitVec.eq_of_toNat_eq e)
      have h6 := h5 (s.lidx.toNat - 1) (by omega)
      rw [Vector.getElem?_eq_getElem (by omega), Vector.getElem?_eq_getElem (by omega)] at h6
      rw [Vector.getElem?_eq_getElem (by omega), Vector.getElem?_eq_getElem (by omega), Option.some.inj h6]
      exact h.repeatLen hp _ _ hsum
  · exact Agree.finish (h.repeatLen hp _ _ hsum) s t

theorem SameRun.symbol (hp : s.phase = .symloop) {n e : Nat} {i : Instr} (hi : llInstr n e = some i) :
    AgreedResults (exec i s) (exec i t) := by
  have hc : s.phase ≠ .cfg := by simp [hp]
  rcases llInstr_exec hi with ⟨b, e⟩ | e | ⟨base, x, -, -, e⟩ | e <;> rw [e s, e t]
  · exact Agree.finish (h.emit hc b) s t
  · exact .next (.inl (h.endOfBlock hc))
  · exact .next (.inl ⟨⟨h.job.inm, h.job.inLen, h.job.width, h.job.height, h.job.channels, h.job.par⟩, h.phase, h.br, h.opos, h.bfinal,
      h.s1, h.s2, h.row, h.err, h.outLen, h.pixLen, rfl, h.geometry, h.out, h.pix, h.btype, h.lens, h.tables, fun _ => rfl, h.wf⟩)
  · exact .next (.fault _ s t)

theorem SameRun.distance (hp : s.phase = .symloop) (hm : s.inMatch = true) {n e : Nat} {i : Instr} (hi : dInstr n e = some i) :
    AgreedResults (exec i s) (exec i t) := by
  have hc : s.phase ≠ .cfg := by simp [hp]
  rcases dInstr_exec hi with ⟨base, x, h1, h2, e⟩ | e <;> rw [e s, e t]
  · refine Agree.finish ?_ s t
    have hw : SameRun { s with mdist := BitVec.ofNat 16 (base + x), inMatch := false }
        { t with mdist := BitVec.ofNat 16 (base + x), inMatch := false } :=
      ⟨⟨h.job.inm, h.job.inLen, h.job.width, h.job.height, h.job.channels, h.job.par⟩, h.phase, h.br, h.opos, h.bfinal, h.s1, h.s2,
        h.row, h.err, h.outLen, h.pixLen, rfl, h.geometry, h.out, h.pix, h.btype, h.lens, h.tables, fun e => (by cases e), h.wf⟩
    have hd : (BitVec.ofNat 16 (base + x)).toNat = base + x := by simp; omega
    have e1 := (h.geometry hc).1
    have hk : s.mlen.toNat = t.mlen.toNat := by rw [h.mlen hm]
    simp only [distanceElement, matchCopy, hd]
    by_cases c1 : s.opos.toNat < base + x
    · rw [if_pos c1, if_pos (by rw [← h.opos]; exact c1)]
      exact .error _
    · have c1' : ¬ t.opos.toNat < base + x := by rw [← h.opos]; exact c1
      rw [if_neg c1, if_neg c1']
      by_cases c2 : s.expected.toNat < s.opos.toNat + s.mlen.toNat
      · rw [if_pos c2, if_pos (by rw [← h.opos, ← e1, ← hk]; exact c2)]
        exact .error _
      · have c2' : ¬ t.expected.toNat < t.opos.toNat + t.mlen.toNat := by rw [← h.opos, ← e1, ← hk]; exact c2
        rw [if_neg c2, if_neg c2', ← hk]
        exact hw.copyLoop hc s.mlen.toNat rfl (by simp only [hd]; exact h1) (by simp only [hd]; omega)
  · exact .next (.fault _ s t)

theorem SameRun.trailer (hc : s.phase ≠ .cfg) (v : Word) : AgreedResults (exec (.ztrl v) s) (exec (.ztrl v) t) := by
  refine Agree.finish ?_ s t
  have e : s.checksum = t.checksum := by rw [State.checksum, State.checksum, h.s1, h.s2]
  simp only [trailerCheck, ← e]
  by_cases hv : v = s.checksum
  · rw [if_neg (by simpa using hv), if_neg (by simpa using hv)]
    exact .ok (h.toPhase rfl hc (by simp))
  · rw [if_pos hv, if_pos hv]
    exact .error _

/-- One row of UNFILTER (R321, R63). -/
theorem SameRun.filterRow (hc : s.phase ≠ .cfg) (hs : GeometryInv s) (ht : GeometryInv t) (hrow : s.row.toNat < s.height.toNat)
    (hdone : s.opos = s.expected) (b : Byte) (pred : Byte → Byte → Byte → Byte) :
    Agree SameRun (unfilterRow b pred s) (unfilterRow b pred t) := by
  obtain ⟨w1, w2, w3, w4⟩ := h.wf
  obtain ⟨g1, g2, g3⟩ := h.geometry hc
  have hrb : ∀ {s : State}, GeometryInv s → 1 ≤ s.rowbytes.toNat := fun hs => by
    rw [hs.rowbytes_eq, State.cfgRowBytes]
    exact Nat.mul_pos (Nat.pos_of_ne_zero hs.width_pos) hs.channels_pos
  have hrow' : t.row.toNat < t.height.toNat := by rw [← h.row, ← h.job.height]; exact hrow
  have hready := hs.rowReady hrow
  obtain ⟨u, u1, u2, u3, u4, u5⟩ := unfilterRow_spec (t := b) (pred := pred) hready w3 (hrb hs)
  obtain ⟨v, v1, v2, v3, v4, v5⟩ := unfilterRow_spec (t := b) (pred := pred) (ht.rowReady hrow') w4 (hrb ht)
  rw [u1, v1]
  refine .ok ?_
  rw [← h.row, ← g2] at v4 v5
  have old : ∀ a, a < s.row.toNat * s.rowbytes.toNat → Memory.read u.pix a = Memory.read v.pix a := fun a ha => by
    rw [u5 a (.inl ha), v5 a (.inl ha), h.pix hc a ha]
  have hr : u.row = s.row ∧ u.rowbytes = s.rowbytes ∧ u.bpp = s.bpp := by rw [u2]; exact ⟨rfl, rfl, rfl⟩
  have hr' : v.row = s.row ∧ v.rowbytes = s.rowbytes ∧ v.bpp = s.bpp := by rw [v2]; exact ⟨h.row.symm, g2.symm, g3.symm⟩
  have new : ∀ c, c < s.rowbytes.toNat →
      Memory.read u.pix (s.row.toNat * s.rowbytes.toNat + c) = Memory.read v.pix (s.row.toNat * s.rowbytes.toNat + c) := by
    intro c
    induction c using Nat.strong_induction_on with
    | _ c ih =>
      intro hcb
      have hb := hready.bpp_pos
      have hx : filteredByte s c = filteredByte t c := by
        rw [filteredByte, filteredByte, ← h.row, ← g2]
        refine h.out _ ?_
        rw [hdone, hready.expected_eq, Nat.add_assoc]
        exact row_in_range hrow (by omega)
      have hl : leftByte u c = leftByte v c := by
        simp only [leftByte, hr, hr']
        split
        · rename_i hh
          have := ih (c - s.bpp.toNat) (by omega) (by omega)
          rwa [← Nat.add_sub_assoc hh] at this
        · rfl
      have ha : aboveByte u c = aboveByte v c := by
        simp only [aboveByte, hr, hr']
        split
        · rename_i hh
          have := prevRow (rb := s.rowbytes.toNat) hh
          exact old _ (by omega)
        · rfl
      have hal : aboveLeftByte u c = aboveLeftByte v c := by
        simp only [aboveLeftByte, hr, hr']
        split
        · rename_i hh
          have := prevRow (rb := s.rowbytes.toNat) hh.1
          exact old _ (by omega)
        · rfl
      rw [u4 c hcb, v4 c hcb, hx, hl, ha, hal]
  have hnext : (s.row + 1).toNat = s.row.toNat + 1 := by
    have := s.height.isLt
    rw [BitVec.toNat_add]
    simp
    omega
  have all : ∀ a, a < (s.row.toNat + 1) * s.rowbytes.toNat → Memory.read u.pix a = Memory.read v.pix a := by
    intro a ha
    rw [Nat.add_mul, Nat.one_mul] at ha
    by_cases hlt : a < s.row.toNat * s.rowbytes.toNat
    · exact old a hlt
    · have := new (a - s.row.toNat * s.rowbytes.toNat) (by omega)
      rwa [show s.row.toNat * s.rowbytes.toNat + (a - s.row.toNat * s.rowbytes.toNat) = a by omega] at this
  clear u1 u4 u5 v1 v4 v5 old new hr hr'
  generalize u.pix = p at *
  generalize v.pix = q at *
  subst u2 v2
  refine ⟨⟨h.job.inm, h.job.inLen, h.job.width, h.job.height, h.job.channels, h.job.par⟩, h.phase, h.br, h.opos, h.bfinal, h.s1, h.s2,
    by simp only [h.row], h.err, h.outLen, h.pixLen, h.inMatch, h.geometry, h.out, fun _ a ha => all a ?_, h.btype, h.lens, h.tables,
    h.mlen, w1, w2, u3, v3⟩
  simp only [hnext] at ha
  exact ha

end

section
variable {s t : State} (h : SameRun s t) (hs : Inv s)
include h hs

/-- DYNBUILD (R187, R193). -/
theorem SameRun.dynBuild (hp : s.phase = .dynlens) (hdone : ¬ s.lidx.toNat < s.totalLens) :
    Agree SameRun (dynBuild s) (dynBuild t) := by
  have hc : s.phase ≠ .cfg := by simp [hp]
  obtain ⟨h1, h2, h3, h4, h5⟩ := h.lens hp
  have hj := (hs.job (busy_of_phase hp rfl) hc).lens hp
  have htot : s.totalLens = s.hlit.toNat + s.hdist.toNat := rfl
  have hget : ∀ k, k < s.hlit.toNat + s.hdist.toNat → s.lens.toList[k]? = t.lens.toList[k]? := by
    intro k hk
    have := h5 k (by omega)
    rw [Vector.getElem?_toList, Vector.getElem?_toList]
    exact this
  have e1 : s.llLens = t.llLens := by
    rw [State.llLens, State.llLens, ← h1]
    congr 1
    apply List.ext_getElem?
    intro k
    rw [List.getElem?_take, List.getElem?_take]
    split
    · exact hget k (by omega)
    · rfl
  have e2 : s.dLens = t.dLens := by
    rw [State.dLens, State.dLens, ← h1, ← h2]
    congr 1
    apply List.ext_getElem?
    intro k
    rw [List.getElem?_take, List.getElem?_take]
    split
    · rw [List.getElem?_drop, List.getElem?_drop]
      exact hget _ (by omega)
    · rfl
  simp only [Machine.dynBuild, e1, e2]
  split
  · exact .error _
  · split
    · exact .error _
    · exact .ok ⟨⟨h.job.inm, h.job.inLen, h.job.width, h.job.height, h.job.channels, h.job.par⟩, rfl, h.br, h.opos, h.bfinal, h.s1,
        h.s2, h.row, h.err, h.outLen, h.pixLen, h.inMatch, fun _ => h.geometry hc, h.out, fun _ => h.pix hc,
        fun _ => h.btype (.inr (.inl hp)), fun e => (by cases e), fun _ => .inr ⟨rfl, rfl⟩, h.mlen, h.wf⟩

/-- CFG (R353). -/
theorem SameRun.configCheck (hp : s.phase = .cfg) : Agree SameRun (configCheck s) (configCheck t) := by
  obtain ⟨hm, ho, hr⟩ := hs.cfg hp
  have e1 : s.cfgRowBytes = t.cfgRowBytes := by simp only [State.cfgRowBytes, h.job.width, h.job.channels]
  have e2 : s.cfgExpected = t.cfgExpected := by simp only [State.cfgExpected, h.job.height, e1]
  have c1 : (s.channels.toNat < 1 ∨ 4 < s.channels.toNat ∨ s.width = 0 ∨ s.height = 0) ↔
      (t.channels.toNat < 1 ∨ 4 < t.channels.toNat ∨ t.width = 0 ∨ t.height = 0) := by
    rw [h.job.channels, h.job.width, h.job.height]
  have c2 : (s.par.outCap.toNat < s.cfgExpected ∨ s.par.inCap.toNat < s.inLen.toNat ∨
      s.par.pixCap.toNat < s.height.toNat * s.cfgRowBytes) ↔ (t.par.outCap.toNat < t.cfgExpected ∨
      t.par.inCap.toNat < t.inLen.toNat ∨ t.par.pixCap.toNat < t.height.toNat * t.cfgRowBytes) := by
    rw [h.job.par, e1, e2, h.job.inLen, h.job.height]
  simp only [Machine.configCheck]
  by_cases p1 : s.channels.toNat < 1 ∨ 4 < s.channels.toNat ∨ s.width = 0 ∨ s.height = 0
  · rw [if_pos p1, if_pos (c1.1 p1)]
    exact .error _
  · rw [if_neg p1, if_neg (fun e => p1 (c1.2 e))]
    by_cases p2 : s.par.outCap.toNat < s.cfgExpected ∨ s.par.inCap.toNat < s.inLen.toNat ∨
      s.par.pixCap.toNat < s.height.toNat * s.cfgRowBytes
    · rw [if_pos p2, if_pos (c2.1 p2)]
      exact .error _
    · rw [if_neg p2, if_neg (fun e => p2 (c2.2 e))]
      refine .ok ⟨⟨h.job.inm, h.job.inLen, h.job.width, h.job.height, h.job.channels, h.job.par⟩, rfl, h.br, h.opos, h.bfinal, h.s1,
        h.s2, h.row, h.err, h.outLen, h.pixLen, h.inMatch, fun _ => ⟨by simp only [e2], by simp only [e1], h.job.channels⟩, h.out, ?_,
        fun e => ?_, fun e => (by cases e), fun e => (by cases e), h.mlen, h.wf⟩
      · intro _ a ha
        simp [hr] at ha
      · rcases e with e | e | e <;> cases e

/-- A step of the core keeps two agreeing runs in agreement (R402). -/
theorem SameRun.coreStep (ht : Inv t) (hb : s.busy) : AgreedResults (coreStep s) (coreStep t) := by
  have hph := h.phase
  have hb' := Phase.status_busy.1 hb
  have own : elementCtx s = none → ¬ (s.phase = .unfilter ∧ s.row.toNat < s.height.toNat) →
      Machine.coreStep s = phaseAction s ∧ Machine.coreStep t = phaseAction t := by
    intro hc hu
    have hc' := hc
    rw [h.elementCtx_eq] at hc'
    have hu' : ¬ (t.phase = .unfilter ∧ t.row.toNat < t.height.toNat) := by rw [← h.phase, ← h.row, ← h.job.height]; exact hu
    simp only [Machine.coreStep, fetch]
    rw [if_neg hu, if_neg hu', hc, hc']
    exact ⟨rfl, rfl⟩
  cases hp : s.phase with
  | idle => simp [hp] at hb'
  | done => simp [hp] at hb'
  | fault => simp [hp] at hb'
  | cfg =>
    obtain ⟨e1, e2⟩ := own (by simp [elementCtx, hp]) (by simp [hp])
    rw [e1, e2]
    simp only [phaseAction, ← hph, hp]
    exact Agree.finish (h.configCheck hs hp) s t
  | zhdr =>
    refine h.element hs hb (c := .zh) (by simp [hp]) (by simp [elementCtx, hp]) fun g u v hg hu hpu _ _ => ?_
    obtain ⟨⟨a, y⟩, -, hg⟩ := Except.bind_ok hg
    obtain ⟨⟨b, z⟩, -, hg⟩ := Except.bind_ok hg
    cases hg
    exact hu.zhdr (by rw [hpu, hp]; simp) _ _
  | blkhdr =>
    refine h.element hs hb (c := .bh) (by simp [hp]) (by simp [elementCtx, hp]) fun g u v hg hu hpu _ _ => ?_
    obtain ⟨⟨a, y⟩, -, hg⟩ := Except.bind_ok hg
    obtain ⟨⟨b, z⟩, -, hg⟩ := Except.bind_ok hg
    cases hg
    exact hu.blk (by rw [hpu, hp]; simp) _ _
  | stored =>
    refine h.element hs hb (c := .st) (by simp [hp]) (by simp [elementCtx, hp]) fun g u v hg hu hpu _ _ => ?_
    obtain ⟨⟨a, y⟩, -, hg⟩ := Except.bind_ok hg
    obtain ⟨⟨b, z⟩, -, hg⟩ := Except.bind_ok hg
    cases hg
    exact hu.stored (by rw [hpu, hp]; simp) _ _
  | dynhdr =>
    refine h.element hs hb (c := .dh) (by simp [hp]) (by simp [elementCtx, hp]) fun g u v hg hu hpu _ _ => ?_
    obtain ⟨⟨a, y⟩, -, hg⟩ := Except.bind_ok hg
    obtain ⟨⟨b, z⟩, -, hg⟩ := Except.bind_ok hg
    obtain ⟨⟨c, z'⟩, -, hg⟩ := Except.bind_ok hg
    obtain ⟨⟨ls, z''⟩, -, hg⟩ := Except.bind_ok hg
    cases hg
    exact hu.dynhdr (by rw [hpu, hp]) _ _ _ _
  | dynlens =>
    obtain ⟨h1, h2, h3, h4, h5, -⟩ := (hs.job hb (by simp [hp])).lens hp
    by_cases hlt : s.lidx.toNat < s.totalLens
    · refine h.element hs hb (c := .cl s.clt (decide (s.lidx ≠ 0))) (by simp [hp]) (by simp [elementCtx, hp, hlt])
        fun g u v hg hu hpu hl _ => ?_
      obtain ⟨r, y, e, -, -, hmk, -⟩ := decodeCoded_ok hg
      have htot : u.totalLens = s.totalLens := by simp only [State.totalLens, hl]
      exact hu.codeLength (by rw [hpu, hp]) (by rw [htot, State.totalLens]; omega) (by rw [htot, hl.1]; exact hlt) hmk
    · obtain ⟨e1, e2⟩ := own (by simp only [elementCtx, hp]; rw [if_neg hlt]) (by simp [hp])
      rw [e1, e2]
      simp only [phaseAction, ← hph, hp]
      exact Agree.finish (h.dynBuild hs hp hlt) s t
  | symloop =>
    cases hm : s.inMatch with
    | false =>
      refine h.element hs hb (c := .ll s.llTable) (by simp [hp]) (by simp [elementCtx, hp, hm]) fun g u v hg hu hpu _ _ => ?_
      obtain ⟨r, y, e, -, -, hmk, -⟩ := decodeCoded_ok hg
      exact hu.symbol (by rw [hpu, hp]) hmk
    | true =>
      refine h.element hs hb (c := .d s.dTable) (by simp [hp]) (by simp [elementCtx, hp, hm]) fun g u v hg hu hpu _ hmu => ?_
      obtain ⟨r, y, e, -, -, hmk, -⟩ := decodeCoded_ok hg
      exact hu.distance (by rw [hpu, hp]) (by rw [hmu, hm]) hmk
  | endchk =>
    obtain ⟨e1, e2⟩ := own (by simp [elementCtx, hp]) (by simp [hp])
    rw [e1, e2]
    simp only [phaseAction, ← hph, hp]
    refine Agree.finish ?_ s t
    have e : s.opos = s.expected ↔ t.opos = t.expected := by rw [h.opos, (h.geometry (by simp [hp])).1]
    simp only [endCheck]
    by_cases hv : s.opos = s.expected
    · rw [if_neg (by simpa using hv), if_neg (by simpa using e.1 hv)]
      exact .ok (h.toPhase rfl (by simp [hp]) (by simp))
    · rw [if_pos hv, if_pos (fun e' => hv (e.2 e'))]
      exact .error _
  | trailer =>
    refine h.element hs hb (c := .tr) (by simp [hp]) (by simp [elementCtx, hp]) fun g u v hg hu hpu _ _ => ?_
    obtain ⟨⟨a, y⟩, -, hg⟩ := Except.bind_ok hg
    obtain ⟨⟨b, z⟩, -, hg⟩ := Except.bind_ok hg
    obtain ⟨⟨c, z'⟩, -, hg⟩ := Except.bind_ok hg
    obtain ⟨⟨d, z''⟩, -, hg⟩ := Except.bind_ok hg
    cases hg
    exact hu.trailer (by rw [hpu, hp]; simp) _
  | unfilter =>
    have hc : s.phase ≠ .cfg := by simp [hp]
    have hpt : t.phase = .unfilter := by rw [← hph, hp]
    have hj := hs.job hb hc
    have hj' := ht.job (busy_of_phase hpt rfl) (by simp [hpt])
    obtain ⟨g1, g2, g3⟩ := h.geometry hc
    by_cases hrow : s.row.toNat < s.height.toNat
    · have hrow' : t.row.toNat < t.height.toNat := by rw [← h.row, ← h.job.height]; exact hrow
      have hready := hj.geometry.rowReady hrow
      have hin : s.row.toNat * (1 + s.rowbytes.toNat) < s.expected.toNat := by
        rw [hready.expected_eq]
        exact row_in_range hrow (c := 0) (by omega)
      have hro : readOut (t.row.toNat * (1 + t.rowbytes.toNat)) t = readOut (s.row.toNat * (1 + s.rowbytes.toNat)) s := by
        simp only [readOut, ← h.row, ← g1, ← g2]
        rw [h.out _ (by rw [hj.complete (.inr hp)]; exact hin)]
      simp only [Machine.coreStep, fetch]
      rw [if_pos ⟨hp, hrow⟩, if_pos ⟨hpt, hrow'⟩]
      simp only [fetchFilter, hro]
      rw [readOut, if_pos hin]
      simp only
      rcases filterInstr_exec (Memory.read s.out (s.row.toNat * (1 + s.rowbytes.toNat))) with ⟨pred, e⟩ | e <;> rw [e s, e t]
      · exact Agree.finish (h.filterRow hc hj.geometry hj'.geometry hrow (hj.complete (.inr hp)) _ pred) s t
      · exact .next (.fault _ s t)
    · obtain ⟨e1, e2⟩ := own (by simp [elementCtx, hp]) (fun e => hrow e.2)
      rw [e1, e2]
      simp only [phaseAction, hp, hpt]
      refine .next (.inl ⟨⟨h.job.inm, h.job.inLen, h.job.width, h.job.height, h.job.channels, h.job.par⟩, rfl, h.br, h.opos, h.bfinal,
        h.s1, h.s2, h.row, h.err, h.opos, ?_, h.inMatch, fun _ => h.geometry hc, h.out, fun _ => h.pix hc, ?_, fun e => ?_,
        fun e => ?_, h.mlen, h.wf⟩)
      · simp only [completeJob, State.pixSize, g2, h.job.height]
      · rintro (e | e | e) <;> cases e
      · cases e
      · cases e

end

end Sys2Proof.Machine
end

