-- ==== Sys2Proof/Laws/PerInstr.lean ====
section
/-! SUPPORT. Statements about every element, made constructor by constructor. Family EncodedLength: how many bits an element takes in
the stream (spec R91 to R103). -/

namespace Sys2Proof.Laws.EncodedLength

/-- Wherever a well-formed element is encoded, it takes at least one bit and at most 71: DYNHDR with 19 lengths is the longest, 14 + 57
bits (R95); a coded element takes at most 15 bits of code and 13 of raw field (R97, R98, R100). -/
def Statement (i : Instr) : Prop :=
  i.wf = true → ∀ (c : Ctx) (pos : Nat) (bits : List Bool), encode c pos i = some bits → 1 ≤ bits.length ∧ bits.length ≤ 71

theorem lengthsBits_length (ls : List (BitVec 3)) : (lengthsBits ls).length = 3 * ls.length := by
  induction ls with
  | nil => rfl
  | cons l ls ih => simp [lengthsBits, ih]; omega

/-- The length of a code (R151). -/
theorem codeBits_length {T : HuffTable} {s : Nat} {code : List Bool} (h : codeBits T s = some code) :
    1 ≤ code.length ∧ code.length ≤ 15 := by
  obtain ⟨L, k, h1, h2, -, -, rfl⟩ := codeBits_some h
  rw [bitsMsb_length]; exact ⟨h1, h2⟩

theorem padding_lt (pos : Nat) : padding pos < 8 := by unfold padding; omega

/-- An element that no coded context encodes, with the lengths of its formats. -/
theorem raw {i : Instr}
    (hr : ∀ c pos bits, encode c pos i = some bits → 1 ≤ bits.length ∧ bits.length ≤ 71) : Statement i :=
  fun _ c pos bits h => hr c pos bits h

/-- A code-length element. -/
theorem cl {i : Instr} {s n e : Nat} (hs : i.shape = .cl s n e) (hn : n ≤ 13) : Statement i := by
  intro _ c pos bits h
  cases c <;> simp only [encode, hs] at h
  case cl T p =>
    split at h
    · cases h
    · rename_i code hc
      have := codeBits_length hc
      split at h
      · split at h
        · cases h; omega
        · cases h
      · cases h; simp; omega
  all_goals first
    | cases h
    | (cases i <;> simp only [Instr.shape, reduceCtorEq] at hs <;> cases h)

/-- A literal/length element. -/
theorem ll {i : Instr} {s n e : Nat} (hs : i.shape = .ll s n e) (hn : n ≤ 13) : Statement i := by
  intro _ c pos bits h
  cases c <;> simp only [encode, hs] at h
  case ll T =>
    split at h
    · cases h
    · rename_i code hc
      have := codeBits_length hc
      cases h; simp; omega
  all_goals first
    | cases h
    | (cases i <;> simp only [Instr.shape, reduceCtorEq] at hs <;> cases h)

/-- A distance element. -/
theorem d {i : Instr} {s n e : Nat} (hs : i.shape = .d s n e) (hn : n ≤ 13) : Statement i := by
  intro _ c pos bits h
  cases c <;> simp only [encode, hs] at h
  case d T =>
    split at h
    · cases h
    · rename_i code hc
      have := codeBits_length hc
      cases h; simp; omega
  all_goals first
    | cases h
    | (cases i <;> simp only [Instr.shape, reduceCtorEq] at hs <;> cases h)

theorem zhdr (cmf flg : Byte) : Statement (.zhdr cmf flg) := raw (by
  intro c pos bits hb
  cases c <;> simp only [encode, Instr.shape, reduceCtorEq] at hb
  cases hb
  simp)

theorem blkStored (bfinal : Bool) : Statement (.blkStored bfinal) := raw (by
  intro c pos bits hb
  cases c <;> simp only [encode, Instr.shape, reduceCtorEq] at hb
  cases hb
  simp)

theorem blkFixed (bfinal : Bool) : Statement (.blkFixed bfinal) := raw (by
  intro c pos bits hb
  cases c <;> simp only [encode, Instr.shape, reduceCtorEq] at hb
  cases hb
  simp)

theorem blkDyn (bfinal : Bool) : Statement (.blkDyn bfinal) := raw (by
  intro c pos bits hb
  cases c <;> simp only [encode, Instr.shape, reduceCtorEq] at hb
  cases hb
  simp)

theorem blkRsvd (bfinal : Bool) : Statement (.blkRsvd bfinal) := raw (by
  intro c pos bits hb
  cases c <;> simp only [encode, Instr.shape, reduceCtorEq] at hb
  cases hb
  simp)

theorem storedbody (len nlen : BitVec 16) : Statement (.storedbody len nlen) := raw (by
  intro c pos bits hb
  have := padding_lt pos
  cases c <;> simp only [encode, Instr.shape, reduceCtorEq] at hb
  cases hb
  simp; omega)

theorem dynhdr (hlit5 hdist5 : BitVec 5) (hclen4 : BitVec 4) (lengths : List (BitVec 3)) : Statement (.dynhdr hlit5 hdist5 hclen4 lengths) := by
  intro h c pos bits hb
  simp only [Instr.wf, beq_iff_eq] at h
  have := hclen4.isLt
  cases c <;> simp only [encode, Instr.shape, reduceCtorEq] at hb
  cases hb
  simp [lengthsBits_length, h]; omega

theorem cl0 : Statement .cl0 := cl rfl (by decide)

theorem cl1 : Statement .cl1 := cl rfl (by decide)

theorem cl2 : Statement .cl2 := cl rfl (by decide)

theorem cl3 : Statement .cl3 := cl rfl (by decide)

theorem cl4 : Statement .cl4 := cl rfl (by decide)

theorem cl5 : Statement .cl5 := cl rfl (by decide)

theorem cl6 : Statement .cl6 := cl rfl (by decide)

theorem cl7 : Statement .cl7 := cl rfl (by decide)

theorem cl8 : Statement .cl8 := cl rfl (by decide)

theorem cl9 : Statement .cl9 := cl rfl (by decide)

theorem cl10 : Statement .cl10 := cl rfl (by decide)

theorem cl11 : Statement .cl11 := cl rfl (by decide)

theorem cl12 : Statement .cl12 := cl rfl (by decide)

theorem cl13 : Statement .cl13 := cl rfl (by decide)

theorem cl14 : Statement .cl14 := cl rfl (by decide)

theorem cl15 : Statement .cl15 := cl rfl (by decide)

theorem cl16 (e : BitVec 2) : Statement (.cl16 e) := cl rfl (by decide)

theorem cl17 (e : BitVec 3) : Statement (.cl17 e) := cl rfl (by decide)

theorem cl18 (e : BitVec 7) : Statement (.cl18 e) := cl rfl (by decide)

theorem lit (b : Byte) : Statement (.lit b) := ll rfl (by decide)

theorem eob : Statement .eob := ll rfl (by decide)

theorem len257 : Statement .len257 := ll rfl (by decide)

theorem len258 : Statement .len258 := ll rfl (by decide)

theorem len259 : Statement .len259 := ll rfl (by decide)

theorem len260 : Statement .len260 := ll rfl (by decide)

theorem len261 : Statement .len261 := ll rfl (by decide)

theorem len262 : Statement .len262 := ll rfl (by decide)

theorem len263 : Statement .len263 := ll rfl (by decide)

theorem len264 : Statement .len264 := ll rfl (by decide)

theorem len265 (e : BitVec 1) : Statement (.len265 e) := ll rfl (by decide)

theorem len266 (e : BitVec 1) : Statement (.len266 e) := ll rfl (by decide)

theorem len267 (e : BitVec 1) : Statement (.len267 e) := ll rfl (by decide)

theorem len268 (e : BitVec 1) : Statement (.len268 e) := ll rfl (by decide)

theorem len269 (e : BitVec 2) : Statement (.len269 e) := ll rfl (by decide)

theorem len270 (e : BitVec 2) : Statement (.len270 e) := ll rfl (by decide)

theorem len271 (e : BitVec 2) : Statement (.len271 e) := ll rfl (by decide)

theorem len272 (e : BitVec 2) : Statement (.len272 e) := ll rfl (by decide)

theorem len273 (e : BitVec 3) : Statement (.len273 e) := ll rfl (by decide)

theorem len274 (e : BitVec 3) : Statement (.len274 e) := ll rfl (by decide)

theorem len275 (e : BitVec 3) : Statement (.len275 e) := ll rfl (by decide)

theorem len276 (e : BitVec 3) : Statement (.len276 e) := ll rfl (by decide)

theorem len277 (e : BitVec 4) : Statement (.len277 e) := ll rfl (by decide)

theorem len278 (e : BitVec 4) : Statement (.len278 e) := ll rfl (by decide)

theorem len279 (e : BitVec 4) : Statement (.len279 e) := ll rfl (by decide)

theorem len280 (e : BitVec 4) : Statement (.len280 e) := ll rfl (by decide)

theorem len281 (e : BitVec 5) : Statement (.len281 e) := ll rfl (by decide)

theorem len282 (e : BitVec 5) : Statement (.len282 e) := ll rfl (by decide)

theorem len283 (e : BitVec 5) : Statement (.len283 e) := ll rfl (by decide)

theorem len284 (e : BitVec 5) : Statement (.len284 e) := ll rfl (by decide)

theorem len285 : Statement .len285 := ll rfl (by decide)

theorem ll286 : Statement .ll286 := ll rfl (by decide)

theorem ll287 : Statement .ll287 := ll rfl (by decide)

theorem dist0 : Statement .dist0 := d rfl (by decide)

theorem dist1 : Statement .dist1 := d rfl (by decide)

theorem dist2 : Statement .dist2 := d rfl (by decide)

theorem dist3 : Statement .dist3 := d rfl (by decide)

theorem dist4 (e : BitVec 1) : Statement (.dist4 e) := d rfl (by decide)

theorem dist5 (e : BitVec 1) : Statement (.dist5 e) := d rfl (by decide)

theorem dist6 (e : BitVec 2) : Statement (.dist6 e) := d rfl (by decide)

theorem dist7 (e : BitVec 2) : Statement (.dist7 e) := d rfl (by decide)

theorem dist8 (e : BitVec 3) : Statement (.dist8 e) := d rfl (by decide)

theorem dist9 (e : BitVec 3) : Statement (.dist9 e) := d rfl (by decide)

theorem dist10 (e : BitVec 4) : Statement (.dist10 e) := d rfl (by decide)

theorem dist11 (e : BitVec 4) : Statement (.dist11 e) := d rfl (by decide)

theorem dist12 (e : BitVec 5) : Statement (.dist12 e) := d rfl (by decide)

theorem dist13 (e : BitVec 5) : Statement (.dist13 e) := d rfl (by decide)

theorem dist14 (e : BitVec 6) : Statement (.dist14 e) := d rfl (by decide)

theorem dist15 (e : BitVec 6) : Statement (.dist15 e) := d rfl (by decide)

theorem dist16 (e : BitVec 7) : Statement (.dist16 e) := d rfl (by decide)

theorem dist17 (e : BitVec 7) : Statement (.dist17 e) := d rfl (by decide)

theorem dist18 (e : BitVec 8) : Statement (.dist18 e) := d rfl (by decide)

theorem dist19 (e : BitVec 8) : Statement (.dist19 e) := d rfl (by decide)

theorem dist20 (e : BitVec 9) : Statement (.dist20 e) := d rfl (by decide)

theorem dist21 (e : BitVec 9) : Statement (.dist21 e) := d rfl (by decide)

theorem dist22 (e : BitVec 10) : Statement (.dist22 e) := d rfl (by decide)

theorem dist23 (e : BitVec 10) : Statement (.dist23 e) := d rfl (by decide)

theorem dist24 (e : BitVec 11) : Statement (.dist24 e) := d rfl (by decide)

theorem dist25 (e : BitVec 11) : Statement (.dist25 e) := d rfl (by decide)

theorem dist26 (e : BitVec 12) : Statement (.dist26 e) := d rfl (by decide)

theorem dist27 (e : BitVec 12) : Statement (.dist27 e) := d rfl (by decide)

theorem dist28 (e : BitVec 13) : Statement (.dist28 e) := d rfl (by decide)

theorem dist29 (e : BitVec 13) : Statement (.dist29 e) := d rfl (by decide)

theorem dist30 : Statement .dist30 := d rfl (by decide)

theorem dist31 : Statement .dist31 := d rfl (by decide)

theorem ztrl (t : Word) : Statement (.ztrl t) := raw (by
  intro c pos bits hb
  have := padding_lt pos
  cases c <;> simp only [encode, Instr.shape, reduceCtorEq] at hb
  cases hb
  simp; omega)

theorem ftNone : Statement .ftNone := raw (by
  intro c pos bits hb
  cases c <;> simp only [encode, Instr.shape, reduceCtorEq] at hb
  cases hb
  simp)

theorem ftSub : Statement .ftSub := raw (by
  intro c pos bits hb
  cases c <;> simp only [encode, Instr.shape, reduceCtorEq] at hb
  cases hb
  simp)

theorem ftUp : Statement .ftUp := raw (by
  intro c pos bits hb
  cases c <;> simp only [encode, Instr.shape, reduceCtorEq] at hb
  cases hb
  simp)

theorem ftAvg : Statement .ftAvg := raw (by
  intro c pos bits hb
  cases c <;> simp only [encode, Instr.shape, reduceCtorEq] at hb
  cases hb
  simp)

theorem ftPaeth : Statement .ftPaeth := raw (by
  intro c pos bits hb
  cases c <;> simp only [encode, Instr.shape, reduceCtorEq] at hb
  cases hb
  simp)

theorem ftRsvd (b : Byte) : Statement (.ftRsvd b) := raw (by
  intro c pos bits hb
  cases c <;> simp only [encode, Instr.shape, reduceCtorEq] at hb
  cases hb
  simp)

end Sys2Proof.Laws.EncodedLength
end

