-- ==== Sys2Proof/Tests/Slice0.lean ====
section
/-! SUPPORT. Tests of the model, and a witness for the hypotheses of every statement. Every expected value is one of the spec's own examples, or
is worked out by hand from the rule named at the test. -/

namespace Sys2Proof.Tests

-- one theorem at a time: the kernel evaluations below would otherwise wait for one another on a thread each
set_option Elab.async false

open Sys2Proof.Machine Sys2Proof.Claims

/-- Bits written as 0 and 1, in stream order. -/
def bits (l : List Nat) : List Bool := l.map (fun b => b == 1)

/-- The bytes of a list, from address 0. -/
def mem (l : List Nat) : Memory := writeBytes [] 0 (l.map (BitVec.ofNat 8))

/-- The answer is a next state of which `p` holds. -/
def nextIs (r : Result) (p : State → Bool) : Bool :=
  match r with
  | .next t => p t
  | .fault _ => false
  | .refused _ => false

theorem nextIs_exists {r : Result} {p : State → Bool} (h : nextIs r p = true) : ∃ t, r = .next t ∧ p t = true := by
  cases r with
  | next t => exact ⟨t, rfl, h⟩
  | fault _ => cases h
  | refused _ => cases h

/-- BUILD answers with a table. -/
def builds (lens : List Nat) : Bool :=
  match build lens with
  | .ok _ => true
  | .error _ => false

theorem builds_exists {lens : List Nat} (h : builds lens = true) : ∃ T, build lens = .ok T := by
  unfold builds at h
  split at h
  · exact ⟨_, by assumption⟩
  · cases h

/-- The answer is fault entry with this ERR.CODE. -/
def faultsWith (r : Result) (code : Nat) : Bool := nextIs r fun t => t.phase == .fault && t.err.toNat == code

/-! ## WellFormed: what it refuses -/

/-- R95: HCLEN4 = 0 announces four lengths; three are ill-formed, and so are five. -/
theorem test_wf_dynhdr : (Instr.dynhdr 0 0 0 [1, 1, 0]).wf = false ∧ (Instr.dynhdr 0 0 0 [1, 1, 0, 0, 0]).wf = false ∧
    (Instr.dynhdr 0 0 0 [1, 1, 0, 0]).wf = true := by decide

/-- R103, R328: byte 4 is FT.PAETH, so FT.RSVD does not carry it; 5 and 255 are reserved. -/
theorem test_wf_ftRsvd : (Instr.ftRsvd 4).wf = false ∧ (Instr.ftRsvd 0).wf = false ∧ (Instr.ftRsvd 5).wf = true ∧
    (Instr.ftRsvd 255).wf = true := by decide

/-! ## Decoding, constructor by constructor, from words written out by hand -/

/-- R92: CMF = 0x78 = 0111 1000 then FLG = 0x9C = 1001 1100, each least-significant bit first. -/
theorem test_decode_zhdr :
    decoded .zh (bits [0, 0, 0, 1, 1, 1, 1, 0, 0, 0, 1, 1, 1, 0, 0, 1]) = some (.zhdr 0x78 0x9C) := by decide

/-- R93: BFINAL, then the two bits of BTYPE, the low one first. -/
theorem test_decode_blk :
    decoded .bh (bits [0, 0, 0]) = some (.blkStored false) ∧ decoded .bh (bits [1, 1, 0]) = some (.blkFixed true) ∧
    decoded .bh (bits [1, 0, 1]) = some (.blkDyn true) ∧ decoded .bh (bits [0, 0, 1]) = some (.blkDyn false) ∧
    decoded .bh (bits [1, 1, 1]) = some (.blkRsvd true) := by decide

/-- R94, R178: after a 3-bit header five padding bits of any value are skipped; LEN = 2, NLEN = 0xFFFD. -/
theorem test_decode_storedbody :
    decode bitStringSource .st { pos := 3, bits := bits [1, 0, 1, 1, 0,
      0, 1, 0, 0, 0, 0, 0, 0, 0, 0, 0, 0, 0, 0, 0, 0, 1, 0, 1, 1, 1, 1, 1, 1, 1, 1, 1, 1, 1, 1, 1, 1, 0] } =
    .ok { instr := .storedbody 2 0xFFFD, regs := none, rest := { pos := 40, bits := [false] } } := by decide

/-- R95, R184: HLIT5 = 1, HDIST5 = 2, HCLEN4 = 0, then the four lengths 1, 2, 3, 4. -/
theorem test_decode_dynhdr :
    decoded .dh (bits [1, 0, 0, 0, 0, 0, 1, 0, 0, 0, 0, 0, 0, 0, 1, 0, 0, 0, 1, 0, 1, 1, 0, 0, 0, 1]) =
      some (.dynhdr 1 2 0 [1, 2, 3, 4]) := by decide

/-- A code-length table in which every symbol has a code: 0..12 in 4 bits, 13..18 in 5 (13/16 + 6/32 = 1). -/
def allCl : List Nat := [4, 4, 4, 4, 4, 4, 4, 4, 4, 4, 4, 4, 4, 5, 5, 5, 5, 5, 5]

/-- Its table file, written out by R151: COUNT[4] = 13, COUNT[5] = 6, SYMBOL = 0..18. -/
def allClTable : HuffTable where
  count := #v[0, 0, 0, 0, 13, 6, 0, 0, 0, 0, 0, 0, 0, 0, 0, 0]
  symbol := [0, 1, 2, 3, 4, 5, 6, 7, 8, 9, 10, 11, 12, 13, 14, 15, 16, 17, 18]
  valid := true

theorem test_build_allCl : build allCl = .ok allClTable := by decide +kernel

/-- R104: the codes of 0..12 are 0000 .. 1100, those of 13..18 are 11010 .. 11111 (2 * 13 = 26); R97: the raw fields. -/
theorem test_decode_cl0_to_8 :
    decoded (.cl allClTable true) (bits [0, 0, 0, 0]) = some .cl0 ∧ decoded (.cl allClTable true) (bits [0, 0, 0, 1]) = some .cl1 ∧
    decoded (.cl allClTable true) (bits [0, 0, 1, 0]) = some .cl2 ∧ decoded (.cl allClTable true) (bits [0, 0, 1, 1]) = some .cl3 ∧
    decoded (.cl allClTable true) (bits [0, 1, 0, 0]) = some .cl4 ∧ decoded (.cl allClTable true) (bits [0, 1, 0, 1]) = some .cl5 ∧
    decoded (.cl allClTable true) (bits [0, 1, 1, 0]) = some .cl6 ∧ decoded (.cl allClTable true) (bits [0, 1, 1, 1]) = some .cl7 ∧
    decoded (.cl allClTable true) (bits [1, 0, 0, 0]) = some .cl8 := by decide +kernel

theorem test_decode_cl9_to_18 :
    decoded (.cl allClTable true) (bits [1, 0, 0, 1]) = some .cl9 ∧ decoded (.cl allClTable true) (bits [1, 0, 1, 0]) = some .cl10 ∧
    decoded (.cl allClTable true) (bits [1, 0, 1, 1]) = some .cl11 ∧ decoded (.cl allClTable true) (bits [1, 1, 0, 0]) = some .cl12 ∧
    decoded (.cl allClTable true) (bits [1, 1, 0, 1, 0]) = some .cl13 ∧
    decoded (.cl allClTable true) (bits [1, 1, 0, 1, 1]) = some .cl14 ∧
    decoded (.cl allClTable true) (bits [1, 1, 1, 0, 0]) = some .cl15 ∧
    decoded (.cl allClTable true) (bits [1, 1, 1, 0, 1, 0, 1]) = some (.cl16 2) ∧
    decoded (.cl allClTable true) (bits [1, 1, 1, 1, 0, 1, 0, 1]) = some (.cl17 5) ∧
    decoded (.cl allClTable true) (bits [1, 1, 1, 1, 1, 0, 1, 1, 0, 0, 0, 1]) = some (.cl18 70) := by decide +kernel

/-- R105: literals 0..143 are 00110000 + b in 8 bits, 144..255 are 110010000 + (b - 144) in 9; EOB is 0000000. -/
theorem test_decode_lit_eob :
    decoded (.ll fllt) (bits [0, 0, 1, 1, 0, 0, 0, 0]) = some (.lit 0) ∧
    decoded (.ll fllt) (bits [1, 0, 1, 1, 1, 1, 1, 1]) = some (.lit 143) ∧
    decoded (.ll fllt) (bits [1, 1, 0, 0, 1, 0, 0, 0, 0]) = some (.lit 144) ∧
    decoded (.ll fllt) (bits [1, 1, 1, 1, 1, 1, 1, 1, 1]) = some (.lit 255) ∧
    decoded (.ll fllt) (bits [0, 0, 0, 0, 0, 0, 0]) = some .eob := by decide +kernel

/-- R105, R99: symbols 257..264, codes 0000001 .. 0001000. -/
theorem test_decode_len257_to_264 :
    decoded (.ll fllt) (bits [0, 0, 0, 0, 0, 0, 1]) = some .len257 ∧ decoded (.ll fllt) (bits [0, 0, 0, 0, 0, 1, 0]) = some .len258 ∧
    decoded (.ll fllt) (bits [0, 0, 0, 0, 0, 1, 1]) = some .len259 ∧ decoded (.ll fllt) (bits [0, 0, 0, 0, 1, 0, 0]) = some .len260 ∧
    decoded (.ll fllt) (bits [0, 0, 0, 0, 1, 0, 1]) = some .len261 ∧ decoded (.ll fllt) (bits [0, 0, 0, 0, 1, 1, 0]) = some .len262 ∧
    decoded (.ll fllt) (bits [0, 0, 0, 0, 1, 1, 1]) = some .len263 ∧
    decoded (.ll fllt) (bits [0, 0, 0, 1, 0, 0, 0]) = some .len264 := by decide +kernel

/-- Symbols 265..272: one raw bit, then two (R99), each field read low bit first. -/
theorem test_decode_len265_to_272 :
    decoded (.ll fllt) (bits [0, 0, 0, 1, 0, 0, 1, 1]) = some (.len265 1) ∧
    decoded (.ll fllt) (bits [0, 0, 0, 1, 0, 1, 0, 1]) = some (.len266 1) ∧
    decoded (.ll fllt) (bits [0, 0, 0, 1, 0, 1, 1, 0]) = some (.len267 0) ∧
    decoded (.ll fllt) (bits [0, 0, 0, 1, 1, 0, 0, 1]) = some (.len268 1) ∧
    decoded (.ll fllt) (bits [0, 0, 0, 1, 1, 0, 1, 0, 1]) = some (.len269 2) ∧
    decoded (.ll fllt) (bits [0, 0, 0, 1, 1, 1, 0, 1, 0]) = some (.len270 1) ∧
    decoded (.ll fllt) (bits [0, 0, 0, 1, 1, 1, 1, 1, 1]) = some (.len271 3) ∧
    decoded (.ll fllt) (bits [0, 0, 1, 0, 0, 0, 0, 0, 1]) = some (.len272 2) := by decide +kernel

/-- Symbols 273..279 in 7 bits, from 280 on 11000000 + (s - 280) in 8 (R105): three, four and five raw bits (R99). -/
theorem test_decode_len273_to_280 :
    decoded (.ll fllt) (bits [0, 0, 1, 0, 0, 0, 1, 0, 0, 1]) = some (.len273 4) ∧
    decoded (.ll fllt) (bits [0, 0, 1, 0, 0, 1, 0, 1, 1, 0]) = some (.len274 3) ∧
    decoded (.ll fllt) (bits [0, 0, 1, 0, 0, 1, 1, 0, 1, 1]) = some (.len275 6) ∧
    decoded (.ll fllt) (bits [0, 0, 1, 0, 1, 0, 0, 1, 0, 0]) = some (.len276 1) ∧
    decoded (.ll fllt) (bits [0, 0, 1, 0, 1, 0, 1, 0, 0, 0, 1]) = some (.len277 8) ∧
    decoded (.ll fllt) (bits [0, 0, 1, 0, 1, 1, 0, 1, 1, 0, 0]) = some (.len278 3) ∧
    decoded (.ll fllt) (bits [0, 0, 1, 0, 1, 1, 1, 0, 1, 1, 0]) = some (.len279 6) ∧
    decoded (.ll fllt) (bits [1, 1, 0, 0, 0, 0, 0, 0, 1, 0, 1, 0]) = some (.len280 5) := by decide +kernel

/-- Symbols 281..287; 285 has no raw field, 286 and 287 are reserved (R249). -/
theorem test_decode_len281_to_287 :
    decoded (.ll fllt) (bits [1, 1, 0, 0, 0, 0, 0, 1, 0, 0, 0, 0, 1]) = some (.len281 16) ∧
    decoded (.ll fllt) (bits [1, 1, 0, 0, 0, 0, 1, 0, 1, 0, 0, 0, 0]) = some (.len282 1) ∧
    decoded (.ll fllt) (bits [1, 1, 0, 0, 0, 0, 1, 1, 0, 1, 0, 1, 0]) = some (.len283 10) ∧
    decoded (.ll fllt) (bits [1, 1, 0, 0, 0, 1, 0, 0, 1, 1, 1, 1, 1]) = some (.len284 31) ∧
    decoded (.ll fllt) (bits [1, 1, 0, 0, 0, 1, 0, 1]) = some .len285 ∧
    decoded (.ll fllt) (bits [1, 1, 0, 0, 0, 1, 1, 0]) = some .ll286 ∧
    decoded (.ll fllt) (bits [1, 1, 0, 0, 0, 1, 1, 1]) = some .ll287 := by decide +kernel

/-- R105: distance symbol d is d in 5 bits, first bit first; R101: the raw fields. -/
theorem test_decode_dist0_to_9 :
    decoded (.d fdt) (bits [0, 0, 0, 0, 0]) = some .dist0 ∧ decoded (.d fdt) (bits [0, 0, 0, 0, 1]) = some .dist1 ∧
    decoded (.d fdt) (bits [0, 0, 0, 1, 0]) = some .dist2 ∧ decoded (.d fdt) (bits [0, 0, 0, 1, 1]) = some .dist3 ∧
    decoded (.d fdt) (bits [0, 0, 1, 0, 0, 1]) = some (.dist4 1) ∧ decoded (.d fdt) (bits [0, 0, 1, 0, 1, 0]) = some (.dist5 0) ∧
    decoded (.d fdt) (bits [0, 0, 1, 1, 0, 0, 1]) = some (.dist6 2) ∧
    decoded (.d fdt) (bits [0, 0, 1, 1, 1, 1, 0]) = some (.dist7 1) ∧
    decoded (.d fdt) (bits [0, 1, 0, 0, 0, 0, 0, 1]) = some (.dist8 4) ∧
    decoded (.d fdt) (bits [0, 1, 0, 0, 1, 1, 1, 0]) = some (.dist9 3) := by decide +kernel

theorem test_decode_dist10_to_17 :
    decoded (.d fdt) (bits [0, 1, 0, 1, 0, 0, 0, 0, 1]) = some (.dist10 8) ∧
    decoded (.d fdt) (bits [0, 1, 0, 1, 1, 1, 0, 0, 0]) = some (.dist11 1) ∧
    decoded (.d fdt) (bits [0, 1, 1, 0, 0, 0, 0, 0, 0, 1]) = some (.dist12 16) ∧
    decoded (.d fdt) (bits [0, 1, 1, 0, 1, 1, 0, 0, 0, 0]) = some (.dist13 1) ∧
    decoded (.d fdt) (bits [0, 1, 1, 1, 0, 0, 0, 0, 0, 0, 1]) = some (.dist14 32) ∧
    decoded (.d fdt) (bits [0, 1, 1, 1, 1, 1, 0, 0, 0, 0, 0]) = some (.dist15 1) ∧
    decoded (.d fdt) (bits [1, 0, 0, 0, 0, 0, 0, 0, 0, 0, 0, 1]) = some (.dist16 64) ∧
    decoded (.d fdt) (bits [1, 0, 0, 0, 1, 1, 0, 0, 0, 0, 0, 0]) = some (.dist17 1) := by decide +kernel

theorem test_decode_dist18_to_25 :
    decoded (.d fdt) (bits [1, 0, 0, 1, 0, 0, 0, 0, 0, 0, 0, 0, 1]) = some (.dist18 128) ∧
    decoded (.d fdt) (bits [1, 0, 0, 1, 1, 1, 0, 0, 0, 0, 0, 0, 0]) = some (.dist19 1) ∧
    decoded (.d fdt) (bits [1, 0, 1, 0, 0, 0, 0, 0, 0, 0, 0, 0, 0, 1]) = some (.dist20 256) ∧
    decoded (.d fdt) (bits [1, 0, 1, 0, 1, 1, 0, 0, 0, 0, 0, 0, 0, 0]) = some (.dist21 1) ∧
    decoded (.d fdt) (bits [1, 0, 1, 1, 0, 0, 0, 0, 0, 0, 0, 0, 0, 0, 1]) = some (.dist22 512) ∧
    decoded (.d fdt) (bits [1, 0, 1, 1, 1, 1, 0, 0, 0, 0, 0, 0, 0, 0, 0]) = some (.dist23 1) ∧
    decoded (.d fdt) (bits [1, 1, 0, 0, 0, 0, 0, 0, 0, 0, 0, 0, 0, 0, 0, 1]) = some (.dist24 1024) ∧
    decoded (.d fdt) (bits [1, 1, 0, 0, 1, 1, 0, 0, 0, 0, 0, 0, 0, 0, 0, 0]) = some (.dist25 1) := by decide +kernel

/-- The 13-bit fields, and the reserved symbols (R282). -/
theorem test_decode_dist26_to_31 :
    decoded (.d fdt) (bits [1, 1, 0, 1, 0, 0, 0, 0, 0, 0, 0, 0, 0, 0, 0, 0, 1]) = some (.dist26 2048) ∧
    decoded (.d fdt) (bits [1, 1, 0, 1, 1, 1, 0, 0, 0, 0, 0, 0, 0, 0, 0, 0, 0]) = some (.dist27 1) ∧
    decoded (.d fdt) (bits [1, 1, 1, 0, 0, 0, 0, 0, 0, 0, 0, 0, 0, 0, 0, 0, 0, 1]) = some (.dist28 4096) ∧
    decoded (.d fdt) (bits [1, 1, 1, 0, 1, 1, 1, 1, 1, 1, 1, 1, 1, 1, 1, 1, 1, 1]) = some (.dist29 8191) ∧
    decoded (.d fdt) (bits [1, 1, 1, 1, 0]) = some .dist30 ∧ decoded (.d fdt) (bits [1, 1, 1, 1, 1]) = some .dist31 := by
  decide +kernel

/-- R102: the trailer's first byte is its most significant; here 0x00820081 (R306). -/
theorem test_decode_ztrl :
    decoded .tr (bits [0, 0, 0, 0, 0, 0, 0, 0, 0, 1, 0, 0, 0, 0, 0, 1, 0, 0, 0, 0, 0, 0, 0, 0, 1, 0, 0, 0, 0, 0, 0, 1]) =
      some (.ztrl 0x00820081) := by decide

/-- R103: a filter-type byte, low bit first; 5..255 are reserved (R328). -/
theorem test_decode_ft :
    decoded .ft (bits [0, 0, 0, 0, 0, 0, 0, 0]) = some .ftNone ∧ decoded .ft (bits [1, 0, 0, 0, 0, 0, 0, 0]) = some .ftSub ∧
    decoded .ft (bits [0, 1, 0, 0, 0, 0, 0, 0]) = some .ftUp ∧ decoded .ft (bits [1, 1, 0, 0, 0, 0, 0, 0]) = some .ftAvg ∧
    decoded .ft (bits [0, 0, 1, 0, 0, 0, 0, 0]) = some .ftPaeth ∧ decoded .ft (bits [1, 0, 1, 0, 0, 0, 0, 0]) = some (.ftRsvd 5) ∧
    decoded .ft (bits [1, 1, 1, 1, 1, 1, 1, 1]) = some (.ftRsvd 255) := by decide

/-- R132: a field the stream does not hold is no element; R155: nor is anything read with a table that is not valid. -/
theorem test_decode_refuses :
    decode bitStringSource .bh { pos := 0, bits := [true, false] } = .error .exhausted ∧
    decode bitStringSource (.d { fdt with valid := false }) { pos := 0, bits := List.replicate 20 false } = .error .invalidTable := by
  decide

/-! ## One operation or one step -/

/-- R132: the worked example: GETBITS(3) = 5, then GETBITS(7) = 0x36, BITCNT = 6, POS = 2, ACC the rest of 0x01. -/
theorem test_getbits :
    getbits (mem [0xB5, 0x01]) 2 Params.default 3 { pos := 0, acc := 0, bitcnt := 0 } = .ok (5, { pos := 1, acc := 0x16, bitcnt := 5 }) ∧
    getbits (mem [0xB5, 0x01]) 2 Params.default 7 { pos := 1, acc := 0x16, bitcnt := 5 } = .ok (0x36, { pos := 2, acc := 0, bitcnt := 6 }) := by
  decide

/-- R154: the worked example of BUILD. -/
theorem test_build : build [2, 1, 3, 3] =
    .ok { count := #v[0, 1, 1, 2, 0, 0, 0, 0, 0, 0, 0, 0, 0, 0, 0, 0], symbol := [1, 0, 2, 3], valid := true } := by decide +kernel

/-- R154: the code of symbol 2 in that table is 110. -/
theorem test_hdecode : hdecode bitStringSource
    { count := #v[0, 1, 1, 2, 0, 0, 0, 0, 0, 0, 0, 0, 0, 0, 0, 0], symbol := [1, 0, 2, 3], valid := true }
    { pos := 9, bits := bits [1, 1, 0, 1] } =
    .ok ({ code := 6, first := 6, index := 2, hlen := 3, sym := 2 }, { pos := 12, bits := [true] }) := by decide +kernel

/-- R327: the examples. -/
theorem test_paeth :
    predPaeth 10 20 30 = 10 ∧ predPaeth 50 60 55 = 55 ∧ predPaeth 20 10 10 = 20 ∧ predPaeth 10 20 10 = 20 ∧ predPaeth 4 6 5 = 5 ∧
    predPaeth 3 1 2 = 2 ∧ predPaeth 2 2 0 = 2 := by decide

/-- A job whose configuration CFG accepts: 3 x 2 gray, EXPECTED = 2 * (1 + 3) = 8, ROWBYTES = 3, BPP = 1 (R353). -/
def job (p : Phase) : State :=
  { State.reset with
    inLen := 32, width := 3, height := 2, channels := 1, expected := 8, rowbytes := 3, bpp := 1, s1 := 1, phase := p }

/-- R213, R305: a literal, and its checksum step from 1, 0: S1 = 1 + 0x80, S2 = 0x81. -/
theorem test_lit : nextIs (exec (.lit 0x80) (job .symloop)) (fun t =>
    t.out == [(0, 0x80)] && t.opos == 1 && t.s1 == 129 && t.s2 == 129) = true := by decide +kernel

/-- R214: no room is ErrOutputOverflow, code 18. -/
theorem test_lit_overflow : faultsWith (exec (.lit 0x80) { job .symloop with opos := 8 }) 18 = true := by decide +kernel

/-- R284: OUT = 61 62, length 5, distance 2: OUT[2..6] = 61 62 61 62 61. -/
theorem test_match : nextIs (exec .dist1 { job .symloop with out := mem [0x61, 0x62], opos := 2, mlen := 5, inMatch := true })
    (fun t => t.out == mem [0x61, 0x62, 0x61, 0x62, 0x61, 0x62, 0x61] && t.opos == 7 && t.mdist == 2 && t.inMatch == false) = true := by
  decide +kernel

/-- R219: the distance check comes before the output bound: with both wrong the code is 17. -/
theorem test_match_faults : faultsWith (exec .dist1 { job .symloop with opos := 1, mlen := 258 }) 17 = true := by decide +kernel

/-- R178: the stored block of the example at its body: LEN 2, data 00 80. -/
theorem test_stored : nextIs (exec (.storedbody 0x0002 0xFFFD)
    { job .stored with inm := mem [0x01, 0x02, 0x00, 0xFD, 0xFF, 0x00, 0x80], inLen := 7, bfinal := true,
                       br := { pos := 5, acc := 0, bitcnt := 0 } })
    (fun t => t.out == [(1, 0x80)] && t.opos == 2 && t.br.pos == 7 && t.phase == .endchk && t.s1 == 129 && t.s2 == 130) = true := by
  decide +kernel

/-- R177: LEN = NLEN is never valid, code 8. -/
theorem test_stored_check : faultsWith (exec (.storedbody 5 5) (job .stored)) 8 = true := by decide +kernel

/-- R188, R190, R192: the examples of code-length symbols. -/
theorem test_cl : nextIs (exec .cl3 { job .dynlens with lidx := 5 }) (fun t => t.lens[5] == 3 && t.lidx == 6) = true ∧
    nextIs (exec (.cl16 2) { job .dynlens with lens := (job .dynlens).lens.set 0 3, lidx := 1, hlit := 257, hdist := 1 })
      (fun t => t.lens[5] == 3 && t.lens[6] == 0 && t.lidx == 6) = true ∧
    nextIs (exec (.cl18 127) { job .dynlens with lidx := 17, hlit := 257, hdist := 1 }) (fun t => t.lidx == 155) = true := by
  decide +kernel

/-- R190: CL16 first is code 13, R189: a run past the last length is code 14. -/
theorem test_cl_faults : faultsWith (exec (.cl16 0) { job .dynlens with hlit := 257, hdist := 1 }) 13 = true ∧
    faultsWith (exec (.cl17 0) { job .dynlens with lidx := 256, hlit := 257, hdist := 1 }) 14 = true := by decide +kernel

/-- R183, R184, R96: the four lengths of HCLEN = 4 are those of symbols 16, 17, 18 and 0; here 17 and 0 have length 1. -/
theorem test_dynhdr : nextIs (exec (.dynhdr 0 29 0 [0, 1, 0, 1]) (job .dynhdr)) (fun t =>
    t.hlit == 257 && t.hdist == 30 && t.hclen == 4 && t.cllens[17] == 1 && t.cllens[0] == 1 && t.cllens[16] == 0 &&
    t.clt.symbol == [0, 17] && t.clt.valid && t.phase == .dynlens) = true := by decide +kernel

/-- R301 to R303: 78 01 passes, 78 00 fails the sum, 77 09 (0x7709 = 31 * 983) is not deflate, 78 20 (31 * 992) sets FDICT. -/
theorem test_zhdr : nextIs (exec (.zhdr 0x78 0x01) (job .zhdr)) (fun t => t.phase == .blkhdr) = true ∧
    faultsWith (exec (.zhdr 0x78 0x00) (job .zhdr)) 4 = true ∧ faultsWith (exec (.zhdr 0x77 0x09) (job .zhdr)) 5 = true ∧
    faultsWith (exec (.zhdr 0x78 0x20) (job .zhdr)) 6 = true := by decide +kernel

/-- R303: with FDICT_MODE = skip4 the four DICTID bytes are skipped. -/
theorem test_zhdr_skip4 : nextIs (exec (.zhdr 0x78 0x20)
    { job .zhdr with par := { Params.default with fdictMode := .skip4 }, br := { pos := 2, acc := 0, bitcnt := 0 } })
    (fun t => t.br.pos == 6 && t.phase == .blkhdr) = true := by decide +kernel

/-- R306: the trailer 00 82 00 81 after the bytes 00 80. -/
theorem test_ztrl : nextIs (exec (.ztrl 0x00820081) { job .trailer with s1 := 129, s2 := 130 }) (fun t => t.phase == .unfilter) = true ∧
    faultsWith (exec (.ztrl 0x00810082) { job .trailer with s1 := 129, s2 := 130 }) 20 = true := by decide +kernel

/-- The decompressed bytes of R331's example: rows 04 0A 14 1E and 03 05 05 05. -/
def rows : Memory := mem [0x04, 0x0A, 0x14, 0x1E, 0x03, 0x05, 0x05, 0x05]

/-- R331, row 0: Paeth gives 0A 1E 3C. -/
theorem test_ft_paeth : nextIs (exec .ftPaeth { job .unfilter with out := rows, opos := 8 }) (fun t =>
    t.pix == mem [0x0A, 0x1E, 0x3C] && t.row == 1) = true := by decide +kernel

/-- R331, row 1: Average gives 0A 19 2F. -/
theorem test_ft_avg : nextIs (exec .ftAvg { job .unfilter with out := rows, opos := 8, row := 1, pix := mem [0x0A, 0x1E, 0x3C] })
    (fun t => t.pix == mem [0x0A, 0x1E, 0x3C, 0x0A, 0x19, 0x2F] && t.row == 2) = true := by decide +kernel

/-- R323 to R325 on R331's row 1: None copies 05 05 05, Sub sums 05 0A 0F, Up adds 0A 1E 3C. -/
theorem test_ft_none_sub_up :
    nextIs (exec .ftNone { job .unfilter with out := rows, row := 1 }) (fun t => t.pix == [(3, 5), (4, 5), (5, 5)]) = true ∧
    nextIs (exec .ftSub { job .unfilter with out := rows, row := 1 }) (fun t => t.pix == [(3, 5), (4, 10), (5, 15)]) = true ∧
    nextIs (exec .ftUp { job .unfilter with out := rows, row := 1, pix := mem [0x0A, 0x1E, 0x3C] })
      (fun t => t.pix == mem [0x0A, 0x1E, 0x3C, 0x0F, 0x23, 0x41]) = true := by decide +kernel

/-- R330, R329: with BPP = 3 the left neighbour is three bytes before; the first pixel of a row has none. -/
theorem test_ft_sub_rgb : nextIs (exec .ftSub
    { job .unfilter with width := 2, height := 1, channels := 3, expected := 7, rowbytes := 6, bpp := 3, out := mem [1, 1, 2, 3, 4, 5, 6] })
    (fun t => t.pix == mem [1, 2, 3, 5, 7, 9]) = true := by decide +kernel

/-- R175, R249, R282, R328: the codes of the reserved elements: 7, 15, 16, 21. -/
theorem test_reserved : faultsWith (exec (.blkRsvd true) (job .blkhdr)) 7 = true ∧ faultsWith (exec .ll286 (job .symloop)) 15 = true ∧
    faultsWith (exec .ll287 (job .symloop)) 15 = true ∧ faultsWith (exec .dist30 (job .symloop)) 16 = true ∧
    faultsWith (exec .dist31 (job .symloop)) 16 = true ∧ faultsWith (exec (.ftRsvd 5) (job .unfilter)) 21 = true := by decide +kernel

/-- R353: CHANNELS = 5 is ErrBadConfig (1); a job one byte too large for OUT is ErrResource (2); 3 x 2 gray passes. -/
theorem test_cfg : faultsWith (coreStep { job .cfg with channels := 5 }) 1 = true ∧
    faultsWith (coreStep { job .cfg with par := { Params.default with outCap := 7 } }) 2 = true ∧
    nextIs (coreStep { job .cfg with expected := 0, rowbytes := 0 }) (fun t => t.expected == 8 && t.rowbytes == 3 && t.phase == .zhdr) =
      true := by decide +kernel

/-- A step from the stream of R308 (78 01 63 68 ..), after the header: BLK.FIXED with BFINAL = 1. -/
theorem test_step : nextIs (step { job .blkhdr with inm := mem [0x78, 0x01, 0x63, 0x68], br := { pos := 2, acc := 0, bitcnt := 0 } })
    (fun t => t.bfinal && t.btype == 1 && t.phase == .symloop && t.br == { pos := 3, acc := 0x0C, bitcnt := 5 }) = true := by decide +kernel

/-- R352, R34: START from IDLE: BUSY, at the configuration check. -/
theorem test_start : nextIs (step { State.reset with sched := [some (.writeReg 0 1)] }) (fun t =>
    t.status == .busy && t.phase == .cfg && t.s1 == 1 && t.sched == []) = true := by decide +kernel

/-- Log 7: a table word placed after reset is fetched and run by the next step: ZHDR 78 01, and FT.PAETH. -/
theorem test_withFetchWord : decodeTableWord 16 0x7801 = some (.zhdr 0x78 0x01) ∧
    nextIs (step (State.reset.withFetchWord 16 0x7801)) (fun t => t.phase == .blkhdr) = true := by decide +kernel

/-! ## Witnesses: states and operands that meet the hypotheses of each statement -/

theorem wit_DecodeInvertsEncode : CtxWf (.ll fllt) ∧ (Instr.lit 0x80).wf = true ∧
    encode (.ll fllt) 3 (.lit 0x80) = some (bits [1, 0, 1, 1, 0, 0, 0, 0]) := ⟨fllt_wf, rfl, by decide +kernel⟩

theorem wit_EncodeInvertsDecode : CtxWf (.d fdt) ∧
    decode bitStringSource (.d fdt) { pos := 3, bits := bits [0, 0, 1, 0, 0, 1, 1] } =
      .ok { instr := .dist4 1, regs := some { code := 4, first := 0, index := 0, hlen := 5, sym := 4 },
            rest := { pos := 9, bits := [true] } } := ⟨fdt_wf, by decide +kernel⟩

theorem wit_DecodedIsWellFormed : decode bitStringSource .ft { pos := 0, bits := bits [1, 0, 1, 0, 0, 0, 0, 0] } =
    .ok { instr := .ftRsvd 5, regs := none, rest := { pos := 8, bits := [] } } := by decide

/-- A reader in the middle of a byte: POS = 1, the upper five bits of 0x78 buffered. -/
def midByte : BitReader := { pos := 1, acc := 0x0F, bitcnt := 5 }

/-- R8: the default parameters meet its constraints. -/
theorem params_wf : Params.default.Wf := ⟨by decide, by decide, rfl, by decide⟩

/-- The narrowest ACC that R8 admits: ACC_W = 24 + 7. -/
def narrow : Params := { Params.default with accW := 31 }

theorem narrow_wf : narrow.Wf := ⟨by decide, by decide, rfl, by decide⟩

theorem midByte_inv : ReaderInv (mem [0x78, 0x01]) 2 midByte :=
  ⟨by decide, by decide, by decide, by decide⟩

/-- Both outcomes: a block header is there, a stored body is not. -/
theorem wit_ReaderDecodesTheStream : 2 < 2 ^ 32 ∧ narrow.Wf ∧ ReaderInv (mem [0x78, 0x01]) 2 midByte ∧ midByte.bp = 3 ∧
    (∃ f, decode (readerSource (mem [0x78, 0x01]) 2 narrow) .bh midByte = .ok f ∧ f.instr = .blkRsvd true) ∧
    decode (readerSource (mem [0x78, 0x01]) 2 narrow) .st midByte = .error .exhausted :=
  ⟨by decide, narrow_wf, midByte_inv, by decide, ⟨_, rfl, by decide⟩, by decide⟩

/-- The last field that fits (13 bits from bit 3 of 16), and the first that does not. -/
theorem wit_GetbitsReadsTheStream : 2 < 2 ^ 32 ∧ narrow.Wf ∧ ReaderInv (mem [0x78, 0x01]) 2 midByte ∧ midByte.bp + 13 = 8 * 2 ∧ 8 * 2 < midByte.bp + 14 ∧
    5 ≤ midByte.bitcnt.toNat := ⟨by decide, narrow_wf, midByte_inv, by decide, by decide, by decide⟩

/-- One code length above 15; a Kraft sum of 3/2, of 1/2, of 1. -/
theorem wit_BuildAcceptsCompleteCodes : (∃ l ∈ [16], 15 < l) ∧ 2 ^ 15 < kraft [1, 1, 1] ∧ kraft [1] < 2 ^ 15 ∧
    kraft [1, 15, 15, 14, 13, 12, 11, 10, 9, 8, 7, 6, 5, 4, 3, 2] = 2 ^ 15 := by decide +kernel

theorem wit_BuildFillsTheTable : [2, 1, 3, 3].length ≤ 288 ∧ (∃ T, build [2, 1, 3, 3] = .ok T) ∧
    fixLL.length ≤ 288 ∧ (∃ T, build fixLL = .ok T) := ⟨by decide, ⟨_, test_build⟩, by decide +kernel, builds_exists (by decide +kernel)⟩

/-- The last code of the longest length, and a stream that ends in a code. -/
theorem wit_HdecodeReadsOneCode : [2, 1, 3, 3].length ≤ 288 ∧ (∃ T, build [2, 1, 3, 3] = .ok T ∧ 1 < T.countAt 3 ∧
    hdecode bitStringSource T { pos := 0, bits := [true, true] } = .error .exhausted) :=
  ⟨by decide, _, test_build, by decide, by decide⟩

theorem wit_CodeLengthSymbols : codeLengthOf .cl15 = some 15 ∧ ({ job .dynlens with lidx := 319 } : State).lidx.toNat < 320 := by decide

/-- The three outcomes: no previous length; one entry too many; a run that ends at the last entry of 320. -/
theorem wit_RepeatSymbols :
    repeatOf { job .dynlens with lidx := 0, hlit := 288, hdist := 32 } (.cl16 0) = some (0, 3) ∧
    repeatOf { job .dynlens with lidx := 318, hlit := 288, hdist := 32 } (.cl17 0) = some (0, 3) ∧ 288 + 32 < 318 + 3 ∧
    repeatOf { job .dynlens with lidx := 317, hlit := 288, hdist := 32 } (.cl17 0) = some (0, 3) ∧ 317 + 3 ≤ 288 + 32 := by decide

/-- The last byte that fits, and the first that does not. -/
theorem wit_Literals : Memory.wf (job .symloop).out = true ∧ ({ job .symloop with opos := 7 } : State).opos.toNat < (job .symloop).expected.toNat ∧
    (job .symloop).expected.toNat ≤ ({ job .symloop with opos := 8 } : State).opos.toNat := by decide

theorem wit_LengthCodes : lengthOf .len257 = some 3 ∧ lengthOf (.len284 31) = some 258 ∧ lengthOf .len285 = some 258 := by decide

/-- The ends of both tables. -/
theorem wit_LengthAndDistanceTables : (257 ≤ 284 ∧ 31 < 2 ^ llExtra 284 ∧ llInstr 284 31 = some (.len284 31)) ∧
    (29 ≤ 29 ∧ 8191 < 2 ^ dExtra 29 ∧ dInstr 29 8191 = some (.dist29 8191)) ∧ llInstr 257 0 = some .len257 ∧ dInstr 0 0 = some .dist0 := by
  decide

/-- The greatest distance; a distance one too far; a copy one byte too long; a copy that just fits. -/
theorem wit_DistanceCodes : distanceOf (.dist29 8191) = some 32768 ∧ distanceOf .dist2 = some 3 ∧ distanceOf .dist1 = some 2 ∧
    Memory.wf (job .symloop).out = true ∧ ({ job .symloop with opos := 2 } : State).opos.toNat < 3 ∧
    2 ≤ ({ job .symloop with opos := 2 } : State).opos.toNat ∧ (job .symloop).expected.toNat < 2 + (7 : BitVec 9).toNat ∧
    2 + (6 : BitVec 9).toNat ≤ (job .symloop).expected.toNat := by decide

theorem wit_DistanceEndsMatch : distanceOf .dist0 = some 1 ∧ ∃ t, exec .dist0 (job .symloop) = .next t :=
  ⟨rfl, let ⟨t, h, _⟩ := nextIs_exists (r := exec .dist0 (job .symloop)) (p := fun _ => true) (by decide +kernel); ⟨t, h⟩⟩

/-- The state of `test_stored`: a reader at the first byte of a stored body's data. -/
def atBody : State :=
  { job .stored with
    inm := mem [0x01, 0x02, 0x00, 0xFD, 0xFF, 0x00, 0x80], inLen := 7, bfinal := true, br := { pos := 5, acc := 0, bitcnt := 0 } }

theorem atBody_reader : ReaderInv atBody.inm atBody.inLen.toNat atBody.br := ⟨by decide, by decide, by decide, by decide⟩

/-- Each outcome in turn: LEN = NLEN; nine bytes for a room of eight; three bytes where two stand; the two bytes. -/
theorem wit_StoredBodies : atBody.par.Wf ∧ Memory.wf atBody.out = true ∧ ReaderInv atBody.inm atBody.inLen.toNat atBody.br ∧
    (5 : BitVec 16) ≠ ~~~5 ∧ atBody.expected.toNat < atBody.opos.toNat + (9 : BitVec 16).toNat ∧
    8 * atBody.inLen.toNat < atBody.bp + 8 * (3 : BitVec 16).toNat ∧ atBody.opos.toNat + (3 : BitVec 16).toNat ≤ atBody.expected.toNat ∧
    (2 : BitVec 16) = ~~~0xFFFD ∧ atBody.bp + 8 * (2 : BitVec 16).toNat ≤ 8 * atBody.inLen.toNat :=
  ⟨params_wf, by decide, atBody_reader, by decide, by decide, by decide, by decide, by decide, by decide⟩

theorem wit_ReadbytesPathsAgree : atBody.par.Wf ∧ Memory.wf atBody.out = true ∧ ReaderInv atBody.inm atBody.inLen.toNat atBody.br ∧
    atBody.opos.toNat + 3 ≤ atBody.expected.toNat ∧ 8 * atBody.inLen.toNat < atBody.bp + 8 * 3 ∧
    atBody.bp + 8 * 2 ≤ 8 * atBody.inLen.toNat :=
  ⟨params_wf, by decide, atBody_reader, by decide, by decide, by decide⟩

/-- The same premises with a reader in the middle of a byte, which READBYTES's fallback serves. -/
theorem wit_ReadbytesPathsAgree_shifted : ReaderInv (mem [0x78, 0x01]) 2 midByte ∧ midByte.bp + 8 * 1 ≤ 8 * 2 ∧ 8 * 2 < midByte.bp + 8 * 2 :=
  ⟨midByte_inv, by decide, by decide⟩

/-- A header whose code is complete, and one whose code is not. -/
theorem wit_DynamicHeaders : (Instr.dynhdr 0 29 0 [0, 1, 0, 1]).wf = true ∧ (∃ T, build (clLengths [0, 1, 0, 1]) = .ok T) ∧
    (Instr.dynhdr 0 29 0 [0, 1, 0, 0]).wf = true ∧ build (clLengths [0, 1, 0, 0]) = .error .huffUnder :=
  ⟨by decide, ⟨_, rfl⟩, by decide, by decide +kernel⟩

/-- A reader just past the header, and the header bytes of each outcome; three and four bytes after the header. -/
theorem wit_EnvelopeHeaders : (job .zhdr).par.Wf ∧ ReaderInv (job .zhdr).inm (job .zhdr).inLen.toNat (job .zhdr).br ∧ (0x78 * 256 + 0x00) % 31 ≠ 0 ∧
    ((0x77 * 256 + 0x09) % 31 = 0 ∧ 0x77 % 16 ≠ 8) ∧ ((0x78 * 256 + 0x01) % 31 = 0 ∧ 0x78 % 16 = 8 ∧ 0x01 / 32 % 2 = 0) ∧
    ((0x78 * 256 + 0x20) % 31 = 0 ∧ 0x20 / 32 % 2 = 1) ∧ 8 * 3 < (job .zhdr).bp + 32 ∧ (job .zhdr).bp + 32 ≤ 8 * 4 :=
  ⟨params_wf, ⟨by decide, by decide, by decide, by decide⟩, by decide, by decide, by decide, by decide, by decide, by decide⟩

theorem wit_Trailers : (0x00820081 : Word).toNat = (130 : BitVec 16).toNat * 65536 + (129 : BitVec 16).toNat ∧
    (0x00820082 : Word).toNat ≠ (130 : BitVec 16).toNat * 65536 + (129 : BitVec 16).toNat := by decide

/-- R331's image with no row done, and with one. -/
def row0 : State := { job .unfilter with out := rows, opos := 8 }
def row1 : State := { job .unfilter with out := rows, opos := 8, row := 1, pix := mem [0x0A, 0x1E, 0x3C] }

theorem geometry_of {s : State} (h : s.channels = 1 ∧ s.width = 3 ∧ s.height = 2 ∧ s.expected = 8 ∧ s.rowbytes = 3 ∧ s.bpp = 1 ∧
    s.inLen = 32 ∧ s.par = Params.default) : GeometryInv s := by
  obtain ⟨h1, h2, h3, h4, h5, h6, h7, h8⟩ := h
  constructor <;> simp only [State.cfgExpected, State.cfgRowBytes, h1, h2, h3, h4, h5, h6, h7, h8] <;> decide

theorem geometry_row0 : GeometryInv row0 := geometry_of ⟨rfl, rfl, rfl, rfl, rfl, rfl, rfl, rfl⟩

theorem geometry_row1 : GeometryInv row1 := geometry_of ⟨rfl, rfl, rfl, rfl, rfl, rfl, rfl, rfl⟩

/-- The first row and the last. -/
theorem wit_FilterRows : (∃ f, filterOf .ftPaeth = some (4, f)) ∧ GeometryInv row0 ∧ row0.row.toNat < row0.height.toNat ∧
    Memory.wf row0.pix = true ∧ GeometryInv row1 ∧ row1.row.toNat < row1.height.toNat ∧ Memory.wf row1.pix = true :=
  ⟨⟨_, rfl⟩, geometry_row0, by decide, by decide, geometry_row1, by decide, by decide⟩

/-- R331's image and its second row, filtered by Average. -/
theorem wit_UnfilterInvertsFilter : ∃ pred, filterOf .ftAvg = some (3, pred) ∧ GeometryInv row1 ∧ row1.row.toNat < row1.height.toNat ∧
    Memory.wf row1.pix = true ∧
    (∀ a, a < row1.row.toNat * row1.rowbytes.toNat → Memory.read row1.pix a = Memory.read (mem [0x0A, 0x1E, 0x3C, 0x0A, 0x19, 0x2F]) a) ∧
    ∀ c, c < row1.rowbytes.toNat → filteredByte row1 c =
      rawByte (Memory.read (mem [0x0A, 0x1E, 0x3C, 0x0A, 0x19, 0x2F])) row1 c -
        pred (rawLeft (Memory.read (mem [0x0A, 0x1E, 0x3C, 0x0A, 0x19, 0x2F])) row1 c)
          (rawAbove (Memory.read (mem [0x0A, 0x1E, 0x3C, 0x0A, 0x19, 0x2F])) row1 c)
          (rawAboveLeft (Memory.read (mem [0x0A, 0x1E, 0x3C, 0x0A, 0x19, 0x2F])) row1 c) :=
  ⟨_, rfl, geometry_row1, by decide, by decide, by decide, by decide⟩

/-- R327's examples: the nearest is a (a tie of a and b), b, c. -/
theorem wit_Predictors :
    (paethDistance 2 2 0 2 ≤ paethDistance 2 2 0 2 ∧ paethDistance 2 2 0 2 ≤ paethDistance 2 2 0 0) ∧
    (¬ (paethDistance 10 20 10 10 ≤ paethDistance 10 20 10 20 ∧ paethDistance 10 20 10 10 ≤ paethDistance 10 20 10 10) ∧
      paethDistance 10 20 10 20 ≤ paethDistance 10 20 10 10) ∧
    (¬ (paethDistance 4 6 5 4 ≤ paethDistance 4 6 5 6 ∧ paethDistance 4 6 5 4 ≤ paethDistance 4 6 5 5) ∧
      ¬ paethDistance 4 6 5 6 ≤ paethDistance 4 6 5 5) := by decide

theorem wit_StartInitialises : State.reset.status ≠ .busy ∧ (1 : Word).toNat % 2 = 1 ∧ (2 : Word).toNat % 2 = 0 ∧
    (job .zhdr).status = .busy := by decide

theorem wit_RegisterWrites : (job .zhdr).status = .busy ∧ State.reset.status ≠ .busy ∧
    ((0x1C : Nat) ≠ 0 ∧ (0x1C : Nat) ≠ 0x0C ∧ (0x1C : Nat) ≠ 0x10 ∧ (0x1C : Nat) ≠ 0x14 ∧ (0x1C : Nat) ≠ 0x18) := by decide

/-- A job that is done: R331's image. -/
def doneState : State :=
  { job .done with out := rows, opos := 8, row := 2, pix := mem [0x0A, 0x1E, 0x3C, 0x0A, 0x19, 0x2F], outLen := 8, pixLen := 6 }

/-- An unlisted offset; the offsets beside OUT_LEN and PIX_LEN; a job that is done, one that runs, one that faulted. -/
theorem wit_RegisterReads : 0x24 ∉ [0x00, 0x04, 0x08, 0x0C, 0x10, 0x14, 0x18, 0x1C, 0x20] ∧ (0x18 ≠ 0x1C ∧ 0x18 ≠ 0x20) ∧
    (0x24 ≠ 0x1C ∧ 0x24 ≠ 0x20) ∧ doneState.status = .done ∧ (job .zhdr).status ≠ .done ∧ (job .fault).status ≠ .done := by decide

/-- R352, R361: PIX_LEN reads in DONE, and is refused in IDLE. -/
theorem test_readReg : nextIs (hostMove (.readReg 0x20) doneState) (fun t => t.rdata == 6) = true ∧
    hostMove (.readReg 0x20) State.reset = .refused (.hostMove (.readReg 0x20)) := ⟨by decide +kernel, rfl⟩

/-- The last byte of IN, the last of OUT and the last of PIX. -/
theorem wit_HostMemoryAccess : Memory.wf doneState.inm = true ∧ doneState.status ≠ .busy ∧
    0xFFFFFFFE < doneState.par.inCap.toNat ∧ (job .zhdr).status = .busy ∧ doneState.status = .done ∧ 7 < doneState.outLen.toNat ∧
    5 < doneState.pixLen.toNat ∧ (job .fault).status ≠ .done := by decide

/-- Each clause: CHANNELS 0 and 5; OUT a byte too small; capacities that just suffice. -/
theorem wit_ConfigurationCheck : (job .cfg).phase = .cfg ∧ ({ job .cfg with channels := 0 } : State).channels.toNat < 1 ∧
    4 < ({ job .cfg with channels := 5 } : State).channels.toNat ∧
    (7 : Word).toNat < (job .cfg).height.toNat * (1 + (job .cfg).width.toNat * (job .cfg).channels.toNat) ∧
    (job .cfg).height.toNat * (1 + (job .cfg).width.toNat * (job .cfg).channels.toNat) ≤ (8 : Word).toNat ∧
    (job .cfg).inLen.toNat ≤ (32 : Word).toNat ∧
    (job .cfg).height.toNat * ((job .cfg).width.toNat * (job .cfg).channels.toNat) ≤ (6 : Word).toNat := by decide

/-- Code lengths whose two tables both build: literals 0 and 1 in 1 bit, distances 0 and 1 in 1 bit. -/
def bothBuild : State :=
  { job .dynlens with
    hlit := 257, hdist := 2, lidx := 259, lens := (((Vector.replicate 320 0).set 0 1).set 1 1 |>.set 257 1).set 258 1 }

theorem wit_TableBuilds : bothBuild.phase = .dynlens ∧ bothBuild.hlit.toNat + bothBuild.hdist.toNat ≤ bothBuild.lidx.toNat ∧
    (∃ T, build ((bothBuild.lens.toList.take bothBuild.hlit.toNat).map BitVec.toNat) = .ok T) ∧
    ∃ U, build (((bothBuild.lens.toList.drop bothBuild.hlit.toNat).take bothBuild.hdist.toNat).map BitVec.toNat) = .ok U :=
  ⟨by decide, by decide, builds_exists (by decide +kernel), builds_exists (by decide +kernel)⟩

/-- With no code length at all the first table does not build; with one distance the second does not. -/
theorem wit_TableBuilds_fault :
    build ((({ bothBuild with lens := Vector.replicate 320 0 } : State).lens.toList.take 257).map BitVec.toNat) = .error .huffUnder ∧
    build (((bothBuild.lens.toList.drop 257).take ({ bothBuild with hdist := 1 } : State).hdist.toNat).map BitVec.toNat) =
      .error .huffUnder := by decide +kernel

theorem wit_EndCheck : ({ job .endchk with opos := 8 } : State).opos = (job .endchk).expected ∧
    ({ job .endchk with opos := 7 } : State).opos ≠ (job .endchk).expected := by decide

/-- The invariant of a running job past CFG, outside DYNHDR, DYNLENS and SYMLOOP. -/
theorem inv_of {s : State} (hg : s.channels = 1 ∧ s.width = 3 ∧ s.height = 2 ∧ s.expected = 8 ∧ s.rowbytes = 3 ∧ s.bpp = 1 ∧
    s.inLen = 32 ∧ s.par = Params.default) (hp : s.phase = .blkhdr ∨ (s.phase = .unfilter ∧ s.opos = 8))
    (hm : s.inMatch = false) (hb : s.br = { pos := 2, acc := 0, bitcnt := 0 }) (hi : Memory.wf s.inm = true) (ho : Memory.wf s.out = true)
    (hx : Memory.wf s.pix = true) (he : s.err = 0) (hl : s.outLen = 0 ∧ s.pixLen = 0) (hop : s.opos.toNat ≤ 8) (hr : s.row.toNat ≤ 2) :
    Inv s := by
  have hs : s.status = .busy := by rcases hp with h | ⟨h, -⟩ <;> (rw [State.status, h]; rfl)
  refine ⟨by rw [hg.2.2.2.2.2.2.2]; exact params_wf, hi, ho, hx, fun _ => he, fun h => by (rw [hs] at h; cases h), fun _ => hl, fun h => by (rw [hs] at h; cases h), fun _ => ?_,
    fun h => by (rcases hp with h' | ⟨h', -⟩ <;> (rw [h'] at h; cases h)), fun _ _ => ?_⟩
  · rw [hb, hg.2.2.2.2.2.2.1]
    refine ⟨by decide, by decide, fun h => (h rfl).elim, ?_⟩
    have := (Memory.read s.inm 1).isLt
    show 0 = (Memory.read s.inm 1).toNat / 256
    omega
  · refine ⟨geometry_of hg, by rw [hg.2.2.2.1]; exact hop, by rw [hg.2.2.1]; exact hr, ?_, ?_, ?_, ?_, ?_⟩
    all_goals intro h
    · rcases hp with h' | ⟨-, h'⟩
      · rcases h with h | h <;> (rw [h'] at h; cases h)
      · rw [h', hg.2.2.2.1]
    · rcases hp with h' | ⟨h', -⟩ <;> rcases h with h | h <;> (rw [h'] at h; cases h)
    · rcases hp with h' | ⟨h', -⟩ <;> (rw [h'] at h; cases h)
    · rcases hp with h' | ⟨h', -⟩ <;> (rw [h'] at h; cases h)
    · rw [hm] at h; cases h

theorem wit_Completion : Inv { row0 with row := 2, pix := mem [0x0A, 0x1E, 0x3C, 0x0A, 0x19, 0x2F], br := { pos := 2, acc := 0, bitcnt := 0 } } ∧
    row0.phase = .unfilter ∧ (2 : Word) = row0.height :=
  ⟨inv_of ⟨rfl, rfl, rfl, rfl, rfl, rfl, rfl, rfl⟩ (.inr ⟨rfl, rfl⟩) rfl rfl (by decide) (by decide) (by decide) rfl ⟨rfl, rfl⟩
    (by decide) (by decide), rfl, rfl⟩

/-- One state for each clause. -/
theorem wit_PhaseSelectsContext : (job .zhdr).phase = .zhdr ∧ (job .blkhdr).phase = .blkhdr ∧ (job .stored).phase = .stored ∧
    (job .dynhdr).phase = .dynhdr ∧ (job .trailer).phase = .trailer ∧
    (∃ s : State, s.phase = .dynlens ∧ s.lidx.toNat < s.hlit.toNat + s.hdist.toNat ∧ s.lidx = 0) ∧
    (∃ s : State, s.phase = .dynlens ∧ s.lidx.toNat < s.hlit.toNat + s.hdist.toNat ∧ s.lidx ≠ 0) ∧
    (∃ s : State, s.phase = .symloop ∧ s.btype = 1 ∧ s.inMatch = false) ∧ (∃ s : State, s.phase = .symloop ∧ s.btype = 1 ∧ s.inMatch = true) ∧
    (∃ s : State, s.phase = .symloop ∧ s.btype = 2 ∧ s.inMatch = false) ∧
    ∃ s : State, s.phase = .symloop ∧ s.btype = 2 ∧ s.inMatch = true :=
  ⟨rfl, rfl, rfl, rfl, rfl, ⟨{ job .dynlens with hlit := 257, hdist := 1 }, rfl, by decide, rfl⟩,
    ⟨{ job .dynlens with hlit := 257, hdist := 1, lidx := 257 }, rfl, by decide, by decide⟩, ⟨{ job .symloop with btype := 1 }, rfl, rfl, rfl⟩,
    ⟨{ job .symloop with btype := 1, inMatch := true }, rfl, rfl, rfl⟩, ⟨{ job .symloop with btype := 2 }, rfl, rfl, rfl⟩,
    ⟨{ job .symloop with btype := 2, inMatch := true }, rfl, rfl, rfl⟩⟩

/-- A job at its block header, R308's stream. -/
def atHeader : State := { job .blkhdr with inm := mem [0x78, 0x01, 0x63, 0x68], br := { pos := 2, acc := 0, bitcnt := 0 } }

theorem atHeader_inv : Inv atHeader :=
  inv_of ⟨rfl, rfl, rfl, rfl, rfl, rfl, rfl, rfl⟩ (.inl rfl) rfl rfl (by decide) (by decide) (by decide) rfl ⟨rfl, rfl⟩ (by decide) (by decide)

/-- The core's step from it leaves the job running. -/
theorem atHeader_step : ∃ t, coreStep atHeader = .next t ∧ t.busy ∧ t.status ≠ .fault := by
  obtain ⟨t, h, hp⟩ := nextIs_exists (r := coreStep atHeader) (p := fun t => t.status == .busy) (by decide +kernel)
  have : t.status = .busy := by simpa using hp
  exact ⟨t, h, this, by rw [this]; decide⟩

/-- A table of one 1-bit code, which BUILD never accepts (R153): no code matches ones. -/
def partialTable : HuffTable := { count := (Vector.replicate 16 0).set 1 1, symbol := [0], valid := true }

/-- Ones in the stream, and that table. -/
def atNoCode : State := { job .symloop with btype := 2, llt := partialTable, inm := mem [0xFF, 0xFF], inLen := 2 }

/-- An element is decoded; the stream ends inside one; no code matches; each with no move pending, or with the core's turn pending. -/
theorem wit_StepRunsDecodedElement : elementCtx atHeader = some .bh ∧ atHeader.sched = [] ∧
    elementCtx { atHeader with sched := [none] } = some .bh ∧ elementCtx { atNoCode with sched := [none] } = some (.ll partialTable) ∧
    (∃ f, decode (readerSource atHeader.inm atHeader.inLen.toNat atHeader.par) .bh atHeader.br = .ok f) ∧
    (elementCtx { atHeader with inLen := 2 } = some .bh ∧ decode (readerSource atHeader.inm 2 atHeader.par) .bh atHeader.br = .error .exhausted) ∧
    elementCtx atNoCode = some (.ll partialTable) ∧ atNoCode.sched = [] ∧
    decode (readerSource atNoCode.inm atNoCode.inLen.toNat atNoCode.par) (.ll partialTable) atNoCode.br = .error .noMatch :=
  ⟨rfl, rfl, rfl, rfl, ⟨_, rfl⟩, ⟨rfl, by decide⟩, rfl, rfl, by decide +kernel⟩

theorem wit_StepRunsFilterByte : row0.sched = [] ∧ ({ row0 with sched := [none] } : State).sched = none :: [] ∧ row0.phase = .unfilter ∧ row1.row.toNat < row1.height.toNat ∧
    row1.row.toNat * (1 + row1.rowbytes.toNat) < row1.expected.toNat := by decide

theorem wit_StepRunsHostMove : ({ State.reset with sched := [some (.writeReg 0 1)] } : State).sched = some (.writeReg 0 1) :: [] := rfl

/-- A job at its configuration check, with nothing pending and with the core's turn pending. -/
theorem wit_StepRunsCore : (job .cfg).sched = [] ∧ ({ job .cfg with sched := [none] } : State).sched = none :: [] := ⟨rfl, rfl⟩

theorem wit_CoreRestsOutsideJobs : State.reset.phase = .idle ∧ doneState.phase = .done ∧ (job .fault).phase = .fault := ⟨rfl, rfl, rfl⟩

/-- START leaves IDLE. -/
theorem wit_OnlyHostLeavesRest : State.reset.status ≠ .busy ∧
    ∃ t, step { State.reset with sched := [some (.writeReg 0 1)] } = .next t ∧ t.status ≠ State.reset.status := by
  obtain ⟨t, h, hp⟩ := nextIs_exists (r := step { State.reset with sched := [some (.writeReg 0 1)] }) (p := fun t => t.status == .busy)
    (by decide +kernel)
  have : t.status = .busy := by simpa using hp
  exact ⟨by decide, t, h, by rw [this]; decide⟩

theorem wit_StepKeepsMemoriesCanonical : Memory.wf atHeader.inm = true ∧ Memory.wf atHeader.out = true ∧ Memory.wf atHeader.pix = true ∧
    ∃ t, step atHeader = .next t :=
  ⟨by decide, by decide, by decide, let ⟨t, h, _⟩ := atHeader_step; ⟨t, h⟩⟩

theorem wit_StepKeepsInv : Inv atHeader ∧ ∃ t, step atHeader = .next t := ⟨atHeader_inv, let ⟨t, h, _⟩ := atHeader_step; ⟨t, h⟩⟩

theorem wit_NoStuckJob : Inv atHeader ∧ atHeader.busy := ⟨atHeader_inv, rfl⟩

theorem wit_EveryJobEnds : Inv atHeader ∧ atHeader.busy := ⟨atHeader_inv, rfl⟩

theorem wit_ChecksumCoversOutput : Inv atHeader ∧ atHeader.busy ∧ ChecksumInv atHeader ∧ ∃ t, step atHeader = .next t ∧ t.busy :=
  ⟨atHeader_inv, rfl, rfl, let ⟨t, h, hb, _⟩ := atHeader_step; ⟨t, h, hb⟩⟩

theorem wit_CoreNeverWritesInput : ∃ t, coreStep atHeader = .next t := let ⟨t, h, _⟩ := atHeader_step; ⟨t, h⟩

theorem wit_CursorOnlyAdvances : Inv atHeader ∧ atHeader.busy ∧ ∃ t, coreStep atHeader = .next t ∧ t.busy :=
  ⟨atHeader_inv, rfl, let ⟨t, h, hb, _⟩ := atHeader_step; ⟨t, h, hb⟩⟩

theorem wit_OutputIsAppendOnly : Inv atHeader ∧ atHeader.busy ∧ atHeader.phase ≠ .cfg ∧ ∃ t, coreStep atHeader = .next t ∧ t.status ≠ .fault :=
  ⟨atHeader_inv, rfl, by decide, let ⟨t, h, _, hf⟩ := atHeader_step; ⟨t, h, hf⟩⟩

/-- R331's image at its second row. -/
theorem wit_PixelsWrittenRowByRow : ∃ s : State, Inv s ∧ s.busy ∧ ∃ t, coreStep s = .next t ∧ t.status ≠ .fault ∧ t.row = 2 := by
  refine ⟨{ row1 with br := { pos := 2, acc := 0, bitcnt := 0 } }, inv_of ⟨rfl, rfl, rfl, rfl, rfl, rfl, rfl, rfl⟩ (.inr ⟨rfl, rfl⟩) rfl rfl
    (by decide) (by decide) (by decide) rfl ⟨rfl, rfl⟩ (by decide) (by decide), rfl, ?_⟩
  obtain ⟨t, h, hp⟩ := nextIs_exists (r := coreStep { row1 with br := { pos := 2, acc := 0, bitcnt := 0 } })
    (p := fun t => t.status == .busy && t.row == 2) (by decide +kernel)
  simp only [Bool.and_eq_true, beq_iff_eq] at hp
  exact ⟨t, h, by rw [hp.1]; decide, hp.2⟩

/-- A machine after reset, and one in which a job has run, with the same input and configuration. -/
theorem wit_JobIgnoresHistory : Inv atHeader ∧ SameJob atHeader { atHeader with out := rows, opos := 7, s1 := 5, lidx := 9 } ∧
    Inv { atHeader with out := rows, opos := 7, s1 := 5, lidx := 9 } ∧ ∃ a, coreRun 1 (startJob atHeader) = .next a :=
  ⟨atHeader_inv, ⟨fun _ _ => rfl, rfl, rfl, rfl, rfl, rfl⟩,
    inv_of ⟨rfl, rfl, rfl, rfl, rfl, rfl, rfl, rfl⟩ (.inl rfl) rfl rfl (by decide) (by decide) (by decide) rfl ⟨rfl, rfl⟩ (by decide) (by decide),
    let ⟨t, h, _⟩ := nextIs_exists (r := coreRun 1 (startJob atHeader)) (p := fun _ => true) (by decide +kernel); ⟨t, h⟩⟩

end Sys2Proof.Tests
end

section
/-! SUPPORT. BUILD against the Kraft sum (spec R13, R152): the counter in closed form over the counts, the Kraft sum over the same counts. -/

namespace Sys2Proof.Machine

open Sys2Proof.Claims

/-- Doubling and subtracting `n` terms in turn, in closed form. -/
theorem foldl_double_sub (f : Nat → Nat) (n : Nat) : ∀ (L : Nat) (left : Int),
    ((List.range' L n).map f).foldl (fun (l : Int) (c : Nat) => 2 * l - (c : Int)) left =
      2 ^ n * left - ((∑ i ∈ Finset.range n, f (L + i) * 2 ^ (n - 1 - i) : Nat) : Int) := by
  induction n with
  | zero => intro L left; simp
  | succ n ih =>
    intro L left
    have hshift : ∀ i, f (L + 1 + i) * 2 ^ (n - 1 - i) = f (L + (i + 1)) * 2 ^ (n + 1 - 1 - (i + 1)) := fun i => by
      rw [show L + 1 + i = L + (i + 1) by omega, show n - 1 - i = n + 1 - 1 - (i + 1) by omega]
    rw [List.range'_succ, List.map_cons, List.foldl_cons, ih, Finset.sum_range_succ', Finset.sum_congr rfl fun i _ => hshift i]
    push_cast
    simp only [Nat.sub_zero, Nat.add_zero]
    ring

theorem kraft_cons (l : Nat) (ls : List Nat) : kraft (l :: ls) = (if l = 0 then 0 else 2 ^ (15 - l)) + kraft ls := by
  by_cases h : l = 0 <;> simp [kraft, h]

/-- The Kraft sum, collected by code length: each code of length L weighs 2^(15 - L) (R13). -/
theorem kraft_eq_sum_count {lens : List Nat} (h : ∀ l ∈ lens, l ≤ 15) :
    kraft lens = ∑ i ∈ Finset.range 15, lens.count (1 + i) * 2 ^ (15 - 1 - i) := by
  induction lens with
  | nil => simp [kraft]
  | cons l ls ih =>
    obtain ⟨hl, hls⟩ := List.forall_mem_cons.1 h
    have hone : (if l = 0 then 0 else 2 ^ (15 - l)) = ∑ i ∈ Finset.range 15, (if l = 1 + i then 1 else 0) * 2 ^ (15 - 1 - i) := by
      interval_cases l <;> decide
    rw [kraft_cons, ih hls, hone, ← Finset.sum_add_distrib]
    refine Finset.sum_congr rfl fun i _ => ?_
    rw [List.count_cons, ← Nat.add_mul, Nat.add_comm (ls.count _)]
    simp only [beq_iff_eq]

/-- What the Kraft counter of BUILD holds at the end: 2^15 less the Kraft sum (R152). -/
theorem kraftCounter_eq {lens : List Nat} (h : ∀ l ∈ lens, l ≤ 15) :
    ((List.range' 1 15).map (lens.count ·)).foldl (fun (l : Int) (c : Nat) => 2 * l - (c : Int)) 1 = 2 ^ 15 - (kraft lens : Int) := by
  rw [foldl_double_sub, kraft_eq_sum_count h, mul_one]

theorem kraftLoop_over {lens : List Nat} (h : ∀ l ∈ lens, l ≤ 15) (hk : 2 ^ 15 < kraft lens) :
    kraftLoop ((List.range' 1 15).map (lens.count ·)) 1 = .error .huffOver :=
  (kraftLoop_foldl _ 1 (by omega)).1 (by rw [kraftCounter_eq h]; omega)

theorem kraftLoop_left {lens : List Nat} (h : ∀ l ∈ lens, l ≤ 15) (hk : kraft lens ≤ 2 ^ 15) :
    kraftLoop ((List.range' 1 15).map (lens.count ·)) 1 = .ok (2 ^ 15 - (kraft lens : Int)) := by
  have hloop := (kraftLoop_foldl ((List.range' 1 15).map (lens.count ·)) 1 (by omega)).2
  rw [kraftCounter_eq h] at hloop
  exact hloop (by omega)

/-- Settles O8: BUILD compares the Kraft counter's end value, 2^15 less the Kraft sum, with 0. -/
theorem buildAcceptsCompleteCodes : Obligations.BuildAcceptsCompleteCodes := by
  intro lens
  refine ⟨fun ⟨l, hl, hlt⟩ => ?_, fun h => ?_⟩
  · have hany : lens.any (fun l => 15 < l) = true := List.any_eq_true.2 ⟨l, hl, decide_eq_true hlt⟩
    rw [build, if_pos hany]
  · have hany : ¬ lens.any (fun l => 15 < l) = true := by simpa using h
    refine ⟨fun hk => ?_, fun hk => ?_, fun hk => ?_⟩
    · rw [build, if_neg hany, kraftLoop_over h hk]
    · simp only [build, if_neg hany, kraftLoop_left h (Nat.le_of_lt hk)]
      rw [if_pos (by omega)]
    · simp only [build, if_neg hany, kraftLoop_left h (Nat.le_of_eq hk)]
      rw [if_neg (by omega)]
      exact ⟨_, rfl⟩

end Sys2Proof.Machine
end

section
/-! SUPPORT. What the core reads in each phase (spec R14, R107), and the core's turn of a step (R410). -/

namespace Sys2Proof.Machine

/-- DYNLENS reads code-length symbols while lengths are missing, with a previous length from the second on (R186, R190). -/
theorem elementCtx_dynlens {s : State} (hp : s.phase = .dynlens) (hlt : s.lidx.toNat < s.totalLens) :
    elementCtx s = some (.cl s.clt (decide (s.lidx ≠ 0))) := by
  simp only [elementCtx, hp, if_pos hlt]

/-- SYMLOOP reads a distance element after a length element, else a literal/length element (R212, R216). -/
theorem elementCtx_symloop {s : State} (hp : s.phase = .symloop) :
    elementCtx s = some (if s.inMatch then .d s.dTable else .ll s.llTable) := by
  simp only [elementCtx, hp]

/-- Settles O40: the phases of one fixed format, then DYNLENS by LIDX, then SYMLOOP by the block type and the match flag. -/
theorem phaseSelectsContext : Obligations.PhaseSelectsContext := by
  intro s
  refine ⟨fun hp => ?_, fun hp => ?_, fun hp => ?_, fun hp => ?_, fun hp => ?_, fun hp hlt h0 => ?_, fun hp hlt h0 => ?_,
    fun hp hb hm => ?_, fun hp hb hm => ?_, fun hp hb hm => ?_, fun hp hb hm => ?_⟩
  case refine_6 => rw [elementCtx_dynlens hp hlt, decide_eq_false (not_not_intro h0)]
  case refine_7 => rw [elementCtx_dynlens hp hlt, decide_eq_true h0]
  case refine_8 | refine_9 | refine_10 | refine_11 => simp [elementCtx_symloop hp, State.llTable, State.dTable, hb, hm]
  all_goals simp only [elementCtx, hp]

/-- Settles O58, by the two entries of the list of moves that give the core its turn. -/
theorem stepRunsCore : Obligations.StepRunsCore := fun s =>
  ⟨fun h => by rw [step, h], fun rest h => by rw [step, h]⟩

end Sys2Proof.Machine
end

section
/-! SUPPORT. The invariant along the steps of the core: every step of a running job keeps `Inv` (spec R22, R47, R70, R353). -/

namespace Sys2Proof.Machine

/-! ## The parts of the invariant -/

theorem errCode_range (e : Err) : 1 ≤ (errCode e).toNat ∧ (errCode e).toNat ≤ 21 := by cases e <;> decide

/-- Fault entry keeps the invariant: in FAULT it speaks of the parameters, the memories and ERR.CODE alone (R360). -/
theorem Inv.raiseFault {s u : State} (hi : Inv s) (hu : Kept s u) (e : Err) : Inv (raiseFault e u) := by
  have hk := hu.trans (Kept.fault e u)
  have hst : (Machine.raiseFault e u).status = .fault := rfl
  exact
    { par := hk.par ▸ hi.par
      inm_wf := hk.inm ▸ hi.inm_wf
      out_wf := hk.out_wf hi.out_wf
      pix_wf := hk.pix_wf hi.pix_wf
      err_zero := fun h => absurd hst h
      err_code := fun _ => errCode_range e
      no_result := fun h => by simp [hst] at h
      result := fun h => by simp [hst] at h
      reader := fun h => by simp [State.busy, hst] at h
      cfg := fun h => by simp at h
      job := fun h => by simp [State.busy, hst] at h }

theorem GeometryInv.kept {s t : State} (h : GeometryInv s) (hk : Kept s t)
    (hg : t.expected = s.expected ∧ t.rowbytes = s.rowbytes ∧ t.bpp = s.bpp) : GeometryInv t := by
  obtain ⟨he, hrb, hbpp⟩ := hg
  have hrow : t.cfgRowBytes = s.cfgRowBytes := by rw [State.cfgRowBytes, hk.width, hk.channels]; rfl
  have hexp : t.cfgExpected = s.cfgExpected := by rw [State.cfgExpected, hk.height, hrow]; rfl
  exact
    { channels_pos := hk.channels ▸ h.channels_pos
      channels_le := hk.channels ▸ h.channels_le
      width_pos := hk.width ▸ h.width_pos
      height_pos := hk.height ▸ h.height_pos
      expected_eq := by rw [he, hexp]; exact h.expected_eq
      rowbytes_eq := by rw [hrb, hrow]; exact h.rowbytes_eq
      bpp_eq := by rw [hbpp, hk.channels]; exact h.bpp_eq
      outCap := by rw [hexp, hk.par]; exact h.outCap
      inCap := by rw [hk.inLen, hk.par]; exact h.inCap
      pixCap := by rw [hk.height, hrow, hk.par]; exact h.pixCap }

/-- CFG passed: the configuration is one a job can run with, and EXPECTED, ROWBYTES and BPP are its (R353). -/
theorem configCheck_ok {s t : State} (h : configCheck s = .ok t) :
    t = { s with rowbytes := t.rowbytes, expected := t.expected, bpp := t.bpp, phase := .zhdr } ∧ GeometryInv t := by
  simp only [configCheck] at h
  split at h
  · cases h
  split at h
  · cases h
  rename_i hcfg hres
  cases h
  simp only [not_or, Nat.not_lt] at hcfg hres
  obtain ⟨hc1, hc4, hw, hh⟩ := hcfg
  obtain ⟨hout, hin, hpix⟩ := hres
  have hexp : s.cfgExpected < 2 ^ 32 := Nat.lt_of_le_of_lt hout s.par.outCap.isLt
  have hrow : s.cfgRowBytes < 2 ^ 34 := by
    have hlt := s.width.isLt
    have hle := Nat.mul_le_mul_left s.width.toNat hc4
    rw [State.cfgRowBytes]
    omega
  refine ⟨rfl, ?_⟩
  exact
    { channels_pos := hc1
      channels_le := hc4
      width_pos := fun h => hw (BitVec.eq_of_toNat_eq h)
      height_pos := fun h => hh (BitVec.eq_of_toNat_eq h)
      expected_eq := (BitVec.toNat_ofNat _ _).trans (Nat.mod_eq_of_lt hexp)
      rowbytes_eq := (BitVec.toNat_ofNat _ _).trans (Nat.mod_eq_of_lt hrow)
      bpp_eq := rfl
      outCap := hout
      inCap := hin
      pixCap := hpix }

/-! ## What a step leaves that goes on with the job -/

theorem Read.phase {s u : State} (h : Read s u) : u.phase = s.phase := by rw [h.eq]

/-- The registers that only CFG, a row, a fault or the end of a job changes (R321, R353, R360, R361). -/
def State.jobRegs (s : State) := (s.err, s.outLen, s.pixLen, s.expected, s.rowbytes, s.bpp, s.row)

theorem Read.jobRegs {s u : State} (h : Read s u) : u.jobRegs = s.jobRegs := by rw [h.eq]; rfl

theorem Emitted.jobRegs {s t : State} {bs : List Byte} (h : Emitted s t bs) : t.jobRegs = s.jobRegs := by rw [h.eq]; rfl

/-- What a step past CFG leaves that neither faults nor ends the job: ERR.CODE and the results' registers as they were, the geometry
as CFG set it, at most one more row, and a reader that still stands in IN. -/
structure GoesOn (s t : State) : Prop where
  past_cfg : s.phase ≠ .cfg
  busy : t.busy
  not_cfg : t.phase ≠ .cfg
  err : t.err = s.err
  outLen : t.outLen = s.outLen
  pixLen : t.pixLen = s.pixLen
  geometry : t.expected = s.expected ∧ t.rowbytes = s.rowbytes ∧ t.bpp = s.bpp
  row : t.row = s.row ∨ s.row.toNat < s.height.toNat ∧ t.row.toNat = s.row.toNat + 1
  reader : ReaderInv s.inm s.inLen.toNat s.br → ReaderInv s.inm s.inLen.toNat t.br

/-- A step of a running job as the invariant sees it: what it says of FAULT, of DONE, of a job's first state, and of a job that goes on. -/
inductive StepOutcome (s : State) : State → Prop
  /-- fault entry (R360) -/
  | faults (e : Err) (u : State) (hu : Kept s u) : StepOutcome s (raiseFault e u)
  /-- completion (R361) -/
  | completes (hp : s.phase = .unfilter) (hrow : s.row.toNat = s.height.toNat) : StepOutcome s (completeJob s)
  /-- CFG passed (R353) -/
  | configured (t : State) (hp : s.phase = .cfg) (hok : configCheck s = .ok t) : StepOutcome s t
  /-- any other step -/
  | goesOn (t : State) (h : GoesOn s t) : StepOutcome s t

/-- A step to a phase of a running job that leaves the registers of `jobRegs` alone. -/
theorem StepOutcome.of_same {s t : State} {p q : Phase} (hp : s.phase = p) (hc : p ≠ .cfg) (hq : t.phase = q)
    (hbusy : q.status = .busy ∧ q ≠ .cfg) (h : t.jobRegs = s.jobRegs)
    (hr : ReaderInv s.inm s.inLen.toNat s.br → ReaderInv s.inm s.inLen.toNat t.br) : StepOutcome s t := by
  simp only [State.jobRegs, Prod.mk.injEq] at h
  obtain ⟨herr, hol, hpl, he, hrb, hbpp, hrow⟩ := h
  exact .goesOn t ⟨hp ▸ hc, busy_of_phase hq hbusy.1, hq ▸ hbusy.2, herr, hol, hpl, ⟨he, hrb, hbpp⟩, .inl hrow, hr⟩

/-- The same after an element has been read, and nothing of the stream beyond it. -/
theorem StepOutcome.of_read {s u t : State} {p q : Phase} (hu : Read s u) (hp : s.phase = p) (hc : p ≠ .cfg) (hq : t.phase = q)
    (hbusy : q.status = .busy ∧ q ≠ .cfg) (h : t.jobRegs = u.jobRegs) (hbr : t.br = u.br) : StepOutcome s t :=
  .of_same hp hc hq hbusy (h.trans hu.jobRegs) fun _ => hbr ▸ hu.inv

theorem endOfBlock_phase_cases (s : State) : (endOfBlock s).phase = .endchk ∨ (endOfBlock s).phase = .blkhdr := by
  rw [endOfBlock_phase]
  split <;> simp

theorem endOfBlock_phase_busy (s : State) : (endOfBlock s).phase.status = .busy ∧ (endOfBlock s).phase ≠ .cfg := by
  rcases endOfBlock_phase_cases s with h | h <;> rw [h] <;> decide

/-- Fewer rows than HEIGHT have passed, so ROW does not wrap. -/
theorem row_succ_toNat {s : State} (h : s.row.toNat < s.height.toNat) : (s.row + 1).toNat = s.row.toNat + 1 := by
  have := s.height.isLt
  bv_omega

/-- Step by step, in the order of `JobStep`: what each leaves of `jobRegs`, the phase and the reader. -/
theorem JobStep.outcome {s t : State} (h : JobStep s t) : StepOutcome s t := by
  cases h with
  | fault e u hu => exact .faults e u (hu ▸ ⟨rfl, rfl, rfl, rfl, rfl, rfl, id, id⟩)
  | done hp hrow => exact .completes hp hrow
  | config _ hp hok => exact .configured t hp hok
  | header u hp hu => exact .of_read (q := .blkhdr) hu hp (by decide) rfl (by decide) rfl rfl
  | block u f ty body hp hu hbody =>
    have hbusy : body.status = .busy ∧ body ≠ .cfg := by rcases hbody with ⟨-, rfl⟩ | ⟨-, rfl⟩ | ⟨-, rfl⟩ <;> decide
    exact .of_read hu hp (by decide) rfl hbusy rfl rfl
  | stored u v len nlen bs hp hu hv hr hle =>
    exact .of_same hp (by decide) rfl (endOfBlock_phase_busy v) (hv.jobRegs.trans hu.jobRegs) fun _ => hr
  | dynamic u a b c ls T hp hu hT => exact .of_read (q := .dynlens) hu hp (by decide) rfl (by decide) rfl rfl
  | lengths u lens n hp hu hlt hle =>
    exact .of_read hu hp (by decide) (hu.phase.trans hp) (by decide) rfl rfl
  | tables ll d hp hdone hll hd => exact .of_same (q := .symloop) hp (by decide) rfl (by decide) rfl id
  | literal u b hp hm hu hfit =>
    exact .of_read hu hp (by decide) (hu.phase.trans hp) (by decide) rfl rfl
  | eob u hp hm hu =>
    exact .of_read hu hp (by decide) rfl (endOfBlock_phase_busy u) rfl rfl
  | length u base x hp hm hu h1 h2 =>
    exact .of_read hu hp (by decide) (hu.phase.trans hp) (by decide) rfl rfl
  | copy u _ base x hp hm hu h1 h2 hbr hv =>
    have hph : t.phase = u.phase := by rw [hv.eq]
    exact .of_read hu hp (by decide) (hph.trans (hu.phase.trans hp)) (by decide) hv.jobRegs hbr
  | endchk hp heq => exact .of_same (q := .trailer) hp (by decide) rfl (by decide) rfl id
  | trailer u hp hu => exact .of_read (q := .unfilter) hu hp (by decide) rfl (by decide) rfl rfl
  | row u b hp hrow hu hwf hother =>
    refine .goesOn _ ⟨by simp [hp], ?_, ?_, ?_, ?_, ?_, ⟨?_, ?_, ?_⟩, .inr ⟨hrow, row_succ_toNat hrow⟩, fun h => ?_⟩ <;> rw [hu]
    · exact busy_of_phase hp rfl
    · simp [hp]
    · exact h

/-! ## What the invariant says of each phase -/

/-- The clauses of `JobInv` that depend on the phase. -/
structure PhaseInv (s : State) : Prop where
  complete : s.phase = .trailer ∨ s.phase = .unfilter → s.opos = s.expected
  dynamic : s.phase = .dynhdr ∨ s.phase = .dynlens → s.btype = 2
  lens : s.phase = .dynlens → 257 ≤ s.hlit.toNat ∧ s.hlit.toNat ≤ 288 ∧ 1 ≤ s.hdist.toNat ∧ s.hdist.toNat ≤ 32 ∧
    s.lidx.toNat ≤ s.totalLens ∧ HuffTableWf 19 s.clt
  tables : s.phase = .symloop → s.btype = 1 ∨ (s.btype = 2 ∧ HuffTableWf 288 s.llt ∧ HuffTableWf 32 s.dt)
  mlen : s.inMatch = true → s.phase = .symloop ∧ 3 ≤ s.mlen.toNat ∧ s.mlen.toNat ≤ 258

theorem JobInv.phaseInv {s : State} (h : JobInv s) : PhaseInv s := ⟨h.complete, h.dynamic, h.lens, h.tables, h.mlen⟩

theorem PhaseInv.closed {s : State} (h : PhaseInv s) (hp : s.phase ≠ .symloop) : s.inMatch = false := by
  by_contra hm
  exact hp (h.mlen (by simpa using hm)).1

/-- Reading an element changes nothing these clauses speak of. -/
theorem Read.phaseInv {s u : State} (h : Read s u) (hj : PhaseInv s) : PhaseInv u := by
  rw [h.eq]
  exact ⟨hj.complete, hj.dynamic, hj.lens, hj.tables, hj.mlen⟩

/-- In these phases it only says that no match is open. -/
theorem PhaseInv.of_plain {s : State} (hp : s.phase = .zhdr ∨ s.phase = .blkhdr ∨ s.phase = .stored ∨ s.phase = .endchk)
    (hm : s.inMatch = false) : PhaseInv s := by
  rcases hp with hp | hp | hp | hp <;> constructor <;> simp [hp, hm]

theorem PhaseInv.of_complete {s : State} (hp : s.phase = .trailer ∨ s.phase = .unfilter) (hm : s.inMatch = false)
    (he : s.opos = s.expected) : PhaseInv s := by
  rcases hp with hp | hp <;> constructor <;> simp [hp, hm, he]

theorem PhaseInv.of_symloop {s : State} (hp : s.phase = .symloop)
    (ht : s.btype = 1 ∨ (s.btype = 2 ∧ HuffTableWf 288 s.llt ∧ HuffTableWf 32 s.dt))
    (hm : s.inMatch = true → 3 ≤ s.mlen.toNat ∧ s.mlen.toNat ≤ 258) : PhaseInv s :=
  ⟨by simp [hp], by simp [hp], by simp [hp], fun _ => ht, fun h => ⟨hp, hm h⟩⟩

theorem PhaseInv.of_dynlens {s : State} (hp : s.phase = .dynlens) (hm : s.inMatch = false) (hty : s.btype = 2)
    (hl : 257 ≤ s.hlit.toNat ∧ s.hlit.toNat ≤ 288 ∧ 1 ≤ s.hdist.toNat ∧ s.hdist.toNat ≤ 32 ∧ s.lidx.toNat ≤ s.totalLens ∧
      HuffTableWf 19 s.clt) : PhaseInv s :=
  ⟨by simp [hp], fun _ => hty, fun _ => hl, by simp [hp], by simp [hm]⟩

theorem hlitOf_range (a : BitVec 5) : 257 ≤ (hlitOf a).toNat ∧ (hlitOf a).toNat ≤ 288 := by
  have := a.isLt
  simp only [hlitOf, BitVec.toNat_ofNat]
  omega

theorem hdistOf_range (b : BitVec 5) : 1 ≤ (hdistOf b).toNat ∧ (hdistOf b).toNat ≤ 32 := by
  have := b.isLt
  simp only [hdistOf, BitVec.toNat_ofNat]
  omega

/-- The tables DYNBUILD makes are accepted tables of their alphabets (R187, R193). -/
theorem build_llLens_wf {s : State} {T : HuffTable} (hl : s.hlit.toNat ≤ 288) (h : build s.llLens = .ok T) : HuffTableWf 288 T := by
  have hlen : s.llLens.length ≤ 288 := by simp only [State.llLens, List.length_map, List.length_take]; omega
  exact (build_ok hlen h).1.mono hlen

theorem build_dLens_wf {s : State} {T : HuffTable} (hl : s.hdist.toNat ≤ 32) (h : build s.dLens = .ok T) : HuffTableWf 32 T := by
  have hlen : s.dLens.length ≤ 32 := by simp only [State.dLens, List.length_map, List.length_take]; omega
  exact (build_ok (by omega) h).1.mono hlen

theorem PhaseInv.of_endOfBlock {s : State} (hm : s.inMatch = false) : PhaseInv (endOfBlock s) :=
  .of_plain ((endOfBlock_phase_cases s).elim (fun h => .inr (.inr (.inr h))) fun h => .inr (.inl h)) hm

/-- A step past CFG that goes on with the job keeps what the invariant says of the phase. -/
theorem JobStep.phaseInv {s t : State} (h : JobStep s t) (hg : GoesOn s t) (hj : PhaseInv s) : PhaseInv t := by
  cases h with
  | fault e u hu => cases hg.busy
  | done hp hrow => cases hg.busy
  | config _ hp hok => exact absurd hp hg.past_cfg
  | header u hp hu => exact .of_plain (.inr (.inl rfl)) ((hu.phaseInv hj).closed (by simp [hu.phase, hp]))
  | block u f ty body hp hu hbody =>
    have hm : u.inMatch = false := (hu.phaseInv hj).closed (by simp [hu.phase, hp])
    rcases hbody with ⟨-, rfl⟩ | ⟨hty, rfl⟩ | ⟨hty, rfl⟩
    · exact .of_plain (.inr (.inr (.inl rfl))) hm
    · exact .of_symloop rfl (.inl hty) (by simp [hm])
    · exact ⟨by simp, fun _ => hty, by simp, by simp, by simp [hm]⟩
  | stored u v len nlen bs hp hu hv hr hle =>
    have hm : v.inMatch = u.inMatch := by rw [hv.eq]
    exact .of_endOfBlock (hm.trans ((hu.phaseInv hj).closed (by simp [hu.phase, hp])))
  | dynamic u a b c ls T hp hu hT =>
    have hju := hu.phaseInv hj
    have hpu := hu.phase.trans hp
    obtain ⟨h1, h2⟩ := hlitOf_range a
    obtain ⟨h3, h4⟩ := hdistOf_range b
    exact .of_dynlens rfl (hju.closed (by simp [hpu])) (hju.dynamic (.inl hpu)) ⟨h1, h2, h3, h4, Nat.zero_le _, hT⟩
  | lengths u lens n hp hu hlt hle =>
    have hju := hu.phaseInv hj
    have hpu := hu.phase.trans hp
    have htot : u.totalLens = s.totalLens := by rw [hu.eq]; rfl
    obtain ⟨h1, h2, h3, h4, -, hT⟩ := hju.lens hpu
    have hn : (BitVec.ofNat 9 n).toNat ≤ u.totalLens := by rw [BitVec.toNat_ofNat, htot]; exact (Nat.mod_le _ _).trans hle
    exact .of_dynlens hpu (hju.closed (by simp [hpu])) (hju.dynamic (.inr hpu)) ⟨h1, h2, h3, h4, hn, hT⟩
  | tables ll d hp hdone hll hd =>
    obtain ⟨-, h2, -, h4, -, -⟩ := hj.lens hp
    have hm : s.inMatch = false := hj.closed (by simp [hp])
    exact .of_symloop rfl (.inr ⟨hj.dynamic (.inr hp), build_llLens_wf h2 hll, build_dLens_wf h4 hd⟩) (by simp [hm])
  | literal u b hp hm hu hfit =>
    have hpu := hu.phase.trans hp
    exact .of_symloop hpu ((hu.phaseInv hj).tables hpu) fun h => ((hu.phaseInv hj).mlen h).2
  | eob u hp hm hu =>
    have hmu : u.inMatch = s.inMatch := by rw [hu.eq]
    exact .of_endOfBlock (hmu.trans hm)
  | length u base x hp hm hu h1 h2 =>
    have hpu := hu.phase.trans hp
    refine .of_symloop hpu ((hu.phaseInv hj).tables hpu) fun _ => ?_
    rw [lengthElement_mlen, BitVec.toNat_ofNat]
    omega
  | copy u _ base x hp hm hu h1 h2 hbr hv =>
    have hpu := hu.phase.trans hp
    rw [hv.eq]
    exact .of_symloop hpu ((hu.phaseInv hj).tables hpu) (by simp)
  | endchk hp heq => exact .of_complete (.inl rfl) (hj.closed (by simp [hp])) heq
  | trailer u hp hu =>
    have hju := hu.phaseInv hj
    have hpu := hu.phase.trans hp
    exact .of_complete (.inr rfl) (hju.closed (by simp [hpu])) (hju.complete (.inl hpu))
  | row u b hp hrow hu hwf hother =>
    rw [hu]
    exact .of_complete (.inr hp) (hj.closed (by simp [hp])) (hj.complete (.inr hp))

/-! ## The invariant after a step -/

/-- The end of a job leaves the results' sizes (R361). -/
theorem Inv.completeJob {s : State} (hi : Inv s) (hp : s.phase = .unfilter) (hrow : s.row.toNat = s.height.toNat) :
    Inv (completeJob s) := by
  have hb := busy_of_phase hp rfl
  have hj := hi.job hb (by simp [hp])
  have hopos := hj.complete (.inr hp)
  have hexp : s.expected.toNat = s.height.toNat * (1 + s.rowbytes.toNat) := by
    rw [hj.geometry.expected_eq, State.cfgExpected, hj.geometry.rowbytes_eq]
  have hle : s.pixSize ≤ s.expected.toNat := by rw [hexp, State.pixSize]; exact Nat.mul_le_mul_left _ (by omega)
  have hpix : (BitVec.ofNat 32 s.pixSize).toNat = s.pixSize := by
    rw [BitVec.toNat_ofNat, Nat.mod_eq_of_lt (Nat.lt_of_le_of_lt hle s.expected.isLt)]
  have hst : (Machine.completeJob s).status = .done := rfl
  exact
    { par := hi.par
      inm_wf := hi.inm_wf
      out_wf := hi.out_wf
      pix_wf := hi.pix_wf
      err_zero := fun _ => hi.err_zero (by rw [hb]; decide)
      err_code := fun h => by simp [hst] at h
      no_result := fun h => by simp [hst] at h
      result := fun _ => ⟨hopos, hopos, by rw [completeJob_pixLen, hpix, State.pixSize, ← hrow]; rfl, by
        rw [completeJob_pixLen, hpix, completeJob_outLen, hopos]; exact hle⟩
      reader := fun h => by simp [State.busy, hst] at h
      cfg := fun h => by simp at h
      job := fun h => by simp [State.busy, hst] at h }

/-- Past CFG the first state of a job satisfies the invariant: nothing written, no row passed, and the geometry of the check. -/
theorem Inv.configured {s t : State} (hi : Inv s) (hp : s.phase = .cfg) (hok : configCheck s = .ok t) : Inv t := by
  obtain ⟨heq, hgeom⟩ := configCheck_ok hok
  have hb := busy_of_phase hp rfl
  obtain ⟨hm, hopos, hrow⟩ := hi.cfg hp
  have hpt : t.phase = .zhdr := by rw [heq]
  have hbt : t.status = .busy := busy_of_phase hpt rfl
  have hjob : JobInv t := by
    obtain ⟨h1, h2, h3, h4, h5⟩ := PhaseInv.of_plain (.inl hpt) (by rw [heq]; exact hm)
    exact ⟨hgeom, by rw [heq]; simp [hopos], by rw [heq]; simp [hrow], h1, h2, h3, h4, h5⟩
  refine ⟨?_, ?_, ?_, ?_, fun _ => ?_, fun h => by simp [hbt] at h, fun _ => ?_, fun h => by simp [hbt] at h, fun _ => ?_,
    fun h => by simp [hpt] at h, fun _ _ => hjob⟩ <;> rw [heq]
  · exact hi.par
  · exact hi.inm_wf
  · exact hi.out_wf
  · exact hi.pix_wf
  · exact hi.err_zero (by rw [hb]; decide)
  · exact hi.no_result (.inr hb)
  · exact hi.reader hb

/-- The job's part after a step that goes on: the geometry, OPOS and ROW within their bounds, and the phase's clauses. -/
theorem GoesOn.jobInv {s t : State} (hg : GoesOn s t) (hi : Inv s) (hb : s.busy) (h : JobStep s t) (hk : Kept s t) : JobInv t := by
  have hj := hi.job hb hg.past_cfg
  obtain ⟨h1, h2, h3, h4, h5⟩ := h.phaseInv hg hj.phaseInv
  obtain ⟨bs, hw⟩ := (h.effects hi hb (by rw [hg.busy]; decide)).out
  refine ⟨hj.geometry.kept hk hg.geometry, ?_, ?_, h1, h2, h3, h4, h5⟩
  · rw [hg.geometry.1]
    exact hw.fits hg.past_cfg
  · have := hj.row_le
    rw [hk.height]
    rcases hg.row with hrow | ⟨hlt, hrow⟩ <;> rw [hrow] <;> omega

/-- A step that goes on keeps the invariant, once the job's part is known to hold. -/
theorem GoesOn.inv {s t : State} (h : GoesOn s t) (hi : Inv s) (hb : s.busy) (hk : Kept s t) (hj : JobInv t) : Inv t where
  par := hk.par ▸ hi.par
  inm_wf := hk.inm ▸ hi.inm_wf
  out_wf := hk.out_wf hi.out_wf
  pix_wf := hk.pix_wf hi.pix_wf
  err_zero _ := h.err.trans (hi.err_zero (by rw [hb]; decide))
  err_code hf := by rw [h.busy] at hf; cases hf
  no_result _ := by rw [h.outLen, h.pixLen]; exact hi.no_result (.inr hb)
  result hd := by rw [h.busy] at hd; cases hd
  reader _ := by rw [hk.inm, hk.inLen]; exact h.reader (hi.reader hb)
  cfg hc := absurd hc h.not_cfg
  job _ _ := hj

/-- Every step of a running job keeps the invariant. -/
theorem Inv.coreStep {s t : State} (hi : Inv s) (hb : s.busy) (h : coreStep s = .next t) : Inv t := by
  have hk := coreStep_kept h
  have hjs := jobStep_of hi hb h
  cases hjs.outcome with
  | faults e u hu => exact hi.raiseFault hu e
  | completes hp hrow => exact hi.completeJob hp hrow
  | configured _ hp hok => exact hi.configured hp hok
  | goesOn _ hg => exact hg.inv hi hb hk (hg.jobInv hi hb hjs hk)

end Sys2Proof.Machine
end

section
/-! SUPPORT. The work a running job has left (spec R196, R407): every step lessens it, so every job ends. -/

namespace Sys2Proof.Machine

/-- The part of `remainingWork` that the phase gives. -/
def phaseWork : Phase → Nat
  | .cfg => 9
  | .zhdr => 8
  | .dynhdr => 7
  | .stored => 6
  | .dynlens => 6
  | .blkhdr => 5
  | .symloop => 5
  | .endchk => 4
  | .trailer => 3
  | .unfilter => 2
  | .idle => 0
  | .done => 0
  | .fault => 0

theorem remainingWork_eq (s : State) :
    remainingWork s = 4 * (8 * s.inLen.toNat - s.bp) + (s.height.toNat - s.row.toNat) + phaseWork s.phase := by
  unfold remainingWork
  cases s.phase <;> rfl

theorem phaseWork_pos {s : State} (hb : s.busy) : 1 ≤ phaseWork s.phase := by
  obtain ⟨h1, h2, h3⟩ := Phase.status_busy.1 hb
  cases hp : s.phase with
  | idle => exact absurd hp h1
  | done => exact absurd hp h2
  | fault => exact absurd hp h3
  | _ => decide

theorem phaseWork_endOfBlock (s : State) : phaseWork (endOfBlock s).phase ≤ 5 := by
  rcases endOfBlock_phase_cases s with h | h <;> rw [h] <;> decide

/-- What a step that neither faults nor ends the job brings forward: it reads at least a bit, which pays for any later phase, or goes
to a phase nearer the end, or reconstructs a row. -/
theorem JobStep.forward {s t : State} (h : JobStep s t) (hb : t.busy) :
    (s.bp < t.bp ∧ phaseWork t.phase < phaseWork s.phase + 4) ∨ phaseWork t.phase < phaseWork s.phase ∨
      (phaseWork t.phase = phaseWork s.phase ∧ s.row.toNat < s.height.toNat ∧ s.row.toNat < t.row.toNat) := by
  cases h with
  | fault e u hu => cases hb
  | done hp hrow => cases hb
  | config _ hp hok =>
    have hpt : t.phase = .zhdr := by rw [(configCheck_ok hok).1]
    exact .inr (.inl (by rw [hp, hpt]; decide))
  | header u hp hu => exact .inl ⟨hu.lt, by rw [hp]; simp [phaseWork]⟩
  | block u f ty body hp hu hbody =>
    refine .inl ⟨hu.lt, ?_⟩
    rw [hp]
    rcases hbody with ⟨-, rfl⟩ | ⟨-, rfl⟩ | ⟨-, rfl⟩ <;> simp [phaseWork]
  | stored u v len nlen bs hp hu hv hr hle =>
    have := phaseWork_endOfBlock v
    exact .inr (.inl (by rw [hp, show phaseWork .stored = 6 from rfl]; omega))
  | dynamic u a b c ls T hp hu hT => exact .inr (.inl (by rw [hp]; change phaseWork .dynlens < phaseWork .dynhdr; decide))
  | lengths u lens n hp hu hlt hle => exact .inl ⟨hu.lt, by simp [hu.phase]⟩
  | tables ll d hp hdone hll hd => exact .inr (.inl (by rw [hp]; simp [phaseWork]))
  | literal u b hp hm hu hfit => exact .inl ⟨hu.lt, by simp [hu.phase]⟩
  | eob u hp hm hu =>
    have := phaseWork_endOfBlock u
    exact .inl ⟨hu.lt, by rw [hp, show phaseWork .symloop = 5 from rfl]; omega⟩
  | length u base x hp hm hu h1 h2 => exact .inl ⟨hu.lt, by simp [hu.phase]⟩
  | copy u _ base x hp hm hu h1 h2 hbr hv =>
    have hph : t.phase = u.phase := by rw [hv.eq]
    exact .inl ⟨by rw [State.bp, State.bp, hbr]; exact hu.lt, by simp [hph, hu.phase]⟩
  | endchk hp heq => exact .inr (.inl (by rw [hp]; simp [phaseWork]))
  | trailer u hp hu => exact .inl ⟨hu.lt, by rw [hp]; simp [phaseWork]⟩
  | row u b hp hrow hu hwf hother =>
    exact .inr (.inr ⟨by rw [hu], hrow, by rw [row_succ_toNat hrow]; omega⟩)

/-- A step of a running job that does not end it lessens the work left. -/
theorem remainingWork_coreStep {s t : State} (hi : Inv s) (hb : s.busy) (h : coreStep s = .next t) (hbt : t.busy) :
    remainingWork t < remainingWork s := by
  have hk := coreStep_kept h
  have hjs := jobStep_of hi hb h
  have he := hjs.effects hi hb (by rw [hbt]; decide)
  have hbp := he.bp_mono
  have hrows := he.rows.1
  have hend := ((hi.coreStep hb h).reader hbt).bp_le
  rw [hk.inLen] at hend
  rw [remainingWork_eq, remainingWork_eq, hk.inLen, hk.height]
  rcases hjs.forward hbt with ⟨h1, h2⟩ | h1 | ⟨h1, h2, h3⟩
  · change t.bp ≤ _ at hend
    omega
  · omega
  · omega

theorem final_of_not_busy {s t : State} (h : JobStep s t) (hb : ¬ t.busy) : t.final := by
  cases h.outcome with
  | faults e u hu => exact .inr rfl
  | completes hp hrow => exact .inl rfl
  | configured _ hp hok => exact absurd (busy_of_phase (p := .zhdr) (by rw [(configCheck_ok hok).1]) rfl) hb
  | goesOn _ hg => exact absurd hg.busy hb

/-- A job with at most `w` work left ends within `w` steps. -/
theorem coreRun_ends (w : Nat) : ∀ {s : State}, Inv s → s.busy → remainingWork s ≤ w →
    ∃ n t, n ≤ w ∧ coreRun n s = .next t ∧ t.final := by
  induction w with
  | zero =>
    intro s hi hb hw
    have := phaseWork_pos hb
    rw [remainingWork_eq] at hw
    omega
  | succ w ih =>
    intro s hi hb hw
    obtain ⟨t, hstep, hjs⟩ := coreStep_jobStep hi hb
    by_cases hbt : t.busy
    · have hless := remainingWork_coreStep hi hb hstep hbt
      obtain ⟨n, u, hn, hrun, hfin⟩ := ih (hi.coreStep hb hstep) hbt (by omega)
      exact ⟨n + 1, u, by omega, by simp only [coreRun, hstep, hrun], hfin⟩
    · exact ⟨1, t, by omega, by simp only [coreRun, hstep], final_of_not_busy hjs hbt⟩

/-- Settles O50, by induction on the work left, which each step of a running job lessens. -/
theorem everyJobEnds : Obligations.EveryJobEnds := fun _ hi hb => coreRun_ends _ hi hb (Nat.le_refl _)

end Sys2Proof.Machine
end

section
/-! SUPPORT. The registers POS, ACC and BITCNT against the stream of bits, for whole elements (spec R22, R131, R136). -/

namespace Sys2Proof.Machine

/-- Settles O6: the reader and the bit string from BP on are related sources, and the decoder agrees on related sources. -/
theorem readerDecodesTheStream : Obligations.ReaderDecodesTheStream := by
  intro inm inLen par br c hl hw hr
  rcases (readerSource_rel hl hw).decode c hr.rel with ⟨e, hreader, hstring⟩ | ⟨f, g, hreader, hstring, hi, hregs, hrest⟩
  · rw [hreader]
    exact hstring
  · rw [hreader]
    exact ⟨g, hstring, hi, hregs, hrest.inv, hrest.pos.symm, hrest.bits⟩

end Sys2Proof.Machine
end

section
/-! SUPPORT. What a move of the host can do, said once (spec R33 to R46, R352, R400), and the invariant along every step. -/

namespace Sys2Proof.Machine

/-! ## The register block (R33 to R42) -/

/-- While BUSY every register write is ignored (R34, R352). -/
theorem writeReg_busy {s : State} (hb : s.busy) (offset : Nat) (v : Word) : writeReg offset v s = s := if_pos hb

/-- CTRL.START is bit 0 of the word written (R34). -/
theorem startBit_eq (v : Word) : v.getLsbD 0 = decide (v.toNat % 2 = 1) := by
  rw [BitVec.getLsbD, Nat.testBit_zero]

theorem writeReg_ctrl {s : State} (hb : ¬ s.busy) (v : Word) : writeReg 0 v s = if v.toNat % 2 = 1 then startJob s else s := by
  simp only [writeReg, if_neg hb, startBit_eq, decide_eq_true_eq]

theorem writeReg_inLen {s : State} (hb : ¬ s.busy) (v : Word) : writeReg 0x0C v s = { s with inLen := v } := if_neg hb

theorem writeReg_width {s : State} (hb : ¬ s.busy) (v : Word) : writeReg 0x10 v s = { s with width := v } := if_neg hb

theorem writeReg_height {s : State} (hb : ¬ s.busy) (v : Word) : writeReg 0x14 v s = { s with height := v } := if_neg hb

theorem writeReg_channels {s : State} (hb : ¬ s.busy) (v : Word) : writeReg 0x18 v s = { s with channels := v.setWidth 3 } :=
  if_neg hb

/-- Read-only and unlisted offsets ignore writes (R33). -/
theorem writeReg_unlisted {offset : Nat} (h : offset ∉ [0, 0x0C, 0x10, 0x14, 0x18]) (v : Word) (s : State) :
    writeReg offset v s = s := by
  unfold writeReg
  split
  · rfl
  · split
    case h_6 => rfl
    all_goals simp at h

/-- Unlisted offsets read 0 (R33). -/
theorem readReg_unlisted {offset : Nat} (h : offset ∉ [0x04, 0x08, 0x0C, 0x10, 0x14, 0x18, 0x1C, 0x20]) (s : State) :
    readReg offset s = 0 := by
  unfold readReg
  split
  case h_9 => rfl
  all_goals simp at h

/-! ## Everything a host move can do -/

/-- The moves of the host that are answered (R352). -/
inductive HostStep (s : State) : HostMove → State → Prop
  /-- a read, or a write that is ignored: at most what the host last read changes -/
  | reads (m : HostMove) (w : Word) : HostStep s m { s with rdata := w }
  /-- a byte of IN or a configuration register, outside BUSY (R37 to R40, R401) -/
  | loads (m : HostMove) (inm : Memory) (inLen width height : Word) (channels : BitVec 3) (hb : ¬ s.busy)
      (hwf : Memory.wf s.inm = true → Memory.wf inm = true) :
      HostStep s m { s with inm := inm, inLen := inLen, width := width, height := height, channels := channels }
  /-- START, outside BUSY (R46) -/
  | starts (v : Word) (hb : ¬ s.busy) (hv : v.toNat % 2 = 1) : HostStep s (.writeReg 0 v) (startJob s)
  /-- hardware reset (R400) -/
  | resets : HostStep s .hardReset { State.reset with par := s.par, sched := s.sched, rdata := s.rdata, freeCtr := s.freeCtr }

theorem HostStep.ignored (s : State) (m : HostMove) : HostStep s m s := .reads m s.rdata

theorem writeReg_hostStep (offset : Nat) (v : Word) (s : State) : HostStep s (.writeReg offset v) (writeReg offset v s) := by
  by_cases hb : s.busy
  · rw [writeReg_busy hb]
    exact .ignored s _
  by_cases hlisted : offset ∈ [0, 0x0C, 0x10, 0x14, 0x18]
  · simp only [List.mem_cons, List.not_mem_nil, or_false] at hlisted
    rcases hlisted with rfl | rfl | rfl | rfl | rfl
    · rw [writeReg_ctrl hb]
      split
      · exact .starts v hb ‹_›
      · exact .ignored s _
    · exact writeReg_inLen hb v ▸ .loads _ s.inm v s.width s.height s.channels hb id
    · exact writeReg_width hb v ▸ .loads _ s.inm s.inLen v s.height s.channels hb id
    · exact writeReg_height hb v ▸ .loads _ s.inm s.inLen s.width v s.channels hb id
    · exact writeReg_channels hb v ▸ .loads _ s.inm s.inLen s.width s.height (v.setWidth 3) hb id
  · rw [writeReg_unlisted hlisted]
    exact .ignored s _

theorem hostMove_hostStep {m : HostMove} {s t : State} (h : hostMove m s = .next t) : HostStep s m t := by
  cases m with
  | writeReg offset v =>
    cases h
    exact writeReg_hostStep offset v s
  | readReg offset =>
    simp only [hostMove] at h
    split at h
    · cases h
    · cases h
      exact .reads _ _
  | writeIn a b =>
    simp only [hostMove] at h
    split at h
    · cases h
    rename_i hb
    split at h
    · cases h
      exact .loads _ _ s.inLen s.width s.height s.channels hb fun hwf => Memory.wf_write hwf a b
    · cases h
  | readOut a =>
    simp only [hostMove] at h
    split at h
    · cases h
      exact .reads _ _
    · cases h
  | readPix a =>
    simp only [hostMove] at h
    split at h
    · cases h
      exact .reads _ _
    · cases h
  | hardReset =>
    cases h
    exact .resets

/-! ## The invariant along the moves of the host -/

/-- The invariant says nothing of the pending moves nor of what the host last read. -/
theorem Inv.hostFields {s : State} (hi : Inv s) (l : List (Option HostMove)) (w : Word) : Inv { s with sched := l, rdata := w } := by
  have hk : Kept s { s with sched := l, rdata := w } := ⟨rfl, rfl, rfl, rfl, rfl, rfl, id, id⟩
  refine ⟨hi.par, hi.inm_wf, hi.out_wf, hi.pix_wf, hi.err_zero, hi.err_code, hi.no_result, hi.result, hi.reader, hi.cfg,
    fun hb hp => ?_⟩
  obtain ⟨hg, hopos, hrow, h1, h2, h3, h4, h5⟩ := hi.job hb hp
  exact ⟨hg.kept hk ⟨rfl, rfl, rfl⟩, hopos, hrow, h1, h2, h3, h4, h5⟩

/-- Outside a job the invariant says nothing of the configuration, and of IN only that it is canonical. -/
theorem Inv.load {s : State} (hi : Inv s) (hb : ¬ s.busy) {inm : Memory} (hwf : Memory.wf inm = true) (inLen width height : Word)
    (channels : BitVec 3) : Inv { s with inm := inm, inLen := inLen, width := width, height := height, channels := channels } where
  par := hi.par
  inm_wf := hwf
  out_wf := hi.out_wf
  pix_wf := hi.pix_wf
  err_zero := hi.err_zero
  err_code := hi.err_code
  no_result := hi.no_result
  result := hi.result
  reader h := absurd h hb
  cfg := hi.cfg
  job h := absurd h hb

/-- START leaves an empty reader at the first bit of IN, no result and no code (R46). -/
theorem Inv.startJob {s : State} (hi : Inv s) : Inv (startJob s) where
  par := hi.par
  inm_wf := hi.inm_wf
  out_wf := hi.out_wf
  pix_wf := hi.pix_wf
  err_zero _ := rfl
  err_code h := by simp [startJob_status] at h
  no_result _ := ⟨rfl, rfl⟩
  result h := by simp [startJob_status] at h
  reader _ := ⟨by simp, by simp, by simp, by simp; omega⟩
  cfg _ := ⟨rfl, rfl, rfl⟩
  job _ h := by simp at h

/-- What a hardware reset leaves satisfies the invariant, whatever it keeps (R45, R400). -/
theorem Inv.hardReset {p : Params} (hp : p.Wf) (l : List (Option HostMove)) (w : Word) (n : Nat) :
    Inv { State.reset with par := p, sched := l, rdata := w, freeCtr := n } where
  par := hp
  inm_wf := rfl
  out_wf := rfl
  pix_wf := rfl
  err_zero _ := rfl
  err_code h := by cases h
  no_result _ := ⟨rfl, rfl⟩
  result h := by cases h
  reader h := by cases h
  cfg h := by cases h
  job h := by cases h

theorem HostStep.inv {s t : State} {m : HostMove} (h : HostStep s m t) (hi : Inv s) : Inv t := by
  cases h with
  | reads _ w => exact hi.hostFields s.sched w
  | loads _ inm inLen width height channels hb hwf => exact hi.load hb (hwf hi.inm_wf) ..
  | starts v hb hv => exact hi.startJob
  | resets => exact .hardReset hi.par ..

/-- The core keeps the invariant in a job and does nothing outside one. -/
theorem Inv.coreStep_any {s t : State} (hi : Inv s) (h : Machine.coreStep s = .next t) : Inv t := by
  by_cases hb : s.busy
  · exact hi.coreStep hb h
  · rw [coreStep_rest hb] at h
    cases h
    exact hi

/-- Settles O48, by who acts: the core, or the host with one of its moves. -/
theorem stepKeepsInv : Obligations.StepKeepsInv := by
  intro s t hi h
  cases hs : s.sched with
  | nil =>
    simp only [step, hs] at h
    exact hi.coreStep_any h
  | cons entry rest =>
    have hrest : Inv { s with sched := rest } := hi.hostFields rest s.rdata
    cases entry with
    | none =>
      simp only [step, hs] at h
      exact hrest.coreStep_any h
    | some m =>
      simp only [step, hs] at h
      exact (hostMove_hostStep h).inv hrest

/-- Settles O49, by what each phase of a running job can do. -/
theorem noStuckJob : Obligations.NoStuckJob := fun _ hi hb =>
  let ⟨t, h, _⟩ := coreStep_jobStep hi hb
  ⟨t, h⟩

end Sys2Proof.Machine
end

section
/-! SUPPORT. The end of a job, what wakes the machine, and the cursor of a running job (spec R24, R360 to R362). -/

namespace Sys2Proof.Machine

/-- After the last row the core completes the job (R361). -/
theorem coreStep_complete {s : State} (hp : s.phase = .unfilter) (hrow : s.row = s.height) :
    coreStep s = .next (completeJob s) := by
  have hfetch : fetch s = .none := by simp [fetch, elementCtx, hp, hrow]
  simp only [coreStep, hfetch, phaseAction, hp]

/-- Settles O38: the completed state satisfies the invariant, which in DONE gives the two lengths. -/
theorem completion : Obligations.Completion := by
  intro s hi hp hrow
  have hgeom := (hi.job (busy_of_phase hp rfl) (by simp [hp])).geometry
  have hdone := hi.completeJob hp (congrArg BitVec.toNat hrow)
  obtain ⟨hout, -, hpix, -⟩ := hdone.result rfl
  refine ⟨completeJob s, coreStep_complete hp hrow, rfl, ?_, hout, rfl, hdone.err_zero (nofun), rfl⟩
  calc (completeJob s).pixLen.toNat = s.row.toNat * s.rowbytes.toNat := hpix
    _ = s.height.toNat * (s.width.toNat * s.channels.toNat) := by rw [hrow, hgeom.rowbytes_eq, State.cfgRowBytes]
    _ = s.width.toNat * s.height.toNat * s.channels.toNat := by ring

/-- Of the host's moves only START and a hardware reset change STATE. -/
theorem HostStep.status_cases {s t : State} {m : HostMove} (h : HostStep s m t) :
    t.status = s.status ∨ (∃ v : Word, v.toNat % 2 = 1 ∧ m = .writeReg 0 v ∧ t.status = .busy) ∨
      m = .hardReset ∧ t.status = .idle := by
  cases h with
  | reads _ w => exact .inl rfl
  | loads _ inm inLen width height channels hb hwf => exact .inl rfl
  | starts v hb hv => exact .inr (.inl ⟨v, hv, rfl, rfl⟩)
  | resets => exact .inr (.inr ⟨rfl, rfl⟩)

/-- Settles O45: outside a job the core rests, so a change of STATE is a host move's. -/
theorem onlyHostLeavesRest : Obligations.OnlyHostLeavesRest := by
  intro s t hb h hchange
  cases hs : s.sched with
  | nil =>
    simp only [step, hs, coreStep_rest hb] at h
    cases h
    exact absurd rfl hchange
  | cons entry rest =>
    refine ⟨rest, ?_⟩
    have hrest : ¬ State.busy { s with sched := rest } := hb
    cases entry with
    | none =>
      simp only [step, hs, coreStep_rest hrest] at h
      cases h
      exact absurd rfl hchange
    | some m =>
      simp only [step, hs] at h
      rcases (hostMove_hostStep h).status_cases with hsame | ⟨v, hv, rfl, hbusy⟩ | ⟨rfl, hidle⟩
      · exact absurd hsame hchange
      · exact .inl ⟨v, hv, rfl, hbusy⟩
      · exact .inr ⟨rfl, hidle⟩

/-- Settles O53, from the effects of a step that does not fault. -/
theorem cursorOnlyAdvances : Obligations.CursorOnlyAdvances := by
  intro s t hi hb h hbt
  have he := (jobStep_of hi hb h).effects hi hb (by rw [hbt]; decide)
  exact ⟨he.bp_mono, he.bp_le (Phase.status_busy.1 hbt).2.1⟩

end Sys2Proof.Machine
end

section
/-! SUPPORT. Reset, START and the register block as the host sees them (spec R33 to R46, R352, R400). -/

namespace Sys2Proof.Machine

open Sys2Proof.Claims

theorem hasResetValues_hardReset (p : Params) (l : List (Option HostMove)) (w : Word) (n : Nat) :
    HasResetValues { State.reset with par := p, sched := l, rdata := w, freeCtr := n } :=
  ⟨rfl, rfl, rfl, rfl, rfl, rfl, rfl, rfl, rfl, rfl, rfl, rfl, rfl⟩

/-- In CFG the core checks the configuration (R353). -/
theorem coreStep_cfg {s : State} (hp : s.phase = .cfg) : coreStep s = finish s (configCheck s) := by
  have hfetch : fetch s = .none := by simp [fetch, elementCtx, hp]
  simp only [coreStep, hfetch, phaseAction, hp]

theorem configCheck_badConfig {s : State}
    (h : s.channels.toNat < 1 ∨ 4 < s.channels.toNat ∨ s.width = 0 ∨ s.height = 0) :
    configCheck s = .error (.raise .badConfig) := if_pos h

/-- Settles O30: reset sets the registers of R45, and its WIDTH of 0 fails the configuration check. -/
theorem resetValues : Obligations.ResetValues := by
  refine ⟨hasResetValues_hardReset .., fun s => ⟨_, rfl, hasResetValues_hardReset ..⟩, ?_⟩
  have hwidth : (startJob State.reset).width = 0 := rfl
  rw [coreStep_cfg (startJob_phase _), configCheck_badConfig (.inr (.inr (.inl hwidth)))]
  rfl

/-- Settles O46: it is the state a hardware reset leaves, with R8's default parameters. -/
theorem resetSatisfiesInv : Obligations.ResetSatisfiesInv :=
  .hardReset ⟨by decide, by decide, rfl, by decide⟩ [] 0 0

/-- Settles O57, by the definition of the move. -/
theorem hardwareResetState : Obligations.HardwareResetState := fun _ => rfl

/-- Settles O31, by the write of CTRL in and outside BUSY. -/
theorem startInitialises : Obligations.StartInitialises := by
  intro v s
  refine ⟨fun hb hv => ⟨false, ?_⟩, fun hb hv => ?_, fun hb => ?_, rfl, rfl⟩
  · rw [hostMove, writeReg_ctrl hb, if_pos hv]
    rfl
  · rw [hostMove, writeReg_ctrl hb, if_neg (by omega)]
  · rw [hostMove, writeReg_busy hb]

/-- Settles O32, register by register. -/
theorem registerWrites : Obligations.RegisterWrites := by
  intro v s
  refine ⟨fun hb offset => ?_, fun hb => ⟨?_, ?_, ?_, ⟨v.setWidth 3, ?_, BitVec.toNat_setWidth ..⟩, ?_⟩⟩
  · rw [hostMove, writeReg_busy hb]
  · rw [hostMove, writeReg_inLen hb]
  · rw [hostMove, writeReg_width hb]
  · rw [hostMove, writeReg_height hb]
  · rw [hostMove, writeReg_channels hb]
  · intro offset h0 h1 h2 h3 h4
    rw [hostMove, writeReg_unlisted (by simp [h0, h1, h2, h3, h4])]

/-- Settles O33: the register map, then the host's read of it in DONE and elsewhere. -/
theorem registerReads : Obligations.RegisterReads := by
  intro s
  refine ⟨rfl, ?status, ?err, rfl, rfl, rfl, ?channels, rfl, rfl, fun offset h => readReg_unlisted ?unlisted s, fun offset h => ?_,
    fun hd => ⟨if_pos ⟨hd, .inl rfl⟩, if_pos ⟨hd, .inr rfl⟩⟩⟩
  case status =>
    change (s.status.code.setWidth 32).toNat = _
    cases s.status <;> rfl
  case err => exact BitVec.toNat_setWidth_of_le (by decide)
  case channels => exact BitVec.toNat_setWidth_of_le (by decide)
  case unlisted => exact fun hmem => h (List.mem_cons_of_mem _ hmem)
  · refine if_neg fun ⟨hd, hoff⟩ => ?_
    rcases h with ⟨h1, h2⟩ | h
    · exact hoff.elim h1 h2
    · exact hd h

end Sys2Proof.Machine
end

section
/-! SUPPORT. The three memories along every step (spec R60 to R64, R352, R401): their canonical form, who writes which, and where. -/

namespace Sys2Proof.Machine

/-! ## The canonical form -/

/-- The three memories are canonical lists (log 2). -/
def State.Canonical (s : State) : Prop := Memory.wf s.inm = true ∧ Memory.wf s.out = true ∧ Memory.wf s.pix = true

theorem State.Canonical.kept {s t : State} (hs : s.Canonical) (hk : Kept s t) : t.Canonical :=
  let ⟨hin, hout, hpix⟩ := hs
  ⟨hk.inm ▸ hin, hk.out_wf hout, hk.pix_wf hpix⟩

theorem HostStep.canonical {s t : State} {m : HostMove} (h : HostStep s m t) (hs : s.Canonical) : t.Canonical := by
  obtain ⟨hin, hout, hpix⟩ := hs
  cases h with
  | reads _ w => exact ⟨hin, hout, hpix⟩
  | loads _ inm inLen width height channels hb hwf => exact ⟨hwf hin, hout, hpix⟩
  | starts v hb hv => exact ⟨hin, hout, hpix⟩
  | resets => exact ⟨rfl, rfl, rfl⟩

/-- Who acts in a step (R410): the core, or the host with the move that was pending first. -/
theorem step_cases {s t : State} (h : step s = .next t) :
    ∃ rest, coreStep { s with sched := rest } = .next t ∨
      ∃ m, s.sched = some m :: rest ∧ HostStep { s with sched := rest } m t := by
  cases hs : s.sched with
  | nil => exact ⟨s.sched, .inl ((stepRunsCore s).1 hs ▸ h)⟩
  | cons entry rest =>
    refine ⟨rest, ?_⟩
    cases entry with
    | none => exact .inl ((stepRunsCore s).2 rest hs ▸ h)
    | some m =>
      simp only [step, hs] at h
      exact .inr ⟨m, rfl, hostMove_hostStep h⟩

/-- Settles O47, by who acts: the core, whose every step keeps the form (`Kept`), or the host. -/
theorem stepKeepsMemoriesCanonical : Obligations.StepKeepsMemoriesCanonical := by
  intro s t hin hout hpix h
  obtain ⟨rest, hcore | ⟨m, -, hhost⟩⟩ := step_cases h
  · exact State.Canonical.kept (s := { s with sched := rest }) ⟨hin, hout, hpix⟩ (coreStep_kept hcore)
  · exact hhost.canonical ⟨hin, hout, hpix⟩

/-! ## What the core writes -/

/-- Settles O52, from what every step of the core keeps. -/
theorem coreNeverWritesInput : Obligations.CoreNeverWritesInput := fun _ _ h =>
  let hk := coreStep_kept h
  ⟨hk.inm, hk.inLen, hk.width, hk.height, hk.channels, hk.par⟩

theorem coreStep_effects {s t : State} (hi : Inv s) (hb : s.busy) (h : coreStep s = .next t) (hnf : t.status ≠ .fault) :
    Effects s t := (jobStep_of hi hb h).effects hi hb hnf

/-- Settles O54: a step appends some bytes to OUT at OPOS, and they fit. -/
theorem outputIsAppendOnly : Obligations.OutputIsAppendOnly := by
  intro s t hi hb hp h hnf
  have he := coreStep_effects hi hb h hnf
  obtain ⟨bs, hbs⟩ := he.out
  have hadvance : s.opos.toNat ≤ t.opos.toNat := hbs.opos ▸ Nat.le_add_right _ _
  exact ⟨hadvance, hbs.fits hp, he.expected hp, hbs.other⟩

/-- Settles O55, from what a step does to ROW and PIX. -/
theorem pixelsWrittenRowByRow : Obligations.PixelsWrittenRowByRow := fun _ _ hi hb h hnf =>
  (coreStep_effects hi hb h hnf).rows

/-! ## What the host may do with the memories -/

theorem hostMove_writeIn {s : State} {a : Nat} (hb : ¬ s.busy) (ha : a < s.par.inCap.toNat) (b : Byte) :
    hostMove (.writeIn a b) s = .next { s with inm := Memory.write s.inm a b } := by
  rw [hostMove, if_neg hb, if_pos ha]

theorem hostMove_writeIn_busy {s : State} (hb : s.busy) (a : Nat) (b : Byte) :
    hostMove (.writeIn a b) s = .refused (.hostMove (.writeIn a b)) := if_pos hb

theorem hostMove_readOut {s : State} {a : Nat} (hd : s.status = .done) (ha : a < s.outLen.toNat) :
    hostMove (.readOut a) s = .next { s with rdata := (Memory.read s.out a).setWidth 32 } := if_pos ⟨hd, ha⟩

theorem hostMove_readPix {s : State} {a : Nat} (hd : s.status = .done) (ha : a < s.pixLen.toNat) :
    hostMove (.readPix a) s = .next { s with rdata := (Memory.read s.pix a).setWidth 32 } := if_pos ⟨hd, ha⟩

theorem hostMove_readOut_refused {s : State} (hd : s.status ≠ .done) (a : Nat) :
    hostMove (.readOut a) s = .refused (.hostMove (.readOut a)) := if_neg fun h => hd h.1

theorem hostMove_readPix_refused {s : State} (hd : s.status ≠ .done) (a : Nat) :
    hostMove (.readPix a) s = .refused (.hostMove (.readPix a)) := if_neg fun h => hd h.1

/-- Settles O34, move by move. -/
theorem hostMemoryAccess : Obligations.HostMemoryAccess := by
  intro s a b hwf
  have hwiden : ∀ v : Byte, (v.setWidth 32).toNat = v.toNat := fun v => BitVec.toNat_setWidth_of_le (by decide)
  refine ⟨fun hb ha => ⟨_, hostMove_writeIn hb ha b, ?same, fun a' hne => ?other⟩, fun hb => hostMove_writeIn_busy hb a b,
    fun hd ha => ⟨_, hostMove_readOut hd ha, hwiden _⟩, fun hd ha => ⟨_, hostMove_readPix hd ha, hwiden _⟩,
    fun hd => ⟨hostMove_readOut_refused hd a, hostMove_readPix_refused hd a⟩⟩
  case same => exact Memory.read_write_same hwf a b
  case other => exact Memory.read_write_other hwf b hne

end Sys2Proof.Machine
end

section
/-! SUPPORT. Encoding and decoding are inverse to each other (spec R91 to R107): for each format, which elements the encoder writes and as
which bits, that the decoder reads those bits back, and that it reads an element from no others. -/

namespace Sys2Proof

open Machine Claims

/-! ## One field -/

theorem bitsLsb_congr {n v w : Nat} (h : v % 2 ^ n = w % 2 ^ n) : bitsLsb n v = bitsLsb n w := by
  rw [← bitsLsb_mod n v, h, bitsLsb_mod]

theorem bitsLsb_ofNat (n v : Nat) : bitsLsb n (BitVec.ofNat n v).toNat = bitsLsb n v := by
  rw [BitVec.toNat_ofNat, bitsLsb_mod]

/-- GETBITS reads back a field of `n` bits, whatever number it was written from (R131). -/
theorem get_field {n : Nat} (hn : n ≤ 24) (v pos : Nat) (bs : List Bool) :
    bitStringSource.get n { pos := pos, bits := bitsLsb n v ++ bs } = .ok (v % 2 ^ n, { pos := pos + n, bits := bs }) := by
  rw [← bitsLsb_mod]
  exact bitString_get_append hn (Nat.mod_lt _ (by positivity)) bs

theorem get_bitVec {n : Nat} (hn : n ≤ 24) (v : BitVec n) (pos : Nat) (bs : List Bool) :
    bitStringSource.get n { pos := pos, bits := bitsLsb n v.toNat ++ bs } = .ok (v.toNat, { pos := pos + n, bits := bs }) :=
  bitString_get_append hn v.isLt bs

/-- The one bit of BFINAL (R93). -/
theorem get_bit (b : Bool) (pos : Nat) (bs : List Bool) :
    bitStringSource.get 1 { pos := pos, bits := b :: bs } = .ok (b.toNat, { pos := pos + 1, bits := bs }) := by
  rw [bitString_get (by omega)]
  simp [natOfBits]

/-! ## What the encoder writes, format by format -/

theorem encode_blkInstr (pos : Nat) (f : Bool) (ty : BitVec 2) :
    encode .bh pos (blkInstr f ty) = some (f :: bitsLsb 2 ty.toNat) := by
  have h : ty = 0 ∨ ty = 1 ∨ ty = 2 ∨ ty = 3 := by revert ty; decide
  rcases h with rfl | rfl | rfl | rfl <;> rfl

theorem encode_filterInstr (pos : Nat) (b : Byte) : encode .ft pos (filterInstr b) = some (bitsLsb 8 b.toNat) := by
  unfold filterInstr
  split <;> simp_all [encode]

theorem encode_zh_some {pos : Nat} {i : Instr} {bits : List Bool} (h : encode .zh pos i = some bits) :
    ∃ cmf flg : Byte, i = .zhdr cmf flg ∧ bits = bitsLsb 8 cmf.toNat ++ bitsLsb 8 flg.toNat := by
  simp only [encode] at h
  split at h <;> cases h
  exact ⟨_, _, rfl, rfl⟩

theorem encode_bh_some {pos : Nat} {i : Instr} {bits : List Bool} (h : encode .bh pos i = some bits) :
    ∃ f ty, i = blkInstr f ty ∧ bits = f :: bitsLsb 2 ty.toNat := by
  simp only [encode] at h
  split at h <;> cases h
  · exact ⟨_, 0, rfl, rfl⟩
  · exact ⟨_, 1, rfl, rfl⟩
  · exact ⟨_, 2, rfl, rfl⟩
  · exact ⟨_, 3, rfl, rfl⟩

theorem encode_st_some {pos : Nat} {i : Instr} {bits : List Bool} (h : encode .st pos i = some bits) :
    ∃ len nlen : BitVec 16, i = .storedbody len nlen ∧
      bits = List.replicate (padding pos) false ++ bitsLsb 16 len.toNat ++ bitsLsb 16 nlen.toNat := by
  simp only [encode] at h
  split at h <;> cases h
  exact ⟨_, _, rfl, rfl⟩

theorem encode_dh_some {pos : Nat} {i : Instr} {bits : List Bool} (h : encode .dh pos i = some bits) :
    ∃ (hlit5 hdist5 : BitVec 5) (hclen4 : BitVec 4) (ls : List (BitVec 3)), i = .dynhdr hlit5 hdist5 hclen4 ls ∧
      bits = bitsLsb 5 hlit5.toNat ++ bitsLsb 5 hdist5.toNat ++ bitsLsb 4 hclen4.toNat ++ lengthsBits ls := by
  simp only [encode] at h
  split at h <;> cases h
  exact ⟨_, _, _, _, rfl, rfl⟩

theorem encode_tr_some {pos : Nat} {i : Instr} {bits : List Bool} (h : encode .tr pos i = some bits) :
    ∃ t : Word, i = .ztrl t ∧ bits = List.replicate (padding pos) false ++ bitsLsb 8 (t.toNat / 2 ^ 24) ++
      bitsLsb 8 (t.toNat / 2 ^ 16) ++ bitsLsb 8 (t.toNat / 2 ^ 8) ++ bitsLsb 8 t.toNat := by
  simp only [encode] at h
  split at h <;> cases h
  exact ⟨_, rfl, rfl⟩

/-- FT.RSVD stands for the bytes 5..255 only (R328). -/
theorem filterInstr_reserved {b : Byte} (h : (Instr.ftRsvd b).wf = true) : filterInstr b = .ftRsvd b := by
  simp only [Instr.wf, decide_eq_true_eq] at h
  unfold filterInstr
  split
  case h_6 => rfl
  all_goals omega

theorem encode_ft_some {pos : Nat} {i : Instr} {bits : List Bool} (hi : i.wf = true) (h : encode .ft pos i = some bits) :
    ∃ b : Byte, i = filterInstr b ∧ bits = bitsLsb 8 b.toNat := by
  simp only [encode] at h
  split at h <;> cases h
  · exact ⟨0, rfl, rfl⟩
  · exact ⟨1, rfl, rfl⟩
  · exact ⟨2, rfl, rfl⟩
  · exact ⟨3, rfl, rfl⟩
  · exact ⟨4, rfl, rfl⟩
  · exact ⟨_, (filterInstr_reserved hi).symm, rfl⟩

/-- `bits` are a code of `T` and a raw field, for a symbol that `mk` makes the element `i` of (R97, R98, R100). -/
def CodedAs (T : HuffTable) (extra : Nat → Nat) (mk : Nat → Nat → Option Instr) (i : Instr) (bits : List Bool) : Prop :=
  ∃ s e code, codeBits T s = some code ∧ mk s e = some i ∧ e < 2 ^ extra s ∧ bits = code ++ bitsLsb (extra s) e

theorem clExtraRead_le_clExtra (p : Bool) (s : Nat) : clExtraRead p s ≤ clExtra s := by
  unfold clExtraRead
  split <;> omega

theorem clExtraRead_of_prev {p : Bool} {s : Nat} (h : ¬ (s = 16 ∧ p = false)) : clExtraRead p s = clExtra s := if_neg h

theorem clInstr_shape_read {p : Bool} {s e : Nat} {i : Instr} (h : clInstr s e = some i) (he : e < 2 ^ clExtraRead p s) :
    i.shape = .cl s (clExtra s) e :=
  clInstr_shape h (Nat.lt_of_lt_of_le he (Nat.pow_le_pow_right (by omega) (clExtraRead_le_clExtra p s)))

/-- The code-length symbols; CL16 without a previous length is written without its raw field, which must be 0 (R190). -/
theorem encode_cl_iff {T : HuffTable} {p : Bool} {pos : Nat} {i : Instr} {bits : List Bool} :
    encode (.cl T p) pos i = some bits ↔ CodedAs T (clExtraRead p) clInstr i bits := by
  constructor
  · intro h
    simp only [encode] at h
    split at h
    · rename_i s n e hshape
      obtain ⟨hmk, rfl, he, -⟩ := shape_cl hshape
      split at h
      · cases h
      · rename_i code hcode
        by_cases hprev : s = 16 ∧ p = false
        · have hx : clExtraRead p s = 0 := if_pos hprev
          rw [if_pos hprev] at h
          split at h
          · cases h
            exact ⟨s, e, _, hcode, hmk, by rw [hx]; omega, by rw [hx]; simp [bitsLsb]⟩
          · cases h
        · have hx := clExtraRead_of_prev hprev
          rw [if_neg hprev] at h
          cases h
          exact ⟨s, e, code, hcode, hmk, by rwa [hx], by rw [hx]⟩
    · cases h
  · rintro ⟨s, e, code, hcode, hmk, he, rfl⟩
    simp only [encode, clInstr_shape_read hmk he, hcode]
    by_cases hprev : s = 16 ∧ p = false
    · have hx : clExtraRead p s = 0 := if_pos hprev
      rw [hx] at he ⊢
      rw [if_pos hprev, if_pos (by omega)]
      simp [bitsLsb]
    · rw [if_neg hprev, clExtraRead_of_prev hprev]

theorem encode_ll_iff {T : HuffTable} {pos : Nat} {i : Instr} {bits : List Bool} :
    encode (.ll T) pos i = some bits ↔ CodedAs T llExtra llInstr i bits := by
  constructor
  · intro h
    simp only [encode] at h
    split at h
    · rename_i s n e hshape
      obtain ⟨hmk, rfl, he, -⟩ := shape_ll hshape
      split at h <;> cases h
      exact ⟨s, e, _, ‹_›, hmk, he, rfl⟩
    · cases h
  · rintro ⟨s, e, code, hcode, hmk, he, rfl⟩
    simp only [encode, llInstr_shape hmk he, hcode]

theorem encode_d_iff {T : HuffTable} {pos : Nat} {i : Instr} {bits : List Bool} :
    encode (.d T) pos i = some bits ↔ CodedAs T dExtra dInstr i bits := by
  constructor
  · intro h
    simp only [encode] at h
    split at h
    · rename_i s n e hshape
      obtain ⟨hmk, rfl, he, -⟩ := shape_d hshape
      split at h <;> cases h
      exact ⟨s, e, _, ‹_›, hmk, he, rfl⟩
    · cases h
  · rintro ⟨s, e, code, hcode, hmk, he, rfl⟩
    simp only [encode, dInstr_shape hmk he, hcode]

/-! ## The decoder reads back what the encoder writes -/

/-- At position `pos`, `bits` followed by anything decode to `i`, and nothing beyond them is read. -/
def ReadsBack (c : Ctx) (pos : Nat) (i : Instr) (bits : List Bool) : Prop :=
  ∀ tail, ∃ regs, decode bitStringSource c { pos := pos, bits := bits ++ tail } =
    .ok { instr := i, regs := regs, rest := { pos := pos + bits.length, bits := tail } }

theorem readsBack_zh (pos : Nat) (cmf flg : Byte) :
    ReadsBack .zh pos (.zhdr cmf flg) (bitsLsb 8 cmf.toNat ++ bitsLsb 8 flg.toNat) := by
  intro tail
  refine ⟨none, ?_⟩
  simp [decode, get_bitVec, bind, Except.bind, Nat.add_assoc]

theorem readsBack_bh (pos : Nat) (f : Bool) (ty : BitVec 2) : ReadsBack .bh pos (blkInstr f ty) (f :: bitsLsb 2 ty.toNat) := by
  intro tail
  refine ⟨none, ?_⟩
  have hf : (f.toNat == 1) = f := by cases f <;> rfl
  simp [decode, get_bit, get_bitVec, bind, Except.bind, Nat.add_assoc, hf]

theorem readsBack_st (pos : Nat) (len nlen : BitVec 16) : ReadsBack .st pos (.storedbody len nlen)
    (List.replicate (padding pos) false ++ bitsLsb 16 len.toNat ++ bitsLsb 16 nlen.toNat) := by
  intro tail
  refine ⟨none, ?_⟩
  simp [decode, align_pad, get_bitVec, bind, Except.bind, Nat.add_assoc]

theorem readsBack_dh (pos : Nat) (hlit5 hdist5 : BitVec 5) (hclen4 : BitVec 4) {ls : List (BitVec 3)}
    (hls : ls.length = hclen4.toNat + 4) : ReadsBack .dh pos (.dynhdr hlit5 hdist5 hclen4 ls)
      (bitsLsb 5 hlit5.toNat ++ bitsLsb 5 hdist5.toNat ++ bitsLsb 4 hclen4.toNat ++ lengthsBits ls) := by
  intro tail
  refine ⟨none, ?_⟩
  simp [decode, get_bitVec, bind, Except.bind, ← hls, getLengths_bits, Nat.add_assoc]
  omega

/-- Four bytes, the most significant first, are the word (R102). -/
theorem ofNat_bytes (t : Word) :
    BitVec.ofNat 32 (((t.toNat / 2 ^ 24 % 2 ^ 8 * 256 + t.toNat / 2 ^ 16 % 2 ^ 8) * 256 + t.toNat / 2 ^ 8 % 2 ^ 8) * 256 +
      t.toNat % 2 ^ 8) = t := by
  refine BitVec.eq_of_toNat_eq ?_
  have := t.isLt
  rw [BitVec.toNat_ofNat]
  omega

theorem readsBack_tr (pos : Nat) (t : Word) : ReadsBack .tr pos (.ztrl t) (List.replicate (padding pos) false ++
    bitsLsb 8 (t.toNat / 2 ^ 24) ++ bitsLsb 8 (t.toNat / 2 ^ 16) ++ bitsLsb 8 (t.toNat / 2 ^ 8) ++ bitsLsb 8 t.toNat) := by
  intro tail
  refine ⟨none, ?_⟩
  simp only [decode, List.append_assoc, align_pad, get_field (show 8 ≤ 24 by omega), bind, Except.bind, ofNat_bytes]
  simp [Nat.add_assoc]

theorem readsBack_ft (pos : Nat) (b : Byte) : ReadsBack .ft pos (filterInstr b) (bitsLsb 8 b.toNat) := by
  intro tail
  refine ⟨none, ?_⟩
  simp [decode, get_bitVec, bind, Except.bind]

/-- A coded element reads back, its symbol being one of the alphabet (R97, R98, R100, R157(2)). -/
theorem decodeCoded_codedAs {n : Nat} {T : HuffTable} (hT : HuffTableWf n T) (hn : n ≤ 288) {extra : Nat → Nat}
    (hextra : ∀ s, extra s ≤ 24) {mk : Nat → Nat → Option Instr}
    (hmk : ∀ {s e i}, mk s e = some i → e < 2 ^ extra s → s < 512)
    {i : Instr} {bits : List Bool} (h : CodedAs T extra mk i bits) (pos : Nat) (tail : List Bool) :
    ∃ regs, decodeCoded bitStringSource T extra mk { pos := pos, bits := bits ++ tail } =
      .ok { instr := i, regs := regs, rest := { pos := pos + bits.length, bits := tail } } := by
  obtain ⟨s, e, code, hcode, hi, he, rfl⟩ := h
  exact decodeCoded_code hT hn (hmk hi he) hcode hi (hextra s) he pos tail

theorem readsBack_cl {T : HuffTable} (hT : HuffTableWf 19 T) {p : Bool} (pos : Nat) {i : Instr} {bits : List Bool}
    (h : CodedAs T (clExtraRead p) clInstr i bits) : ReadsBack (.cl T p) pos i bits :=
  decodeCoded_codedAs hT (by omega) (fun s => (clExtraRead_le p s).trans (by omega))
    (fun hi he => (shape_cl (clInstr_shape_read hi he)).2.2.2.trans (by omega)) h pos

theorem readsBack_ll {T : HuffTable} (hT : HuffTableWf 288 T) (pos : Nat) {i : Instr} {bits : List Bool}
    (h : CodedAs T llExtra llInstr i bits) : ReadsBack (.ll T) pos i bits :=
  decodeCoded_codedAs hT (by omega) (fun s => (llExtra_le s).trans (by omega))
    (fun hi he => (shape_ll (llInstr_shape hi he)).2.2.2.trans (by omega)) h pos

theorem readsBack_d {T : HuffTable} (hT : HuffTableWf 32 T) (pos : Nat) {i : Instr} {bits : List Bool}
    (h : CodedAs T dExtra dInstr i bits) : ReadsBack (.d T) pos i bits :=
  decodeCoded_codedAs hT (by omega) (fun s => (dExtra_le s).trans (by omega))
    (fun hi he => (shape_d (dInstr_shape hi he)).2.2.2.trans (by omega)) h pos

/-- What the encoder writes reads back, in every context. -/
theorem encode_readsBack {c : Ctx} {pos : Nat} {i : Instr} {bits : List Bool} (hc : CtxWf c) (hi : i.wf = true)
    (h : encode c pos i = some bits) : ReadsBack c pos i bits := by
  cases c with
  | zh =>
    obtain ⟨cmf, flg, rfl, rfl⟩ := encode_zh_some h
    exact readsBack_zh pos cmf flg
  | bh =>
    obtain ⟨f, ty, rfl, rfl⟩ := encode_bh_some h
    exact readsBack_bh pos f ty
  | st =>
    obtain ⟨len, nlen, rfl, rfl⟩ := encode_st_some h
    exact readsBack_st pos len nlen
  | dh =>
    obtain ⟨hlit5, hdist5, hclen4, ls, rfl, rfl⟩ := encode_dh_some h
    exact readsBack_dh pos hlit5 hdist5 hclen4 (by simpa [Instr.wf] using hi)
  | cl T p => exact readsBack_cl hc pos (encode_cl_iff.1 h)
  | ll T => exact readsBack_ll hc pos (encode_ll_iff.1 h)
  | d T => exact readsBack_d hc pos (encode_d_iff.1 h)
  | tr =>
    obtain ⟨t, rfl, rfl⟩ := encode_tr_some h
    exact readsBack_tr pos t
  | ft =>
    obtain ⟨b, rfl, rfl⟩ := encode_ft_some hi h
    exact readsBack_ft pos b

/-- Settles O3, from the formats' lemmas. -/
theorem decodeInvertsEncode : Obligations.DecodeInvertsEncode :=
  fun _ _ _ _ tail hc hi h => encode_readsBack hc hi h tail

/-! ## The decoder reads nothing else -/

/-- What was read as `f` in context `c` is what the encoder writes for it, up to the value of padding bits. -/
def WritesBack (c : Ctx) (x : BitString) (f : Fetched BitString) : Prop :=
  ∃ bits, encode c x.pos f.instr = some bits ∧ f.rest.pos = x.pos + bits.length ∧
    x.bits.drop (skipped c x.pos) = bits.drop (skipped c x.pos) ++ f.rest.bits

/-- The case of a context that skips no padding. -/
theorem WritesBack.of_encode {c : Ctx} {x : BitString} {f : Fetched BitString} {bits : List Bool} (hskip : skipped c x.pos = 0)
    (h : encode c x.pos f.instr = some bits) (hbits : x.bits = bits ++ f.rest.bits) (hpos : f.rest.pos = x.pos + bits.length) :
    WritesBack c x f := ⟨bits, h, hpos, by simp [hskip, hbits]⟩

/-- The case of a context that begins with ALIGN. -/
theorem WritesBack.of_aligned {c : Ctx} {x : BitString} {f : Fetched BitString} {bits : List Bool}
    (hskip : skipped c x.pos = padding x.pos)
    (h : encode c x.pos f.instr = some (List.replicate (padding x.pos) false ++ bits))
    (hbits : (bitStringSource.align x).bits = bits ++ f.rest.bits)
    (hpos : f.rest.pos = (bitStringSource.align x).pos + bits.length) : WritesBack c x f := by
  rw [bitString_align] at hbits hpos
  exact ⟨_, h, by simpa [Nat.add_assoc] using hpos, by simpa [hskip] using hbits⟩

theorem coded_codedAs {n : Nat} {T : HuffTable} (hT : HuffTableWf n T) (hn : n ≤ 288) {extra : Nat → Nat}
    {mk : Nat → Nat → Option Instr} {x : BitString} {f : Fetched BitString}
    (h : decodeCoded bitStringSource T extra mk x = .ok f) :
    ∃ bits, CodedAs T extra mk f.instr bits ∧ x.bits = bits ++ f.rest.bits ∧ f.rest.pos = x.pos + bits.length := by
  obtain ⟨s, e, code, hcode, hmk, he, hbits, hpos⟩ := coded_bits hT hn h
  exact ⟨_, ⟨s, e, code, hcode, hmk, he, rfl⟩, hbits, by rw [hpos]; simp [Nat.add_assoc]⟩

theorem writesBack_zh {x : BitString} {f : Fetched BitString} (h : decode bitStringSource .zh x = .ok f) : WritesBack .zh x f := by
  obtain ⟨⟨cmf, y⟩, hcmf, h⟩ := Except.bind_ok h
  obtain ⟨⟨flg, z⟩, hflg, h⟩ := Except.bind_ok h
  cases h
  obtain ⟨hb, hp, -⟩ := get_bits hcmf
  obtain ⟨hb', hp', -⟩ := get_bits hflg
  refine .of_encode rfl rfl ?_ ?_
  · simp only [hb, hb', bitsLsb_ofNat, List.append_assoc]
  · simp [hp, hp', Nat.add_assoc]

theorem writesBack_bh {x : BitString} {f : Fetched BitString} (h : decode bitStringSource .bh x = .ok f) : WritesBack .bh x f := by
  obtain ⟨⟨b, y⟩, hbit, h⟩ := Except.bind_ok h
  obtain ⟨⟨ty, z⟩, hty, h⟩ := Except.bind_ok h
  cases h
  obtain ⟨hb, hp, hlt⟩ := get_bits hbit
  obtain ⟨hb', hp', -⟩ := get_bits hty
  have hone : bitsLsb 1 b = [b == 1] := by
    obtain rfl | rfl : b = 0 ∨ b = 1 := by omega
    all_goals rfl
  refine .of_encode rfl (encode_blkInstr ..) ?_ ?_
  · simp only [hb, hb', hone, bitsLsb_ofNat, List.cons_append, List.nil_append]
  · simp [hp, hp', Nat.add_assoc]

theorem writesBack_st {x : BitString} {f : Fetched BitString} (h : decode bitStringSource .st x = .ok f) : WritesBack .st x f := by
  obtain ⟨⟨len, y⟩, hlen, h⟩ := Except.bind_ok h
  obtain ⟨⟨nlen, z⟩, hnlen, h⟩ := Except.bind_ok h
  cases h
  obtain ⟨hb, hp, -⟩ := get_bits hlen
  obtain ⟨hb', hp', -⟩ := get_bits hnlen
  refine .of_aligned rfl (congrArg some (List.append_assoc ..)) ?_ ?_
  · simp only [hb, hb', bitsLsb_ofNat, List.append_assoc]
  · simp [hp, hp', Nat.add_assoc]

theorem writesBack_dh {x : BitString} {f : Fetched BitString} (h : decode bitStringSource .dh x = .ok f) : WritesBack .dh x f := by
  obtain ⟨⟨hlit, x1⟩, hg1, h⟩ := Except.bind_ok h
  obtain ⟨⟨hdist, x2⟩, hg2, h⟩ := Except.bind_ok h
  obtain ⟨⟨hclen, x3⟩, hg3, h⟩ := Except.bind_ok h
  obtain ⟨⟨ls, x4⟩, hg4, h⟩ := Except.bind_ok h
  cases h
  obtain ⟨hb1, hp1, -⟩ := get_bits hg1
  obtain ⟨hb2, hp2, -⟩ := get_bits hg2
  obtain ⟨hb3, hp3, -⟩ := get_bits hg3
  obtain ⟨hb4, hp4⟩ := lengths_bits _ _ _ _ hg4
  refine .of_encode rfl rfl ?_ ?_
  · simp only [hb1, hb2, hb3, hb4, bitsLsb_ofNat, List.append_assoc]
  · simp [hp1, hp2, hp3, hp4]
    omega

/-- The bytes of a word put together from four bytes, most significant first (R102). -/
theorem wordBytes {t3 t2 t1 t0 : Nat} (h3 : t3 < 2 ^ 8) (h2 : t2 < 2 ^ 8) (h1 : t1 < 2 ^ 8) (h0 : t0 < 2 ^ 8) :
    let t := (BitVec.ofNat 32 (((t3 * 256 + t2) * 256 + t1) * 256 + t0)).toNat
    bitsLsb 8 (t / 2 ^ 24) = bitsLsb 8 t3 ∧ bitsLsb 8 (t / 2 ^ 16) = bitsLsb 8 t2 ∧ bitsLsb 8 (t / 2 ^ 8) = bitsLsb 8 t1 ∧
      bitsLsb 8 t = bitsLsb 8 t0 := by
  intro t
  have ht : t = ((t3 * 256 + t2) * 256 + t1) * 256 + t0 := (BitVec.toNat_ofNat ..).trans (Nat.mod_eq_of_lt (by omega))
  refine ⟨bitsLsb_congr ?_, bitsLsb_congr ?_, bitsLsb_congr ?_, bitsLsb_congr ?_⟩ <;> omega

theorem writesBack_tr {x : BitString} {f : Fetched BitString} (h : decode bitStringSource .tr x = .ok f) : WritesBack .tr x f := by
  obtain ⟨⟨t3, x1⟩, hg1, h⟩ := Except.bind_ok h
  obtain ⟨⟨t2, x2⟩, hg2, h⟩ := Except.bind_ok h
  obtain ⟨⟨t1, x3⟩, hg3, h⟩ := Except.bind_ok h
  obtain ⟨⟨t0, x4⟩, hg4, h⟩ := Except.bind_ok h
  cases h
  obtain ⟨hb1, hp1, hlt1⟩ := get_bits hg1
  obtain ⟨hb2, hp2, hlt2⟩ := get_bits hg2
  obtain ⟨hb3, hp3, hlt3⟩ := get_bits hg3
  obtain ⟨hb4, hp4, hlt4⟩ := get_bits hg4
  obtain ⟨hw3, hw2, hw1, hw0⟩ := wordBytes hlt1 hlt2 hlt3 hlt4
  refine .of_aligned (bits := bitsLsb 8 t3 ++ bitsLsb 8 t2 ++ bitsLsb 8 t1 ++ bitsLsb 8 t0) rfl ?_ ?_ ?_
  · simp only [encode, hw3, hw2, hw1, hw0, List.append_assoc]
  · simp only [hb1, hb2, hb3, hb4, List.append_assoc]
  · simp [hp1, hp2, hp3, hp4, Nat.add_assoc]

theorem writesBack_ft {x : BitString} {f : Fetched BitString} (h : decode bitStringSource .ft x = .ok f) : WritesBack .ft x f := by
  obtain ⟨⟨b, y⟩, hbyte, h⟩ := Except.bind_ok h
  cases h
  obtain ⟨hb, hp, -⟩ := get_bits hbyte
  refine .of_encode rfl (encode_filterInstr ..) ?_ ?_
  · simp only [hb, bitsLsb_ofNat]
  · simp [hp]

/-- Whatever the decoder reads is what the encoder writes, in every context. -/
theorem decode_writesBack {c : Ctx} (hc : CtxWf c) {x : BitString} {f : Fetched BitString}
    (h : decode bitStringSource c x = .ok f) : WritesBack c x f := by
  cases c with
  | zh => exact writesBack_zh h
  | bh => exact writesBack_bh h
  | st => exact writesBack_st h
  | dh => exact writesBack_dh h
  | cl T p =>
    obtain ⟨bits, hcoded, hbits, hpos⟩ := coded_codedAs hc (by omega) h
    exact .of_encode rfl (encode_cl_iff.2 hcoded) hbits hpos
  | ll T =>
    obtain ⟨bits, hcoded, hbits, hpos⟩ := coded_codedAs hc (by omega) h
    exact .of_encode rfl (encode_ll_iff.2 hcoded) hbits hpos
  | d T =>
    obtain ⟨bits, hcoded, hbits, hpos⟩ := coded_codedAs hc (by omega) h
    exact .of_encode rfl (encode_d_iff.2 hcoded) hbits hpos
  | tr => exact writesBack_tr h
  | ft => exact writesBack_ft h

/-- Settles O4, from the formats' lemmas. -/
theorem encodeInvertsDecode : Obligations.EncodeInvertsDecode := fun _ _ _ _ hc h => decode_writesBack hc h

/-! ## Decoded elements are well-formed -/

theorem blkInstr_wf (f : Bool) (ty : BitVec 2) : (blkInstr f ty).wf = true := by
  unfold blkInstr
  split <;> rfl

/-- Settles O5: the operands' widths are their types'; a dynamic header carries as many lengths as it read, and a filter-type byte below
5 is a filter. -/
theorem decodedIsWellFormed : Obligations.DecodedIsWellFormed := by
  intro σ S c x f h
  cases c with
  | zh =>
    obtain ⟨_, -, h⟩ := Except.bind_ok h
    obtain ⟨_, -, h⟩ := Except.bind_ok h
    cases h
    rfl
  | bh =>
    obtain ⟨_, -, h⟩ := Except.bind_ok h
    obtain ⟨_, -, h⟩ := Except.bind_ok h
    cases h
    exact blkInstr_wf ..
  | st =>
    obtain ⟨_, -, h⟩ := Except.bind_ok h
    obtain ⟨_, -, h⟩ := Except.bind_ok h
    cases h
    rfl
  | dh =>
    obtain ⟨_, -, h⟩ := Except.bind_ok h
    obtain ⟨_, -, h⟩ := Except.bind_ok h
    obtain ⟨_, -, h⟩ := Except.bind_ok h
    obtain ⟨_, hlengths, h⟩ := Except.bind_ok h
    cases h
    exact beq_iff_eq.2 (getLengths_length S _ _ _ _ hlengths)
  | cl T p => exact decodeCoded_wf (mk := clInstr) S (fun _ _ _ => clInstr_wf) h
  | ll T => exact decodeCoded_wf (mk := llInstr) S (fun _ _ _ => llInstr_wf) h
  | d T => exact decodeCoded_wf (mk := dInstr) S (fun _ _ _ => dInstr_wf) h
  | tr =>
    obtain ⟨_, -, h⟩ := Except.bind_ok h
    obtain ⟨_, -, h⟩ := Except.bind_ok h
    obtain ⟨_, -, h⟩ := Except.bind_ok h
    obtain ⟨_, -, h⟩ := Except.bind_ok h
    cases h
    rfl
  | ft =>
    obtain ⟨_, -, h⟩ := Except.bind_ok h
    cases h
    exact filterInstr_wf _

end Sys2Proof
end

section
/-! SUPPORT. HDECODE on an accepted table, and the codes of the fixed tables with other words the spec writes out (spec R104, R105,
R156, R181). -/

namespace Sys2Proof

open Machine Claims

/-- Settles O10: an accepted table is complete, so its codes decode to their symbols and only the end of the stream stops HDECODE. -/
theorem hdecodeReadsOneCode : Obligations.HdecodeReadsOneCode := by
  intro lens T hlen hbuild
  obtain ⟨hT, -, -, -⟩ := build_ok hlen hbuild
  refine ⟨fun L k pos tail h1 h2 hk => ?_, fun x e he => ?_⟩
  · obtain ⟨r, hr, hm⟩ := hdecode_code hT hlen h1 h2 hk pos tail
    exact ⟨r, hr, hm.sym, hm.code, hm.first, hm.index, hm.hlen⟩
  · rcases hdecode_complete hT hlen x with ⟨hshort, hx⟩ | ⟨r, y, L, k, hx, -, -, -⟩
    · rw [hx] at he
      cases he
      exact ⟨rfl, hshort⟩
    · rw [hx] at he
      cases he

/-! ## The fixed tables (R105, R181) -/

/-- The code of the symbol that stands at place `j` of SYMBOL, as the `k`-th of length L (R104, R151). -/
theorem codeBits_at {n : Nat} {T : HuffTable} (hT : HuffTableWf n T) {L k s j code : Nat} (h1 : 1 ≤ L) (h2 : L ≤ 15)
    (hk : k < T.countAt L) (hj : indexFirst T L + k = j) (hcode : codeFirst T L + k = code)
    (hs : T.symbol[j]? = some (BitVec.ofNat 9 s)) : codeBits T s = some (bitsMsb L code) := by
  subst hj hcode
  exact codeBits_of_symbol hT h1 h2 hk hs

theorem getElem?_run (before after : List Nat) (a : Nat) {n k : Nat} (hk : k < n) :
    (before ++ List.range' a n ++ after)[before.length + k]? = some (a + k) := by
  simp [List.getElem?_append, hk]

/-- SYMBOL of FLLT by place (R181): 256..279, then 0..143, then 280..287, then 144..255. -/
theorem fllt_symbol :
    (∀ k, k < 24 → fllt.symbol[k]? = some (BitVec.ofNat 9 (256 + k))) ∧
    (∀ k, k < 144 → fllt.symbol[24 + k]? = some (BitVec.ofNat 9 k)) ∧
    (∀ k, k < 8 → fllt.symbol[168 + k]? = some (BitVec.ofNat 9 (280 + k))) ∧
    ∀ k, k < 112 → fllt.symbol[176 + k]? = some (BitVec.ofNat 9 (144 + k)) := by
  have hmap : ∀ {j s : Nat}, (List.range' 256 24 ++ List.range' 0 144 ++ List.range' 280 8 ++ List.range' 144 112)[j]? = some s →
      fllt.symbol[j]? = some (BitVec.ofNat 9 s) := fun h => by rw [fllt, List.getElem?_map, h, Option.map_some]
  refine ⟨fun k hk => hmap ?_, fun k hk => hmap ?_, fun k hk => hmap ?_, fun k hk => hmap ?_⟩
  · simpa using getElem?_run [] (List.range' 0 144 ++ List.range' 280 8 ++ List.range' 144 112) 256 hk
  · simpa using getElem?_run (List.range' 256 24) (List.range' 280 8 ++ List.range' 144 112) 0 hk
  · simpa using getElem?_run (List.range' 256 24 ++ List.range' 0 144) (List.range' 144 112) 280 hk
  · simpa using getElem?_run (List.range' 256 24 ++ List.range' 0 144 ++ List.range' 280 8) [] 144 hk

/-- The codes of FLLT (R105). -/
theorem codeBits_fllt {s : Nat} (hs : s < 288) : codeBits fllt s = some
    (if s < 144 then bitsMsb 8 (0x30 + s) else if s < 256 then bitsMsb 9 (0x190 + (s - 144))
     else if s < 280 then bitsMsb 7 (s - 256) else bitsMsb 8 (0xC0 + (s - 280))) := by
  obtain ⟨hsym7, hsym8, hsym8', hsym9⟩ := fllt_symbol
  have h7 : fllt.countAt 7 = 24 ∧ indexFirst fllt 7 = 0 ∧ codeFirst fllt 7 = 0 := ⟨rfl, rfl, rfl⟩
  have h8 : fllt.countAt 8 = 152 ∧ indexFirst fllt 8 = 24 ∧ codeFirst fllt 8 = 0x30 := ⟨rfl, rfl, rfl⟩
  have h9 : fllt.countAt 9 = 112 ∧ indexFirst fllt 9 = 176 ∧ codeFirst fllt 9 = 0x190 := ⟨rfl, rfl, rfl⟩
  split_ifs with h144 h256 h280
  · exact codeBits_at fllt_wf (L := 8) (k := s) (by omega) (by omega) (by omega) (by omega) (by omega) (hsym8 s h144)
  · obtain ⟨k, rfl⟩ := Nat.exists_eq_add_of_le (Nat.le_of_not_lt h144)
    exact codeBits_at fllt_wf (L := 9) (k := k) (by omega) (by omega) (by omega) (by omega) (by omega) (hsym9 k (by omega))
  · obtain ⟨k, rfl⟩ := Nat.exists_eq_add_of_le (Nat.le_of_not_lt h256)
    exact codeBits_at fllt_wf (L := 7) (k := k) (by omega) (by omega) (by omega) (by omega) (by omega) (hsym7 k (by omega))
  · obtain ⟨k, rfl⟩ := Nat.exists_eq_add_of_le (Nat.le_of_not_lt h280)
    exact codeBits_at fllt_wf (L := 8) (k := 144 + k) (by omega) (by omega) (by omega) (by omega) (by omega)
      (hsym8' k (by omega))

/-- The codes of FDT (R105). -/
theorem codeBits_fdt {d : Nat} (hd : d < 32) : codeBits fdt d = some (bitsMsb 5 d) := by
  have h5 : fdt.countAt 5 = 32 ∧ indexFirst fdt 5 = 0 ∧ codeFirst fdt 5 = 0 := ⟨rfl, rfl, rfl⟩
  exact codeBits_at fdt_wf (L := 5) (k := d) (j := d) (by omega) (by omega) (by omega) (by omega) (by omega) (by simp [fdt, hd])

/-- Settles O2: the two Kraft sums by evaluation, the codes from the symbols' places in the constant tables. -/
theorem fixedCodesAsListed : Obligations.FixedCodesAsListed :=
  ⟨by decide +kernel, by decide +kernel, fun _ => codeBits_fllt, fun _ => codeBits_fdt⟩

/-- Settles O1, word by word, by evaluating the decoder. -/
theorem specWordsDecode : Obligations.SpecWordsDecode := by
  unfold Obligations.SpecWordsDecode
  decide +kernel

end Sys2Proof
end

section
/-! SUPPORT. The length and the distance a decoded symbol stands for (spec R99, R101): its base plus the raw field, which fits its width. -/

namespace Sys2Proof

open Machine Claims

theorem llInstr_lengthOf {s e : Nat} (h1 : 257 ≤ s) (h2 : s ≤ 285) (he : e < 2 ^ llExtra s) :
    ∃ i, llInstr s e = some i ∧ lengthOf i = some (lbase.getD (s - 257) 0 + e) := by
  interval_cases s
  all_goals
    refine ⟨_, rfl, congrArg some ?_⟩
    simp [llExtra, lext] at he
    simp [lbase]
    omega

theorem dInstr_distanceOf {d e : Nat} (hd : d ≤ 29) (he : e < 2 ^ dExtra d) :
    ∃ i, dInstr d e = some i ∧ distanceOf i = some (dbase.getD d 0 + e) := by
  interval_cases d
  all_goals
    refine ⟨_, rfl, congrArg some ?_⟩
    simp [dExtra, dext] at he
    simp [dbase]
    omega

/-- Settles O18, symbol by symbol. -/
theorem lengthAndDistanceTables : Obligations.LengthAndDistanceTables :=
  ⟨fun _ _ => llInstr_lengthOf, fun _ _ => dInstr_distanceOf, fun _ h1 _ => if_pos h1, fun _ _ => rfl⟩

end Sys2Proof
end

section
/-! SUPPORT. The dynamic header (spec R95, R96, R183 to R185). -/

namespace Sys2Proof.Machine

open Claims

/-- CLLENS entry by entry: the length sent at the place of `k` in the transmission order, or what stood there (R184). -/
theorem cllensOf_getElem {k : Nat} (hk : k < 19) : ∀ {order : List Nat} {fields : List (BitVec 3)} {v : Vector (BitVec 3) 19},
    order.Nodup → fields.length ≤ order.length → (cllensOf order fields v)[k] = (fields[order.idxOf k]?).getD v[k] := by
  intro order
  induction order with
  | nil =>
    intro fields v _ hlen
    rw [List.length_eq_zero_iff.1 (Nat.le_zero.1 hlen)]
    rfl
  | cons a order ih =>
    intro fields v hnd hlen
    obtain ⟨ha, hnd⟩ := List.nodup_cons.1 hnd
    cases fields with
    | nil => rfl
    | cons l fields =>
      have hlen := Nat.le_of_succ_le_succ hlen
      rw [cllensOf, ih hnd hlen]
      by_cases hak : a = k
      · subst hak
        rw [List.idxOf_cons_self, List.idxOf_of_notMem ha, List.getElem?_eq_none hlen]
        simp
      · rw [List.idxOf_cons_ne _ hak, List.getElem?_cons_succ, Vector.getElem_setIfInBounds_ne hk hak]

/-- CLLENS as a dynamic header sets it (R96, R184). -/
theorem cllensOf_clOrder {fields : List (BitVec 3)} (h : fields.length ≤ 19) :
    (cllensOf clOrder fields (Vector.replicate 19 0)).toList.map BitVec.toNat = clLengths fields := by
  refine List.ext_getElem (by simp [clLengths]) fun k hk _ => ?_
  have hk : k < 19 := by simpa using hk
  simp only [List.getElem_map, Vector.getElem_toList, clLengths, List.getElem_range]
  rw [cllensOf_getElem hk (by decide) h, Vector.getElem_replicate]
  rfl

theorem hlitOf_toNat (hlit5 : BitVec 5) : (hlitOf hlit5).toNat = hlit5.toNat + 257 := by
  rw [hlitOf, BitVec.toNat_ofNat]
  omega

theorem hdistOf_toNat (hdist5 : BitVec 5) : (hdistOf hdist5).toNat = hdist5.toNat + 1 := by
  rw [hdistOf, BitVec.toNat_ofNat]
  omega

theorem hclenOf_toNat (hclen4 : BitVec 4) : (hclenOf hclen4).toNat = hclen4.toNat + 4 := by
  rw [hclenOf, BitVec.toNat_ofNat]
  omega

/-- DYNHDR where BUILD of the lengths it sends fails (R185). -/
theorem exec_dynhdr_error {hlit5 hdist5 : BitVec 5} {hclen4 : BitVec 4} {fields : List (BitVec 3)} {s : State} {e : Err}
    (hlen : fields.length ≤ 19) (h : build (clLengths fields) = .error e) :
    exec (.dynhdr hlit5 hdist5 hclen4 fields) s = .next (raiseFault e s) := by
  change finish s (dynHeader hlit5 hdist5 hclen4 fields s) = _
  simp only [dynHeader, dynhdrRegs, cllensOf_clOrder hlen, h, finish]

/-- DYNHDR where BUILD of the lengths it sends gives a table (R185). -/
theorem exec_dynhdr_ok {hlit5 hdist5 : BitVec 5} {hclen4 : BitVec 4} {fields : List (BitVec 3)} {s : State} {T : HuffTable}
    (hlen : fields.length ≤ 19) (h : build (clLengths fields) = .ok T) :
    exec (.dynhdr hlit5 hdist5 hclen4 fields) s = .next { dynhdrRegs hlit5 hdist5 hclen4 fields s with clt := T } := by
  change finish s (dynHeader hlit5 hdist5 hclen4 fields s) = _
  simp only [dynHeader, dynhdrRegs, cllensOf_clOrder hlen, h, finish]

/-- Settles O24: BUILD runs on the lengths in CLORDER order, and decides. -/
theorem dynamicHeaders : Obligations.DynamicHeaders := by
  intro hlit5 hdist5 hclen4 fields s hwf
  have hlen : fields.length ≤ 19 := by
    have := hclen4.isLt
    simp only [Instr.wf, beq_iff_eq] at hwf
    omega
  exact ⟨fun e he => exec_dynhdr_error hlen he, fun T hT => ⟨_, exec_dynhdr_ok hlen hT, rfl, hlitOf_toNat .., hdistOf_toNat ..,
    hclenOf_toNat .., cllensOf_clOrder hlen⟩⟩

end Sys2Proof.Machine
end

section
/-! SUPPORT. The core's turn of a step: the element it fetches is the one it runs (spec R14, R107, R132, R156, R410). -/

namespace Sys2Proof.Machine

/-- A phase that reads elements of IN fetches the one in its context; UNFILTER reads none of them. -/
theorem fetch_of_elementCtx {s : State} {c : Ctx} (hc : elementCtx s = some c) : fetch s = fetchElement c s := by
  refine fetch_of_ctx (fun hp => ?_) hc
  simp only [elementCtx, hp] at hc
  cases hc

theorem coreStep_decoded {s : State} {c : Ctx} {f : Fetched BitReader} (hc : elementCtx s = some c)
    (hf : decode (readerSource s.inm s.inLen.toNat s.par) c s.br = .ok f) : coreStep s = exec f.instr (s.fetched f) := by
  simp only [coreStep, fetch_of_elementCtx hc, fetchElement, hf]

theorem coreStep_undecoded {s : State} {c : Ctx} {e : DecodeError} (hc : elementCtx s = some c)
    (he : decode (readerSource s.inm s.inLen.toNat s.par) c s.br = .error e) :
    coreStep s = finish s (.error (decodeStop e)) := by
  simp only [coreStep, fetch_of_elementCtx hc, fetchElement, he]

/-- Settles O41: the core's step on what the decoder answers, in both ways the core comes to its turn. -/
theorem stepRunsDecodedElement : Obligations.StepRunsDecodedElement := by
  intro s c hc
  obtain ⟨hnil, hcons⟩ := stepRunsCore s
  have hc' : ∀ rest, elementCtx { s with sched := rest } = some c := fun _ => hc
  exact ⟨fun f hf => ⟨fun hs => (hnil hs).trans (coreStep_decoded hc hf),
      fun rest hs => (hcons rest hs).trans (coreStep_decoded (hc' rest) hf)⟩,
    fun he => ⟨fun hs => (hnil hs).trans (coreStep_undecoded hc he),
      fun rest hs => (hcons rest hs).trans (coreStep_undecoded (hc' rest) he)⟩,
    fun he => ⟨fun hs => (hnil hs).trans (coreStep_undecoded hc he),
      fun rest hs => (hcons rest hs).trans (coreStep_undecoded (hc' rest) he)⟩⟩

theorem coreStep_filter {s : State} (hp : s.phase = .unfilter) (hrow : s.row.toNat < s.height.toNat)
    (hin : s.row.toNat * (1 + s.rowbytes.toNat) < s.expected.toNat) :
    coreStep s = exec (filterInstr (Memory.read s.out (s.row.toNat * (1 + s.rowbytes.toNat)))) s := by
  have hread : readOut (s.row.toNat * (1 + s.rowbytes.toNat)) s =
      .ok (Memory.read s.out (s.row.toNat * (1 + s.rowbytes.toNat))) := if_pos hin
  simp only [coreStep, fetch, if_pos (And.intro hp hrow), fetchFilter, hread]

/-- Settles O42, in both ways the core comes to its turn. -/
theorem stepRunsFilterByte : Obligations.StepRunsFilterByte := by
  intro s hp hrow hin
  obtain ⟨hnil, hcons⟩ := stepRunsCore s
  exact ⟨fun hs => (hnil hs).trans (coreStep_filter hp hrow hin),
    fun rest hs => (hcons rest hs).trans (coreStep_filter (s := { s with sched := rest }) hp hrow hin)⟩

end Sys2Proof.Machine
end

section
/-! SUPPORT. GETBITS and ALIGN as functions of BP (spec R131 to R136): how many bytes the reader has loaded, and what each call leaves. -/

namespace Sys2Proof.Machine

/-- The reader has loaded the bytes up to the one BP stands in, and no more: POS is BP in bytes, rounded up (R22, R24). -/
theorem ReaderInv.pos_eq {inm : Memory} {inLen : Nat} {br : BitReader} (h : ReaderInv inm inLen br) :
    br.pos.toNat = (br.bp + 7) / 8 := by
  have hlt := h.bitcnt_lt
  have henough := h.buffered.enough
  rw [BitReader.bp]
  omega

/-- BP describes the reader fully (R136). -/
theorem ReaderInv.eq_of_bp {inm : Memory} {inLen : Nat} {br br' : BitReader} (h : ReaderInv inm inLen br)
    (h' : ReaderInv inm inLen br') (hbp : br.bp = br'.bp) : br = br' :=
  h.unique (fun _ _ => rfl) h' hbp

/-- A reader whose BP moved on by no more bits than were buffered has loaded nothing (R132). -/
theorem ReaderInv.pos_eq_of_buffered {inm : Memory} {inLen n : Nat} {br r : BitReader} (h : ReaderInv inm inLen br)
    (hr : ReaderInv inm inLen r) (hbp : r.bp = br.bp + n) (hn : n ≤ br.bitcnt.toNat) : r.pos = br.pos := by
  have hlt := h.bitcnt_lt
  have henough := h.buffered.enough
  have hpos := hr.pos_eq
  rw [hbp, BitReader.bp] at hpos
  exact BitVec.eq_of_toNat_eq (by omega)

theorem getbits_tooWide {inm : Memory} {inLen n : Nat} {par : Params} {br : BitReader} (h : par.nMax < n) :
    getbits inm inLen par n br = .error .tooWide := if_pos h

theorem alignReader_aligned {inm : Memory} {inLen : Nat} {br : BitReader} (h : ReaderInv inm inLen br) (h0 : br.bitcnt = 0) :
    alignReader br = br := by
  obtain ⟨halign, hbp⟩ := alignReader_spec h
  refine halign.eq_of_bp h ?_
  simp [BitReader.bp, alignReader, h0]

/-- Settles O7: `getbits_cases` and `alignReader_spec` say what BP is after each call, and BP determines the registers. -/
theorem getbitsReadsTheStream : Obligations.GetbitsReadsTheStream := by
  intro inm inLen par br n hl hp h
  obtain ⟨halign, hbpAlign⟩ := alignReader_spec h
  refine ⟨fun hn hend => ?_, fun hn hfit => ?_, fun hn => ?_, rfl, halign, ?_, alignReader_aligned h,
    fun br' h' hbp => h'.eq_of_bp h hbp⟩
  · rcases getbits_cases hl hp hn h with ⟨-, hfail⟩ | ⟨r, -, -, -, hfit⟩
    · exact hfail
    · omega
  · rcases getbits_cases hl hp hn h with ⟨hend, -⟩ | ⟨r, hok, hr, hbp, -⟩
    · omega
    · exact ⟨r, hok, hr, hbp, by rw [hr.pos_eq, hbp], h.pos_eq_of_buffered hr hbp,
        fun h0 => hr.eq_of_bp h (by rw [hbp, h0, Nat.add_zero])⟩
  · exact getbits_tooWide (by rw [hp.nMax_eq]; exact hn)
  · rw [hbpAlign, padding]
    omega

end Sys2Proof.Machine
end

section
/-! SUPPORT. READBYTES and the stored body it serves (spec R135, R171, R177, R178). -/

namespace Sys2Proof.Machine

/-! ## READBYTES -/

@[simp] theorem streamBytes_length (inm : Memory) (bp n : Nat) : (streamBytes inm bp n).length = n := by
  simp [streamBytes]

theorem Emitted.outBytes_eq {s t : State} {bs : List Byte} (h : Emitted s t bs) : outBytes t.out s.opos.toNat bs.length = bs := by
  refine List.ext_getElem (by simp [outBytes]) fun j hj hj' => ?_
  simpa [outBytes] using h.bytes j hj'

/-- The bytes of the stream stand in OUT, as the numbers GETBITS(8) would give. -/
theorem Emitted.read_streamBytes {s t : State} {inm : Memory} {bp n j : Nat} (h : Emitted s t (streamBytes inm bp n)) (hj : j < n) :
    (Memory.read t.out (s.opos.toNat + j)).toNat = streamBits inm (bp + 8 * j) 8 := by
  rw [h.bytes j (by simpa using hj)]
  simpa [streamBytes] using Nat.mod_eq_of_lt (streamBits_lt inm (bp + 8 * j) 8)

section
variable {s : State} {n : Nat} (hw : s.par.Wf) (hr : ReaderInv s.inm s.inLen.toNat s.br) (hwf : Memory.wf s.out = true)
  (hfit : s.opos.toNat + n ≤ s.expected.toNat)
include hw hr hwf hfit

theorem readBytes_exhausted (hend : 8 * s.inLen.toNat < s.bp + 8 * n) : readBytes n s = .error (.raise .inputExhausted) := by
  rcases readBytes_spec n hw hr hwf hfit with ⟨-, hfail⟩ | ⟨t, -, -, -, -, hin⟩
  · exact hfail
  · exact absurd hend (Nat.not_lt.2 hin)

theorem readBytes_ok (hin : s.bp + 8 * n ≤ 8 * s.inLen.toNat) :
    ∃ t, readBytes n s = .ok t ∧ Emitted s t (streamBytes s.inm s.bp n) ∧ ReaderInv s.inm s.inLen.toNat t.br ∧
      t.bp = s.bp + 8 * n := by
  rcases readBytes_spec n hw hr hwf hfit with ⟨hend, -⟩ | ⟨t, hok, hem, htr, hbp, -⟩
  · exact absurd hend (Nat.not_lt.2 hin)
  · exact ⟨t, hok, hem, htr, hbp⟩

end

/-- Settles O23: `readBytes_spec` holds of both paths, and its list of bytes is the stream's. -/
theorem readbytesPathsAgree : Obligations.ReadbytesPathsAgree := by
  intro n s hw hwf hr hfit
  refine ⟨readBytes_exhausted hw hr hwf hfit, fun hin => ?_⟩
  obtain ⟨t, hok, hem, -, hbp⟩ := readBytes_ok hw hr hwf hfit hin
  exact ⟨t, hok, hbp, fun _ => hem.read_streamBytes⟩

/-! ## The stored body, outcome by outcome -/

section
variable {len nlen : BitVec 16} {s : State}

theorem exec_storedbody : exec (.storedbody len nlen) s = finish s (storedBody len nlen s) := rfl

theorem storedBody_badLen (h : len ≠ ~~~nlen) : storedBody len nlen s = .error (.raise .storedLen) := if_pos h

theorem storedBody_overflow (h : len = ~~~nlen) (hover : s.expected.toNat < s.opos.toNat + len.toNat) :
    storedBody len nlen s = .error (.raise .outputOverflow) := by
  simp only [storedBody]
  rw [if_neg (not_not.2 h), if_pos hover]

/-- Past both checks the body is READBYTES and the end of the block (R177). -/
theorem storedBody_copies (h : len = ~~~nlen) (hfit : s.opos.toNat + len.toNat ≤ s.expected.toNat) :
    storedBody len nlen s = (readBytes len.toNat { s with slen := len, snlen := nlen }).map endOfBlock := by
  simp only [storedBody]
  rw [if_neg (not_not.2 h), if_neg (Nat.not_lt.2 hfit)]
  cases readBytes len.toNat { s with slen := len, snlen := nlen } <;> rfl

end

/-- The end of a block after EMITs from a state whose SLEN and SNLEN were just latched, field by field (R171, R177). -/
theorem Emitted.endOfBlock_eq {len nlen : BitVec 16} {s t : State} {bs : List Byte}
    (h : Emitted { s with slen := len, snlen := nlen } t bs) :
    endOfBlock t = { s with
      br := t.br, slen := len, snlen := nlen, out := t.out, opos := t.opos, s1 := t.s1, s2 := t.s2
      phase := if s.bfinal = true then .endchk else .blkhdr } := by
  conv_lhs => rw [h.eq]
  rfl

/-- Settles O22: the checks in R177's order, then `readBytes_spec` for the copy. -/
theorem storedBodies : Obligations.StoredBodies := by
  intro len nlen s hw hwf hr
  refine ⟨fun hlen => ?_, fun hlen hover => ?_, fun hlen hfit hend => ?_, fun hlen hfit hin => ?_⟩
  · rw [exec_storedbody, storedBody_badLen hlen, finish_raise]
  · rw [exec_storedbody, storedBody_overflow hlen hover, finish_raise]
  · rw [exec_storedbody, storedBody_copies hlen hfit, readBytes_exhausted (s := { s with slen := len, snlen := nlen }) hw hr hwf hfit hend]
    rfl
  · obtain ⟨t, hok, hem, htr, hbp⟩ := readBytes_ok (s := { s with slen := len, snlen := nlen }) hw hr hwf hfit hin
    have hopos : t.opos.toNat = s.opos.toNat + len.toNat := by simpa using hem.opos
    have hsums := hem.sums
    rw [← hem.outBytes_eq, streamBytes_length] at hsums
    rw [exec_storedbody, storedBody_copies hlen hfit, hok]
    exact ⟨endOfBlock t, rfl, hem.endOfBlock_eq, htr, hbp, hopos, fun _ => hem.read_streamBytes,
      fun a ha => hem.other a (by rwa [hopos]), hsums⟩

end Sys2Proof.Machine
end

section
/-! SUPPORT. The bucket walk of BUILD (spec R151, R152): SYMBOL as one bucket for each code length, of which the walk has filled a first
part. -/

namespace Sys2Proof.Machine

open Sys2Proof.Claims

/-! ## SYMBOL as the buckets of the code lengths 1 to 15, one after another -/

/-- `b 1 ++ b 2 ++ .. ++ b 15`. -/
def inBuckets (b : Nat → List (BitVec 9)) : List (BitVec 9) := (List.range' 1 15).flatMap b

/-- The place of SYMBOL where bucket L begins. -/
def bucketStart (b : Nat → List (BitVec 9)) (L : Nat) : Nat := ((List.range' 1 (L - 1)).flatMap b).length

theorem canonicalSymbols_eq (lens : List Nat) : canonicalSymbols lens = inBuckets fun L => symbolsOfLength L 0 lens := rfl

theorem inBuckets_congr {b c : Nat → List (BitVec 9)} (h : ∀ L, 1 ≤ L → b L = c L) : inBuckets b = inBuckets c :=
  List.flatMap_congr fun L hL => h L (List.mem_range'_1.1 hL).1

theorem bucketStart_congr {b c : Nat → List (BitVec 9)} (h : ∀ L, 1 ≤ L → (b L).length = (c L).length) (L : Nat) :
    bucketStart b L = bucketStart c L := by
  simp only [bucketStart, List.length_flatMap]
  exact congrArg List.sum (List.map_congr_left fun l hl => h l (List.mem_range'_1.1 hl).1)

theorem inBuckets_split (b : Nat → List (BitVec 9)) {L : Nat} (h1 : 1 ≤ L) (h2 : L ≤ 15) :
    inBuckets b = (List.range' 1 (L - 1)).flatMap b ++ (b L ++ (List.range' (L + 1) (15 - L)).flatMap b) := by
  have hsplit : List.range' 1 15 = List.range' 1 (L - 1) ++ L :: List.range' (L + 1) (15 - L) := by
    obtain ⟨n, rfl⟩ := Nat.exists_eq_add_of_le h1
    rw [← List.range'_succ, Nat.add_sub_cancel_left, List.range'_append_1]
    congr 1
    omega
  rw [inBuckets, hsplit, List.flatMap_append, List.flatMap_cons]

/-- A write within bucket L leaves the other buckets. -/
theorem inBuckets_set (b : Nat → List (BitVec 9)) {L i : Nat} (x : BitVec 9) (h1 : 1 ≤ L) (h2 : L ≤ 15) (hi : i < (b L).length) :
    (inBuckets b).set (bucketStart b L + i) x = inBuckets (Function.update b L ((b L).set i x)) := by
  have hother : ∀ {ls : List Nat}, L ∉ ls → ls.flatMap (Function.update b L ((b L).set i x)) = ls.flatMap b := fun hL =>
    List.flatMap_congr fun l hl => Function.update_of_ne (ne_of_mem_of_not_mem hl hL) _ _
  rw [inBuckets_split _ h1 h2, inBuckets_split _ h1 h2, Function.update_self, hother (by simp; omega), hother (by simp),
    bucketStart, List.set_append_right _ _ (by omega), Nat.add_sub_cancel_left, List.set_append_left _ _ hi]

/-! ## The walk -/

/-- The buckets when the walk has put `filled L` in bucket L and the lengths `rest` are still to come. -/
def partFilled (filled : Nat → List (BitVec 9)) (rest : List Nat) (L : Nat) : List (BitVec 9) :=
  filled L ++ List.replicate (rest.count L) 0

section
variable {filled : Nat → List (BitVec 9)} {l : Nat} {ls : List Nat}

theorem partFilled_cons_of_ne {L : Nat} (h : l ≠ L) : partFilled filled (l :: ls) L = partFilled filled ls L := by
  rw [partFilled, List.count_cons_of_ne h, partFilled]

theorem partFilled_cons_self : partFilled filled (l :: ls) l = filled l ++ 0 :: List.replicate (ls.count l) 0 := by
  rw [partFilled, List.count_cons_self, List.replicate_succ]

/-- The walk's write replaces the first free entry of bucket `l`. -/
theorem partFilled_step (x : BitVec 9) :
    Function.update (partFilled filled (l :: ls)) l ((partFilled filled (l :: ls) l).set (filled l).length x) =
      partFilled (Function.update filled l (filled l ++ [x])) ls := by
  funext L
  rcases eq_or_ne L l with rfl | h
  · rw [Function.update_self, partFilled_cons_self, partFilled, Function.update_self, List.set_append_right _ _ le_rfl, Nat.sub_self,
      List.set_cons_zero, List.append_assoc, List.singleton_append]
  · rw [Function.update_of_ne h, partFilled_cons_of_ne h.symm, partFilled, partFilled, Function.update_of_ne h]

theorem partFilled_step_length (x : BitVec 9) (L : Nat) :
    (partFilled (Function.update filled l (filled l ++ [x])) ls L).length = (partFilled filled (l :: ls) L).length := by
  rw [← partFilled_step]
  rcases eq_or_ne L l with rfl | h
  · rw [Function.update_self, List.length_set]
  · rw [Function.update_of_ne h]

/-- The symbol just written is the first of those still to come in bucket `l`. -/
theorem filled_append_symbolsOfLength (s L : Nat) :
    Function.update filled l (filled l ++ [BitVec.ofNat 9 s]) L ++ symbolsOfLength L (s + 1) ls =
      filled L ++ symbolsOfLength L s (l :: ls) := by
  rcases eq_or_ne l L with rfl | h
  · simp [symbolsOfLength]
  · rw [Function.update_of_ne h.symm, symbolsOfLength, if_neg h]

end

/-- offs[L] points behind the part of bucket L that is filled (R152). -/
def OffsetsAt (filled : Nat → List (BitVec 9)) (rest offs : List Nat) : Prop :=
  ∀ L, 1 ≤ L → L ≤ 15 → offs[L]? = some (bucketStart (partFilled filled rest) L + (filled L).length)

theorem OffsetsAt.cons_zero {filled : Nat → List (BitVec 9)} {ls offs : List Nat} (h : OffsetsAt filled (0 :: ls) offs) :
    OffsetsAt filled ls offs := by
  intro L h1 h2
  rw [h L h1 h2, bucketStart_congr fun L hL => by rw [partFilled_cons_of_ne (show 0 ≠ L by omega)]]

/-- `offs[l] <- offs[l] + 1` keeps pace with the write to bucket `l`. -/
theorem OffsetsAt.cons {filled : Nat → List (BitVec 9)} {l : Nat} {ls offs : List Nat} (h : OffsetsAt filled (l :: ls) offs)
    (x : BitVec 9) : OffsetsAt (Function.update filled l (filled l ++ [x])) ls (offs.set l (offs.getD l 0 + 1)) := by
  intro L h1 h2
  have hL := h L h1 h2
  rw [bucketStart_congr fun L _ => partFilled_step_length x L]
  rcases eq_or_ne l L with rfl | hne
  · have hlt : l < offs.length := (List.getElem?_eq_some_iff.1 hL).1
    rw [List.getElem?_set_self hlt, List.getD_eq_getElem?_getD, hL, Function.update_self, List.length_append]
    rfl
  · rw [List.getElem?_set_ne hne, hL, Function.update_of_ne hne.symm]

/-- What the walk leaves from symbol `s` on: behind the filled part of each bucket, the symbols of its length, in input order (R151). -/
theorem bucketWalk_partFilled {rest : List Nat} : ∀ {s : Nat} {filled : Nat → List (BitVec 9)} {offs : List Nat},
    (∀ l ∈ rest, l ≤ 15) → OffsetsAt filled rest offs →
    bucketWalk s rest offs (inBuckets (partFilled filled rest)) = inBuckets fun L => filled L ++ symbolsOfLength L s rest := by
  induction rest with
  | nil => intro s filled offs _ _; rfl
  | cons l ls ih =>
    intro s filled offs hrest hoffs
    obtain ⟨hl, hls⟩ := List.forall_mem_cons.1 hrest
    rw [bucketWalk]
    split
    case isTrue h0 =>
      subst h0
      rw [inBuckets_congr fun L hL => partFilled_cons_of_ne (show 0 ≠ L by omega), ih hls hoffs.cons_zero]
      exact inBuckets_congr fun L hL => by rw [symbolsOfLength, if_neg (show ¬ 0 = L by omega)]
    case isFalse h0 =>
      have h1 : 1 ≤ l := Nat.one_le_iff_ne_zero.2 h0
      have hat : offs.getD l 0 = bucketStart (partFilled filled (l :: ls)) l + (filled l).length := by
        rw [List.getD_eq_getElem?_getD, hoffs l h1 hl, Option.getD_some]
      have hfree : (filled l).length < (partFilled filled (l :: ls) l).length := by simp [partFilled_cons_self]
      calc bucketWalk (s + 1) ls (offs.set l (offs.getD l 0 + 1))
            ((inBuckets (partFilled filled (l :: ls))).set (offs.getD l 0) (BitVec.ofNat 9 s))
          = bucketWalk (s + 1) ls (offs.set l (offs.getD l 0 + 1))
              (inBuckets (partFilled (Function.update filled l (filled l ++ [BitVec.ofNat 9 s])) ls)) := by
            rw [hat, inBuckets_set _ _ h1 hl hfree, partFilled_step]
        _ = inBuckets fun L =>
              Function.update filled l (filled l ++ [BitVec.ofNat 9 s]) L ++ symbolsOfLength L (s + 1) ls :=
            ih hls (hoffs.cons _)
        _ = inBuckets fun L => filled L ++ symbolsOfLength L s (l :: ls) :=
            inBuckets_congr fun L _ => filled_append_symbolsOfLength s L

/-! ## Before the walk: every bucket empty -/

theorem bucketStart_empty (lens : List Nat) (L : Nat) : bucketStart (partFilled (fun _ => []) lens) L = offset lens L := by
  simp [bucketStart, partFilled, offset, List.length_flatMap]

theorem offsetsAt_offset (lens : List Nat) : OffsetsAt (fun _ => []) lens ((List.range 16).map (offset lens)) := by
  intro L _ h2
  rw [bucketStart_empty, List.getElem?_map, List.getElem?_range (by omega)]
  rfl

/-- Every symbol with a code is counted once, under its length. -/
theorem sum_count_eq_length_filter {lens : List Nat} (h : ∀ l ∈ lens, l ≤ 15) :
    ((List.range' 1 15).map (lens.count ·)).sum = (lens.filter (fun l => l ≠ 0)).length := by
  have hcount : ∀ L ∈ List.range' 1 15, lens.count L = (lens.filter (fun l => l ≠ 0)).count L := by
    intro L hL
    have h0 : L ≠ 0 := Nat.one_le_iff_ne_zero.1 (List.mem_range'_1.1 hL).1
    rw [List.count_filter (p := fun l => decide (l ≠ 0)) (decide_eq_true h0)]
  have hmem : ∀ l ∈ lens.filter (fun l => l ≠ 0), l ∈ (List.range' 1 15).toFinset := by
    intro l hl
    obtain ⟨hl, h0⟩ := List.mem_filter.1 hl
    have h15 := h l hl
    have h1 := Nat.one_le_iff_ne_zero.2 (of_decide_eq_true h0)
    rw [List.mem_toFinset, List.mem_range'_1]
    omega
  rw [List.map_congr_left hcount, ← List.sum_toFinset _ List.nodup_range']
  simpa only [Multiset.coe_count, Multiset.coe_card] using Multiset.sum_count_eq_card (m := Multiset.ofList _) hmem

theorem inBuckets_empty {lens : List Nat} (h : ∀ l ∈ lens, l ≤ 15) :
    inBuckets (partFilled (fun _ => []) lens) = List.replicate (lens.filter (fun l => l ≠ 0)).length 0 := by
  refine List.eq_replicate_iff.2 ⟨?_, fun x hx => ?_⟩
  · simp only [← sum_count_eq_length_filter h, inBuckets, partFilled, List.length_flatMap, List.nil_append, List.length_replicate]
  · obtain ⟨L, -, hL⟩ := List.mem_flatMap.1 hx
    exact List.eq_of_mem_replicate hL

/-- The walk leaves the symbols in canonical order (R151, R152). -/
theorem bucketSymbols_eq_canonicalSymbols {lens : List Nat} (h : ∀ l ∈ lens, l ≤ 15) :
    bucketSymbols lens = canonicalSymbols lens := by
  rw [bucketSymbols, ← inBuckets_empty h, bucketWalk_partFilled h (offsetsAt_offset lens), canonicalSymbols_eq]
  rfl

/-- Settles O9: SYMBOL of an accepted table is in canonical order, and so is what the bucket walk leaves. -/
theorem buildFillsTheTable : Obligations.BuildFillsTheTable := by
  intro lens T hlen hbuild
  obtain ⟨hT, hrange, hcount, hsymbol⟩ := build_ok hlen hbuild
  exact ⟨hT.valid, hcount, hsymbol.trans (bucketSymbols_eq_canonicalSymbols hrange).symm⟩

end Sys2Proof.Machine
end

section
/-! SUPPORT. The code-length symbols (spec R186 to R192), element by element: the operation each one is, and what that operation answers. -/

namespace Sys2Proof.Machine

open Claims

/-- CL0 to CL15 are one write of LENS each (R188). -/
theorem exec_codeLength {i : Instr} {v : BitVec 4} (h : codeLengthOf i = some v) (s : State) :
    exec i s = finish s (setLen v s) := by
  unfold codeLengthOf at h
  split at h <;> cases h <;> rfl

theorem setLen_of_lt {s : State} (h : s.lidx.toNat < 320) (v : BitVec 4) :
    setLen v s = .ok { s with lens := s.lens.set s.lidx.toNat v h, lidx := s.lidx + 1 } := by
  have hset : s.lens.setIfInBounds s.lidx.toNat v = s.lens.set s.lidx.toNat v h := by
    simp only [Vector.setIfInBounds, Vector.set, Array.setIfInBounds, Vector.size_toArray, dif_pos h]
  rw [setLen, if_pos h, hset]

/-- Settles O13, by the write of LENS. -/
theorem codeLengthSymbols : Obligations.CodeLengthSymbols := by
  intro i v s hv h
  rw [exec_codeLength hv, setLen_of_lt h]
  rfl

/-- LENS[LIDX - 1] stands wherever LIDX is past the first entry and LENS has room (R190). -/
theorem previousLen_of_le {s : State} (h0 : s.lidx ≠ 0) (h : s.lidx.toNat ≤ 320) :
    previousLen s = .ok ((s.lens[s.lidx.toNat - 1]?).getD 0) := by
  have hpos : s.lidx.toNat ≠ 0 := fun h => h0 (BitVec.eq_of_toNat_eq h)
  have hentry := Vector.getElem?_eq_getElem (xs := s.lens) (i := s.lidx.toNat - 1) (by omega)
  simp only [previousLen, hentry, Option.getD_some]

theorem exec_cl16_noPrev {s : State} (h0 : s.lidx = 0) (e : BitVec 2) :
    exec (.cl16 e) s = .next (raiseFault .repeatNoPrev s) := by
  change finish s (repeatPrevious e.toNat s) = _
  rw [repeatPrevious, if_pos h0, finish_raise]

theorem exec_cl16_prev {s : State} (h0 : s.lidx ≠ 0) (h : s.lidx.toNat ≤ 320) (e : BitVec 2) :
    exec (.cl16 e) s = finish s (repeatLen ((s.lens[s.lidx.toNat - 1]?).getD 0) (3 + e.toNat) s) := by
  change finish s (repeatPrevious e.toNat s) = _
  simp only [repeatPrevious, if_neg h0, previousLen_of_le h0 h]

/-- CL16 with a previous length, CL17 and CL18 are REPEAT of what `repeatOf` lists (R190 to R192). -/
theorem exec_repeat {i : Instr} {v : BitVec 4} {r : Nat} {s : State} (h : repeatOf s i = some (v, r)) (hl : s.lidx.toNat ≤ 320)
    (hprev : s.lidx ≠ 0 ∨ ∀ e, i ≠ .cl16 e) : exec i s = finish s (repeatLen v r s) := by
  unfold repeatOf at h
  split at h <;> cases h
  case h_1 e => exact exec_cl16_prev (hprev.resolve_right fun hne => hne e rfl) hl e
  case h_2 | h_3 => rfl

/-- Settles O14: CL16 with no previous length faults; all else is REPEAT, which `repeatLen_cases` describes. -/
theorem repeatSymbols : Obligations.RepeatSymbols := by
  intro i v r s hrep hl hsum
  refine ⟨fun h0 ⟨e, he⟩ => he ▸ exec_cl16_noPrev h0 e, fun hprev => ?_⟩
  rw [exec_repeat hrep hl hprev]
  rcases repeatLen_cases v r hsum with ⟨hover, hfault⟩ | ⟨hfit, hfill⟩
  · exact ⟨fun _ => by rw [hfault, finish_raise], fun hle => absurd hover (Nat.not_lt.2 hle)⟩
  · exact ⟨fun hlt => absurd hfit (Nat.not_le.2 hlt), fun _ => by rw [hfill]; rfl⟩

end Sys2Proof.Machine
end

section
/-! SUPPORT. The constant tables as what BUILD makes of the fixed code lengths (spec R152, R180, R181). -/

namespace Sys2Proof.Machine

open Claims

theorem fixLL_length : fixLL.length = 288 := by
  simp only [fixLL, List.length_append, List.length_replicate]

/-- FIXLL by the run of equal lengths that the symbol lies in (R180). -/
theorem fixLL_getElem? {s : Nat} (hs : s < 288) :
    fixLL[s]? = some (if s < 144 then 8 else if s < 256 then 9 else if s < 280 then 7 else 8) := by
  simp only [fixLL, List.getElem?_append, List.getElem?_replicate, List.length_append, List.length_replicate]
  grind

theorem fixD_getElem? {d : Nat} (hd : d < 32) : fixD[d]? = some 5 := List.getElem?_replicate_of_lt hd

theorem build_fixLL : build fixLL = .ok fllt := by decide +kernel

theorem build_fixD : build fixD = .ok fdt := by decide +kernel

/-- The symbols of a table as numbers, where each number has nine bits. -/
theorem symbolList_toNat {ns : List Nat} (hlt : ∀ v ∈ ns, v < 512) : (ns.map (BitVec.ofNat 9)).map BitVec.toNat = ns := by
  rw [List.map_map]
  exact (List.map_congr_left fun v hv => Nat.mod_eq_of_lt (hlt v hv)).trans (List.map_id _)

/-- Settles O11: both builds by evaluation, the reserved codes as instances of R105's. -/
theorem fixedTablesAreBuilt : Obligations.FixedTablesAreBuilt := by
  refine ⟨fixLL_length, rfl, fun _ => fixLL_getElem?, fun _ => fixD_getElem?, codeBits_fllt (by decide), codeBits_fllt (by decide),
    codeBits_fdt (by decide), codeBits_fdt (by decide), build_fixLL, build_fixD, rfl, rfl, rfl, rfl, rfl, by decide,
    symbolList_toNat fun v hv => ?_, rfl, by decide, by decide⟩
  exact Nat.lt_trans (flltSymbols_lt v hv) (by decide)

end Sys2Proof.Machine
end

section
/-! SUPPORT. Block headers, the end of a block, the reserved elements, and the actions of the block machine that read no element: the
table builds and the end check (spec R171 to R176, R186, R187, R193, R194, R215, R249, R282, R328). -/

namespace Sys2Proof.Machine

/-- Settles O12: each header is `latchHeader`, or the fault. -/
theorem blockHeaders : Obligations.BlockHeaders := fun _ _ => ⟨rfl, rfl, rfl, rfl⟩

/-- Settles O16, by `endOfBlock`. -/
theorem BlockMachine.endOfBlock : Obligations.EndOfBlock := fun _ => rfl

/-- Settles O21, element by element. -/
theorem reservedElements : Obligations.ReservedElements := fun _ _ _ => ⟨rfl, rfl, rfl, rfl, rfl, rfl⟩

/-- Where the phase reads no element the core takes the phase's own action (R14). -/
theorem coreStep_phaseAction {s : State} (hp : s.phase ≠ .unfilter) (hc : elementCtx s = none) : coreStep s = phaseAction s := by
  have hfetch : fetch s = .none := by simp [fetch, hp, hc]
  simp only [coreStep, hfetch]

/-- With all the code lengths read the core builds the tables (R186, R193). -/
theorem coreStep_dynBuild {s : State} (hp : s.phase = .dynlens) (hall : s.totalLens ≤ s.lidx.toNat) :
    coreStep s = finish s (dynBuild s) := by
  rw [coreStep_phaseAction (by simp [hp]) (by simp [elementCtx, hp, hall])]
  simp only [phaseAction, hp]

theorem coreStep_endCheck {s : State} (hp : s.phase = .endchk) : coreStep s = finish s (endCheck s) := by
  rw [coreStep_phaseAction (by simp [hp]) (by simp [elementCtx, hp])]
  simp only [phaseAction, hp]

theorem dynBuild_llError {s : State} {e : Err} (h : build s.llLens = .error e) : dynBuild s = .error (.raise e) := by
  simp only [dynBuild, h]

theorem dynBuild_dError {s : State} {T : HuffTable} {e : Err} (hll : build s.llLens = .ok T) (hd : build s.dLens = .error e) :
    dynBuild s = .error (.raise e) := by
  simp only [dynBuild, hll, hd]

theorem dynBuild_ok {s : State} {T U : HuffTable} (hll : build s.llLens = .ok T) (hd : build s.dLens = .ok U) :
    dynBuild s = .ok { s with llt := T, dt := U, phase := .symloop } := by
  simp only [dynBuild, hll, hd]

/-- Settles O36: the three answers of DYNBUILD. -/
theorem tableBuilds : Obligations.TableBuilds := by
  intro s hp hall ll d
  rw [coreStep_dynBuild hp hall]
  refine ⟨fun e hll => ?_, fun T e hll hd => ?_, fun T U hll hd => ?_⟩
  · rw [dynBuild_llError hll, finish_raise]
  · rw [dynBuild_dError hll hd, finish_raise]
  · rw [dynBuild_ok hll hd]
    rfl

theorem endCheck_ok {s : State} (h : s.opos = s.expected) : endCheck s = .ok { s with phase := .trailer } :=
  if_neg (not_not_intro h)

theorem endCheck_mismatch {s : State} (h : s.opos ≠ s.expected) : endCheck s = .error (.raise .lengthMismatch) := if_pos h

/-- Settles O37: the two answers of ENDCHK. -/
theorem BlockMachine.endCheck : Obligations.EndCheck := by
  intro s hp
  rw [coreStep_endCheck hp]
  exact ⟨fun heq => by rw [endCheck_ok heq]; rfl, fun hne => by rw [endCheck_mismatch hne, finish_raise]⟩

end Sys2Proof.Machine
end

section
/-! SUPPORT. The elements of the symbol loop: a literal as one EMIT, a length code, and a distance code with the match it copies (spec
R213 to R219, R250 to R281, R305). -/

namespace Sys2Proof.Machine

open Claims

/-! ## Literals -/

theorem exec_lit (b : Byte) (s : State) : exec (.lit b) s = finish s (emit b s) := rfl

theorem emit_overflow {s : State} (h : s.expected.toNat ≤ s.opos.toNat) (b : Byte) : emit b s = .error (.raise .outputOverflow) :=
  if_pos h

/-- One byte through EMIT: each sum of the checksum is one step of R305. -/
theorem Emitted.sums_singleton {s t : State} {b : Byte} (h : Emitted s t [b]) :
    t.s1.toNat = (s.s1.toNat + b.toNat) % 65521 ∧ t.s2.toNat = (s.s2.toNat + t.s1.toNat) % 65521 := by
  obtain ⟨h1, h2⟩ := Prod.mk.inj h.sums
  exact ⟨h1, by rw [h1]; exact h2⟩

/-- Settles O15, by the two answers of EMIT. -/
theorem literals : Obligations.Literals := by
  intro b s hwf
  rw [exec_lit]
  refine ⟨fun hfull => by rw [emit_overflow hfull, finish_raise], fun hfit => ?_⟩
  obtain ⟨hok, hem⟩ := Emitted.emit hwf hfit b
  obtain ⟨hs1, hs2⟩ := hem.sums_singleton
  have hopos : (emitByte b s).opos.toNat = s.opos.toNat + 1 := hem.opos
  exact ⟨emitByte b s, by rw [hok, finish_ok], rfl, hs1, hs2, hem.bytes 0 Nat.one_pos, fun a ha => hem.other a (by omega)⟩

/-! ## Length codes -/

/-- Each length code is the length element of its base and its raw field (R217). -/
theorem exec_length {i : Instr} {n : Nat} (h : lengthOf i = some n) (s : State) :
    exec i s = .next { s with mlen := BitVec.ofNat 9 n, inMatch := true } := by
  unfold lengthOf at h
  split at h <;> cases h <;> rfl

theorem lengthOf_bounds {i : Instr} {n : Nat} (h : lengthOf i = some n) : 3 ≤ n ∧ n ≤ 258 := by
  unfold lengthOf at h
  split at h <;> cases h <;> omega

/-- Settles O17, code by code. -/
theorem lengthCodes : Obligations.LengthCodes := fun _ _ s h =>
  have ⟨hlo, hhi⟩ := lengthOf_bounds h
  ⟨hlo, hhi, exec_length h s⟩

/-! ## Distance codes -/

/-- Each distance code is the distance element of its base and its raw field (R251). -/
theorem exec_distance {i : Instr} {d : Nat} (h : distanceOf i = some d) :
    ∃ base e, base + e = d ∧ ∀ s, exec i s = finish s (distanceElement base e s) := by
  unfold distanceOf at h
  split at h <;> cases h <;> exact ⟨_, _, rfl, fun _ => rfl⟩

theorem distanceOf_bounds {i : Instr} {d : Nat} (h : distanceOf i = some d) : 1 ≤ d ∧ d ≤ 32768 := by
  unfold distanceOf at h
  split at h <;> cases h <;> omega

@[simp] theorem matchBytes_length (m : Memory) (p d n : Nat) : (matchBytes m p d n).length = n := by
  simp [matchBytes]

/-- Byte `j` of a match in OUT, in R218's closed form. -/
theorem Emitted.read_matchBytes {s t : State} {m : Memory} {p d n j : Nat} (h : Emitted s t (matchBytes m p d n)) (hj : j < n) :
    Memory.read t.out (s.opos.toNat + j) = Memory.read m (p - d + j % d) := by
  rw [h.bytes j (by simpa using hj)]
  simp [matchBytes]

theorem Emitted.eq_of_br {s t : State} {bs : List Byte} (h : Emitted s t bs) (hbr : t.br = s.br) :
    t = { s with out := t.out, opos := t.opos, s1 := t.s1, s2 := t.s2 } := by
  conv_lhs => rw [h.eq, hbr]

section
variable {base e : Nat} {s : State} (hmax : base + e ≤ 32768)
include hmax

/-- MDIST has room for every distance (R251). -/
theorem mdist_toNat : (BitVec.ofNat 16 (base + e)).toNat = base + e := by
  rw [BitVec.toNat_ofNat]
  exact Nat.mod_eq_of_lt (by omega)

theorem distanceElement_tooFar (hfar : s.opos.toNat < base + e) : distanceElement base e s = .error (.raise .distTooFar) := by
  simp only [distanceElement, matchCopy, mdist_toNat hmax, if_pos hfar]

theorem distanceElement_overflow (hle : base + e ≤ s.opos.toNat) (hover : s.expected.toNat < s.opos.toNat + s.mlen.toNat) :
    distanceElement base e s = .error (.raise .outputOverflow) := by
  simp only [distanceElement, matchCopy, mdist_toNat hmax, if_neg (Nat.not_lt.2 hle), if_pos hover]

/-- Past both checks a distance code latches MDIST and puts the match through EMIT (R218, R219). -/
theorem distanceElement_copies (hmin : 1 ≤ base + e) (hwf : Memory.wf s.out = true) (hle : base + e ≤ s.opos.toNat)
    (hfit : s.opos.toNat + s.mlen.toNat ≤ s.expected.toNat) :
    ∃ t, distanceElement base e s = .ok t ∧ t.br = s.br ∧
      Emitted { s with mdist := BitVec.ofNat 16 (base + e), inMatch := false } t
        (matchBytes s.out s.opos.toNat (base + e) s.mlen.toNat) := by
  have hcopy := matchCopy_spec (s := { s with mdist := BitVec.ofNat 16 (base + e), inMatch := false }) hwf
  simp only [mdist_toNat hmax] at hcopy
  exact hcopy hmin hle hfit

end

/-- Settles O19: the checks in R219's order, then `matchCopy_spec` for the copy. -/
theorem distanceCodes : Obligations.DistanceCodes := by
  intro i d s hd hwf
  obtain ⟨hmin, hmax⟩ := distanceOf_bounds hd
  obtain ⟨base, e, rfl, hexec⟩ := exec_distance hd
  rw [hexec]
  refine ⟨hmin, hmax, fun hfar => ?_, fun hle hover => ?_, fun hle hfit => ?_⟩
  · rw [distanceElement_tooFar hmax hfar, finish_raise]
  · rw [distanceElement_overflow hmax hle hover, finish_raise]
  · obtain ⟨t, hok, hbr, hem⟩ := distanceElement_copies hmax hmin hwf hle hfit
    have hflag : t.inMatch = false := by rw [hem.eq]
    have hopos : t.opos.toNat = s.opos.toNat + s.mlen.toNat := by simpa using hem.opos
    have hsums := hem.sums
    rw [← hem.outBytes_eq, matchBytes_length] at hsums
    refine ⟨t, by rw [hok, finish_ok], ?_, hopos, fun _ => hem.read_matchBytes, fun a ha => hem.other a (by rwa [hopos]), hsums⟩
    rw [hflag]
    exact hem.eq_of_br hbr

/-! ## The flag for the two halves of a match -/

theorem emit_inMatch {s t : State} {b : Byte} (h : emit b s = .ok t) : t.inMatch = s.inMatch := by
  unfold emit at h
  split at h <;> cases h
  exact emitByte_inMatch b s

theorem copyLoop_inMatch (n : Nat) : ∀ {s t : State}, copyLoop n s = .ok t → t.inMatch = s.inMatch := by
  induction n with
  | zero =>
    intro s t h
    cases h
    rfl
  | succ n ih =>
    intro s t h
    simp only [copyLoop] at h
    split at h
    · cases h
    · split at h
      · cases h
      · next hemit => exact (ih h).trans (emit_inMatch hemit)

/-- A distance element clears the flag before its copy, which leaves it alone. -/
theorem distanceElement_inMatch {base e : Nat} {s t : State} (h : distanceElement base e s = .ok t) : t.inMatch = false := by
  unfold distanceElement matchCopy at h
  split_ifs at h
  exact copyLoop_inMatch _ h

/-- Settles O20, by the two answers of a distance element. -/
theorem distanceEndsMatch : Obligations.DistanceEndsMatch := by
  intro i d s t hd h
  obtain ⟨base, e, -, hexec⟩ := exec_distance hd
  rw [hexec] at h
  rcases finish_next h with hok | ⟨err, -, rfl⟩
  · exact distanceElement_inMatch hok
  · exact raiseFault_inMatch err s

end Sys2Proof.Machine
end

section
/-! SUPPORT. The envelope: the checks of ZHDR and ZTRL in their order, and the checksum that ZTRL compares, which covers the bytes of OUT so
far on every step of a job (spec R301 to R306). -/

namespace Sys2Proof.Machine

/-! ## The checksum of OUT along every step (R305) -/

theorem outBytes_add (m : Memory) (a n k : Nat) : outBytes m a (n + k) = outBytes m a n ++ outBytes m (a + n) k := by
  simp only [outBytes, ← List.map_append, List.range'_append_1]

theorem outBytes_congr {m m' : Memory} {a n : Nat} (h : ∀ i, a ≤ i → i < a + n → Memory.read m i = Memory.read m' i) :
    outBytes m a n = outBytes m' a n :=
  List.map_congr_left fun i hi => h i (List.mem_range'_1.1 hi).1 (List.mem_range'_1.1 hi).2

theorem outBytes_eq_of_read {m : Memory} {a : Nat} {bs : List Byte} (h : ∀ j (hj : j < bs.length), Memory.read m (a + j) = bs[j]) :
    outBytes m a bs.length = bs := by
  refine List.ext_getElem (by simp [outBytes]) fun j _ hj => ?_
  simpa [outBytes] using h j hj

/-- What a step writes stands in OUT after what was there (R60, R62). -/
theorem Written.outBytes_eq {s t : State} {bs : List Byte} (h : Written s t bs) :
    outBytes t.out 0 t.opos.toNat = outBytes s.out 0 s.opos.toNat ++ bs := by
  have hold : outBytes t.out 0 s.opos.toNat = outBytes s.out 0 s.opos.toNat :=
    outBytes_congr fun i _ hi => h.other i (.inl (by omega))
  rw [h.opos, outBytes_add, hold, Nat.zero_add, outBytes_eq_of_read h.bytes]

/-- The sums that have taken OUT so far, after the bytes of a step. -/
theorem ChecksumInv.written {s t : State} {bs : List Byte} (hs : ChecksumInv s) (h : Written s t bs) : ChecksumInv t := by
  rw [ChecksumInv, h.outBytes_eq, adlerFrom_append, ← hs]
  exact h.sums

/-- START sets the sums of no byte (R46). -/
theorem ChecksumInv.startJob (s : State) : ChecksumInv (startJob s) := rfl

theorem ChecksumInv.coreStep {s t : State} (hi : Inv s) (hs : s.busy → ChecksumInv s) (h : coreStep s = .next t) (hb : t.busy) :
    ChecksumInv t := by
  by_cases hsb : s.busy
  · obtain ⟨bs, hbs⟩ := (coreStep_effects hi hsb h (by rw [hb]; decide)).out
    exact (hs hsb).written hbs
  · rw [coreStep_rest hsb] at h
    cases h
    exact absurd hb hsb

/-- No move of the host touches the sums or OUT of a running job; START begins one. -/
theorem HostStep.checksumInv {s t : State} {m : HostMove} (h : HostStep s m t) (hs : s.busy → ChecksumInv s) (hb : t.busy) :
    ChecksumInv t := by
  cases h with
  | reads _ w => exact hs hb
  | loads _ inm inLen width height channels hrest hwf => exact absurd hb hrest
  | starts v hrest hv => exact .startJob s
  | resets => cases hb

/-- Settles O51, by who acts: the core, whose step appends the bytes it sums, or the host. -/
theorem checksumCoversOutput : Obligations.ChecksumCoversOutput := by
  intro s t hi hs h hb
  obtain ⟨rest, hcore | ⟨m, -, hhost⟩⟩ := step_cases h
  · exact ChecksumInv.coreStep (s := { s with sched := rest }) (hi.hostFields rest s.rdata) hs hcore hb
  · exact hhost.checksumInv hs hb

/-! ## ZHDR (R301 to R304) -/

theorem exec_zhdr (cmf flg : Byte) (s : State) : exec (.zhdr cmf flg) s = finish s (headerCheck cmf flg s) := rfl

/-- FDICT is bit 5 of FLG (R303). -/
theorem fdict_iff {flg : Byte} : flg.getLsbD 5 = true ↔ flg.toNat / 32 % 2 = 1 := by
  rw [BitVec.getLsbD, Nat.testBit_eq_decide_div_mod_eq, decide_eq_true_eq]

section
variable {cmf flg : Byte} {s : State}

theorem headerCheck_badCheck (h : (cmf.toNat * 256 + flg.toNat) % 31 ≠ 0) : headerCheck cmf flg s = .error (.raise .zlibCheck) :=
  if_pos h

variable (h31 : (cmf.toNat * 256 + flg.toNat) % 31 = 0)
include h31

theorem headerCheck_badMethod (h : cmf.toNat % 16 ≠ 8) : headerCheck cmf flg s = .error (.raise .zlibMethod) := by
  rw [headerCheck, if_neg (not_not_intro h31), if_pos h]

variable (hcm : cmf.toNat % 16 = 8)
include hcm

theorem headerCheck_noDict (h : flg.toNat / 32 % 2 = 0) : headerCheck cmf flg s = .ok { s with phase := .blkhdr } := by
  have hclear : ¬ flg.getLsbD 5 = true := by rw [fdict_iff, h]; decide
  rw [headerCheck, if_neg (not_not_intro h31), if_neg (not_not_intro hcm), if_neg hclear]

theorem headerCheck_dictFails (h : flg.toNat / 32 % 2 = 1) (hmode : s.par.fdictMode = .fail) :
    headerCheck cmf flg s = .error (.raise .presetDict) := by
  rw [headerCheck, if_neg (not_not_intro h31), if_neg (not_not_intro hcm), if_pos (fdict_iff.2 h)]
  simp only [hmode]

theorem headerCheck_dictSkipped (h : flg.toNat / 32 % 2 = 1) (hmode : s.par.fdictMode = .skip4) :
    headerCheck cmf flg s = skipBytes 4 { s with phase := .blkhdr } := by
  rw [headerCheck, if_neg (not_not_intro h31), if_neg (not_not_intro hcm), if_pos (fdict_iff.2 h)]
  simp only [hmode]

end

/-- Settles O25: the checks in their order, then `skipBytes_spec` for DICTID. -/
theorem envelopeHeaders : Obligations.EnvelopeHeaders := by
  intro cmf flg s hw hr
  have hskip := skipBytes_spec 4 (s := { s with phase := .blkhdr }) hw hr
  rw [exec_zhdr]
  refine ⟨fun hbad => ?_, fun h31 hbad => ?_, fun h31 hcm => ⟨fun h0 => ?_, fun h1 hmode => ?_, fun h1 hmode hend => ?_,
    fun h1 hmode hfit => ?_⟩⟩
  · rw [headerCheck_badCheck hbad, finish_raise]
  · rw [headerCheck_badMethod h31 hbad, finish_raise]
  · rw [headerCheck_noDict h31 hcm h0, finish_ok]
  · rw [headerCheck_dictFails h31 hcm h1 hmode, finish_raise]
  · rw [headerCheck_dictSkipped h31 hcm h1 hmode]
    rcases hskip with ⟨-, hfail⟩ | ⟨r, -, hinv, hbp⟩
    · rw [hfail, finish_raise]
    · exact absurd (hbp ▸ hinv.bp_le) (Nat.not_le.2 hend)
  · rw [headerCheck_dictSkipped h31 hcm h1 hmode]
    rcases hskip with ⟨hend, -⟩ | ⟨r, hok, hinv, hbp⟩
    · exact absurd hend (Nat.not_lt.2 hfit)
    · exact ⟨r, by rw [hok, finish_ok], hinv, hbp⟩

/-! ## ZTRL (R305, R306, R320) -/

theorem exec_ztrl (v : Word) (s : State) : exec (.ztrl v) s = finish s (trailerCheck v s) := rfl

theorem checksum_toNat (s : State) : s.checksum.toNat = s.s2.toNat * 65536 + s.s1.toNat := by
  rw [State.checksum, BitVec.toNat_append, ← Nat.shiftLeft_add_eq_or_of_lt s.s1.isLt, Nat.shiftLeft_eq]

/-- Settles O26: two words are equal exactly where their numbers are. -/
theorem trailers : Obligations.Trailers := by
  intro v s
  rw [exec_ztrl, trailerCheck, ← checksum_toNat]
  refine ⟨fun heq => ?_, fun hne => ?_⟩
  · rw [if_neg (not_not_intro (BitVec.eq_of_toNat_eq heq)), finish_ok]
  · rw [if_pos fun heq => hne (congrArg BitVec.toNat heq), finish_raise]

end Sys2Proof.Machine
end


section
/-! The predictors of AVG and PAETH (spec R326, R327, R330). -/

namespace Sys2Proof.Machine

open Sys2Proof.Claims

/-- The halved 9-bit sum fits a byte: no carry is lost (R326). -/
theorem predAvg_toNat (a b c : Byte) : (predAvg a b c).toNat = (a.toNat + b.toNat) / 2 := by
  rw [predAvg, BitVec.toNat_ofNat]
  exact Nat.mod_eq_of_lt (by omega)

section
variable {a b c : Byte}

theorem predPaeth_eq_left (hab : paethDistance a b c a ≤ paethDistance a b c b)
    (hac : paethDistance a b c a ≤ paethDistance a b c c) : predPaeth a b c = a :=
  if_pos ⟨hab, hac⟩

variable (ha : ¬ (paethDistance a b c a ≤ paethDistance a b c b ∧ paethDistance a b c a ≤ paethDistance a b c c))
include ha

theorem predPaeth_eq_above (hbc : paethDistance a b c b ≤ paethDistance a b c c) : predPaeth a b c = b :=
  (if_neg ha).trans (if_pos hbc)

theorem predPaeth_eq_aboveLeft (hb : ¬ paethDistance a b c b ≤ paethDistance a b c c) : predPaeth a b c = c :=
  (if_neg ha).trans (if_neg hb)

end

/-- No candidate is nearer to a + b - c than the one Paeth chooses (R327). -/
theorem predPaeth_nearest (a b c : Byte) :
    paethDistance a b c (predPaeth a b c) ≤ paethDistance a b c a ∧
    paethDistance a b c (predPaeth a b c) ≤ paethDistance a b c b ∧
    paethDistance a b c (predPaeth a b c) ≤ paethDistance a b c c := by
  by_cases ha : paethDistance a b c a ≤ paethDistance a b c b ∧ paethDistance a b c a ≤ paethDistance a b c c
  · rw [predPaeth_eq_left ha.1 ha.2]
    exact ⟨le_rfl, ha⟩
  · by_cases hb : paethDistance a b c b ≤ paethDistance a b c c
    · rw [predPaeth_eq_above ha hb]
      omega
    · rw [predPaeth_eq_aboveLeft ha hb]
      omega

theorem paethDistance_eq_zero {a b c x : Byte} : paethDistance a b c x = 0 ↔ (x.toNat : Int) = a.toNat + b.toNat - c.toNat := by
  rw [paethDistance]
  omega

/-- On row 0 the left neighbour is a + b - c itself, so nothing else is as near (R330). -/
theorem predPaeth_firstRow (a : Byte) : predPaeth a 0 0 = a := by
  have hself : paethDistance a 0 0 a = 0 := paethDistance_eq_zero.2 (by simp)
  have hchosen : paethDistance a 0 0 (predPaeth a 0 0) = 0 := Nat.le_zero.1 (hself ▸ (predPaeth_nearest a 0 0).1)
  exact BitVec.eq_of_toNat_eq (by simpa using paethDistance_eq_zero.1 hchosen)

/-- In the first pixel of a row the neighbour above is a + b - c itself (R330). -/
theorem predPaeth_firstPixel (b : Byte) : predPaeth 0 b 0 = b := by
  have hself : paethDistance 0 b 0 b = 0 := paethDistance_eq_zero.2 (by simp)
  have hchosen : paethDistance 0 b 0 (predPaeth 0 b 0) = 0 := Nat.le_zero.1 (hself ▸ (predPaeth_nearest 0 b 0).2.1)
  exact BitVec.eq_of_toNat_eq (by simpa using paethDistance_eq_zero.1 hchosen)

/-- Settles O29. -/
theorem predictors : Obligations.Predictors := by
  intro a b c
  obtain ⟨hleft, habove, haboveLeft⟩ := predPaeth_nearest a b c
  exact ⟨predAvg_toNat a b c, hleft, habove, haboveLeft, predPaeth_eq_left,
    fun ha => ⟨predPaeth_eq_above ha, predPaeth_eq_aboveLeft ha⟩, predPaeth_firstRow a, predPaeth_firstPixel b⟩

end Sys2Proof.Machine
end

section
/-! The filter elements (spec R321 to R327): the row each one reconstructs, and that reconstruction undoes the forward filter (R332). -/

namespace Sys2Proof.Machine

open Sys2Proof.Claims

/-- FT.NONE to FT.PAETH run one row of UNFILTER with their type and predictor (R323 to R327). -/
theorem exec_filter {i : Instr} {ty : Byte} {pred : Byte → Byte → Byte → Byte} (hi : filterOf i = some (ty, pred)) (s : State) :
    exec i s = finish s (unfilterRow ty pred s) := by
  unfold filterOf at hi
  split at hi <;> cases hi
  all_goals rfl

theorem GeometryInv.rowbytes_pos {s : State} (h : GeometryInv s) : 1 ≤ s.rowbytes.toNat := by
  rw [h.rowbytes_eq, State.cfgRowBytes]
  exact Nat.mul_pos (Nat.pos_of_ne_zero h.width_pos) h.channels_pos

/-- Settles O27: the element runs the row loop, which `unfilterRow_spec` describes. -/
theorem filterRows : Obligations.FilterRows := by
  intro i ty pred s hi hg hrow hwf
  obtain ⟨t, hrun, ht, -, hbytes, hframe⟩ :=
    unfilterRow_spec (t := ty) (pred := pred) (hg.rowReady hrow) hwf hg.rowbytes_pos
  refine ⟨t, by rw [exec_filter hi, hrun, finish_ok], ?_, hbytes, fun a ha => hframe a ?_⟩
  · rw [ht]
  · rwa [Nat.succ_mul] at ha

/-- The first `n` bytes of PIX are those of the image `raw`. -/
def HoldsImage (raw : Nat → Byte) (s : State) (n : Nat) : Prop := ∀ a, a < n → Memory.read s.pix a = raw a

theorem HoldsImage.succ {raw : Nat → Byte} {s : State} {n : Nat} (h : HoldsImage raw s n) (hn : Memory.read s.pix n = raw n) :
    HoldsImage raw s (n + 1) := fun a ha =>
  (Nat.lt_succ_iff_lt_or_eq.1 ha).elim (h a) fun heq => heq ▸ hn

section
variable {raw : Nat → Byte} {s : State} {c : Nat} (h : HoldsImage raw s (s.row.toNat * s.rowbytes.toNat + c))
include h

/-! Where PIX holds the image up to byte `c` of row ROW, the neighbours of that byte are the raw ones (R329, R332). -/

theorem leftByte_eq_rawLeft (hb : 1 ≤ s.bpp.toNat) : leftByte s c = rawLeft raw s c := by
  unfold leftByte rawLeft
  split
  · exact h _ (by omega)
  · rfl

theorem aboveByte_eq_rawAbove (hc : c < s.rowbytes.toNat) : aboveByte s c = rawAbove raw s c := by
  unfold aboveByte rawAbove
  split
  next hr =>
    have := prevRow (rb := s.rowbytes.toNat) hr
    exact h _ (by omega)
  next => rfl

theorem aboveLeftByte_eq_rawAboveLeft (hc : c < s.rowbytes.toNat) : aboveLeftByte s c = rawAboveLeft raw s c := by
  unfold aboveLeftByte rawAboveLeft
  split
  next hr =>
    have := prevRow (rb := s.rowbytes.toNat) hr.1
    exact h _ (by omega)
  next => rfl

end

/-- The forward filter subtracts from each byte of row ROW what reconstruction adds to it, so byte after byte the row of PIX is the
image's (R332). -/
theorem HoldsImage.row {raw : Nat → Byte} {s : State} {pred : Byte → Byte → Byte → Byte} (hb : 1 ≤ s.bpp.toNat)
    (hprev : HoldsImage raw s (s.row.toNat * s.rowbytes.toNat))
    (hfiltered : ∀ c, c < s.rowbytes.toNat →
      filteredByte s c = rawByte raw s c - pred (rawLeft raw s c) (rawAbove raw s c) (rawAboveLeft raw s c))
    (hbytes : ∀ c, c < s.rowbytes.toNat → Memory.read s.pix (s.row.toNat * s.rowbytes.toNat + c) =
      filteredByte s c + pred (leftByte s c) (aboveByte s c) (aboveLeftByte s c)) (n : Nat) :
    n ≤ s.rowbytes.toNat → HoldsImage raw s (s.row.toNat * s.rowbytes.toNat + n) := by
  induction n with
  | zero => exact fun _ => hprev
  | succ c ih =>
    intro hc
    have hsofar := ih (by omega)
    refine hsofar.succ ?_
    rw [hbytes c hc, hfiltered c hc, leftByte_eq_rawLeft hsofar hb, aboveByte_eq_rawAbove hsofar hc,
      aboveLeftByte_eq_rawAboveLeft hsofar hc, BitVec.sub_add_cancel, rawByte]

/-- Settles O28: `filterRows` says what the row holds, and `HoldsImage.row` that this is the image, by induction on the columns. -/
theorem unfilterInvertsFilter : Obligations.UnfilterInvertsFilter := by
  intro i ty pred s raw hi hg hrow hwf hprev hfiltered
  obtain ⟨t, hexec, ht, hbytes, hframe⟩ := filterRows i ty pred s hi hg hrow hwf
  obtain ⟨col, pix, rfl⟩ : ∃ col pix, t = { s with ft := ty, col := col, pix := pix } := ⟨_, _, ht⟩
  have himage := HoldsImage.row (raw := raw) (s := { s with ft := ty, col := col, pix := pix }) (hg.rowReady hrow).bpp_pos
    (fun a ha => (hframe a (.inl ha)).trans (hprev a ha)) hfiltered hbytes s.rowbytes.toNat le_rfl
  exact ⟨_, hexec, rfl, fun a ha => himage a (by rwa [Nat.succ_mul] at ha)⟩

end Sys2Proof.Machine
end

section
/-! SUPPORT. The configuration check, fault entry, and the steps in which the core has nothing to do: a pending host move, and the states
outside a job (spec R352 to R364). -/

namespace Sys2Proof.Machine

open Sys2Proof.Claims

section
variable {s : State} (hcfg : ¬(s.channels.toNat < 1 ∨ 4 < s.channels.toNat ∨ s.width = 0 ∨ s.height = 0))
include hcfg

theorem configCheck_resource (hres : s.par.outCap.toNat < s.cfgExpected ∨ s.par.inCap.toNat < s.inLen.toNat ∨
    s.par.pixCap.toNat < s.height.toNat * s.cfgRowBytes) : configCheck s = .error (.raise .resource) := by
  rw [configCheck, if_neg hcfg, if_pos hres]

theorem configCheck_passes (hout : s.cfgExpected ≤ s.par.outCap.toNat) (hin : s.inLen.toNat ≤ s.par.inCap.toNat)
    (hpix : s.height.toNat * s.cfgRowBytes ≤ s.par.pixCap.toNat) : ∃ t, configCheck s = .ok t := by
  rw [configCheck, if_neg hcfg, if_neg (by simp only [not_or, Nat.not_lt]; exact ⟨hout, hin, hpix⟩)]
  exact ⟨_, rfl⟩

end

/-- Settles O35: the three answers of CFG; `configCheck_ok` has the products of a configuration that passes. -/
theorem configurationCheck : Obligations.ConfigurationCheck := by
  intro s hp
  have hzero (w : Word) : w.toNat = 0 ↔ w = 0 := BitVec.toNat_inj (y := 0)
  simp only [coreStep_cfg hp, ne_eq, hzero]
  refine ⟨fun hbad => ?_, fun hpos hle hwidth hheight => ?_⟩
  · rw [configCheck_badConfig hbad, finish_raise]
  have hcfg : ¬(s.channels.toNat < 1 ∨ 4 < s.channels.toNat ∨ s.width = 0 ∨ s.height = 0) := by
    simp only [not_or, Nat.not_lt]
    exact ⟨hpos, hle, hwidth, hheight⟩
  refine ⟨fun hres => ?_, fun hout hin hpix => ?_⟩
  · rw [configCheck_resource hcfg hres, finish_raise]
  · obtain ⟨t, hok⟩ := configCheck_passes hcfg hout hin hpix
    obtain ⟨heq, hgeom⟩ := configCheck_ok hok
    obtain ⟨rowbytes, expected, bpp, rfl⟩ : ∃ rowbytes expected bpp,
        t = { s with rowbytes := rowbytes, expected := expected, bpp := bpp, phase := .zhdr } := ⟨_, _, _, heq⟩
    obtain rfl : bpp = s.channels := hgeom.bpp_eq
    exact ⟨_, by rw [hok, finish_ok], rfl, hgeom.expected_eq, hgeom.rowbytes_eq⟩

theorem errCode_mem_faultCodes (e : Err) : (e, errCode e) ∈ faultCodes := by cases e <;> decide

/-- The codes of R355 are pairwise different. -/
theorem errCode_injective {e e' : Err} (h : errCode e = errCode e') : e = e' :=
  have hnodup : (faultCodes.map Prod.snd).Nodup := by decide
  congrArg Prod.fst (List.inj_on_of_nodup_map hnodup (errCode_mem_faultCodes e) (errCode_mem_faultCodes e') h)

/-- Settles O39: the fields of `raiseFault`, and the codes from R355's list. -/
theorem faultEntry : Obligations.FaultEntry :=
  ⟨fun e _ => ⟨errCode_mem_faultCodes e, rfl, rfl, rfl, rfl, rfl, rfl, rfl, rfl, rfl, rfl⟩, fun _ _ => errCode_injective⟩

/-- Settles O43, by the entry of the list of moves that gives the host its turn. -/
theorem stepRunsHostMove : Obligations.StepRunsHostMove := fun s m rest h => by rw [step, h]

/-- Settles O44: none of the three phases is a running job's. -/
theorem coreRestsOutsideJobs : Obligations.CoreRestsOutsideJobs := by
  intro s hp
  refine coreStep_rest fun hb => ?_
  obtain ⟨hidle, hdone, hfault⟩ := Phase.status_busy.1 hb
  exact hp.elim hidle (·.elim hdone hfault)

end Sys2Proof.Machine
end

section
/-! SUPPORT. Two runs of one job (spec R402, R409): START brings any two states that hold the same job into agreement, every step of the core
keeps them there, and states in agreement show the same result. -/

namespace Sys2Proof.Machine

theorem Phase.status_done {p : Phase} : p.status = .done ↔ p = .done := by cases p <;> decide

/-- What a job reads before it writes it, START has set or the two jobs share (R46, R47); the other registers `SameRun` compares only
in phases that come after their writing. -/
theorem SameJob.startJob {s t : State} (h : SameJob s t) (hs : Inv s) (ht : Inv t) :
    SameRun (Machine.startJob s) (Machine.startJob t) where
  job := ⟨h.inm, h.inLen, h.width, h.height, h.channels, h.par⟩
  phase := rfl
  br := rfl
  opos := rfl
  bfinal := rfl
  s1 := rfl
  s2 := rfl
  row := rfl
  err := rfl
  outLen := rfl
  pixLen := rfl
  inMatch := rfl
  geometry hp := absurd rfl hp
  out _ ha := absurd ha (Nat.not_lt_zero _)
  pix hp := absurd rfl hp
  btype hp := by simp at hp
  lens hp := nomatch hp
  tables hp := nomatch hp
  mlen hm := nomatch hm
  wf := ⟨hs.out_wf, ht.out_wf, hs.pix_wf, ht.pix_wf⟩

/-- Outside a job both cores rest, and in one they step alike. -/
theorem Agreed.coreStep {s t : State} (h : Agreed s t) (hs : Inv s) (ht : Inv t) :
    AgreedResults (Machine.coreStep s) (Machine.coreStep t) := by
  have rest (hbs : ¬ s.busy) (hbt : ¬ t.busy) : AgreedResults (Machine.coreStep s) (Machine.coreStep t) := by
    rw [coreStep_rest hbs, coreStep_rest hbt]
    exact .next h
  rcases h with hrun | ⟨hps, hpt, -⟩
  · by_cases hb : s.busy
    · exact hrun.coreStep hs ht hb
    · have hbt : ¬ t.busy := by rwa [State.busy, State.status, ← hrun.phase]
      exact rest hb hbt
  · exact rest (fun hb => (Phase.status_busy.1 hb).2.2 hps) (fun hb => (Phase.status_busy.1 hb).2.2 hpt)

/-- The steps of the core, one after another, keep two runs in agreement (R402). -/
theorem Agreed.coreRun (n : Nat) : ∀ {s t a : State}, Agreed s t → Inv s → Inv t → Machine.coreRun n s = .next a →
    ∃ b, Machine.coreRun n t = .next b ∧ Agreed a b ∧ Inv a := by
  induction n with
  | zero =>
    intro s t a h hs ht hrun
    cases hrun
    exact ⟨t, rfl, h, hs⟩
  | succ n ih =>
    intro s t a h hs ht hrun
    cases hstep : Machine.coreStep s with
    | next u =>
      obtain ⟨v, hstep', huv⟩ := h.coreStep hs ht u hstep
      simp only [Machine.coreRun, hstep] at hrun
      obtain ⟨b, hrun', hab⟩ := ih huv (hs.coreStep_any hstep) (ht.coreStep_any hstep') hrun
      exact ⟨b, by simp only [Machine.coreRun, hstep', hrun'], hab⟩
    | fault f => simp only [Machine.coreRun, hstep, reduceCtorEq] at hrun
    | refused r => simp only [Machine.coreRun, hstep, reduceCtorEq] at hrun

/-- In DONE the lengths cover exactly the bytes of OUT below OPOS and the rows of PIX below ROW, on which the two runs agree (R361). -/
theorem SameRun.sameResult {s t : State} (h : SameRun s t) (hs : Inv s) : SameResult s t := by
  refine ⟨by rw [State.status, State.status, h.phase], h.err, fun hdone => ?_⟩
  obtain ⟨hout, hopos, hpix, -⟩ := hs.result hdone
  have hcfg : s.phase ≠ .cfg := by
    rw [Phase.status_done.1 hdone]
    decide
  exact ⟨h.outLen, h.pixLen, fun a ha => h.out a (by rwa [hopos, ← hout]), fun a ha => h.pix hcfg a (hpix ▸ ha)⟩

theorem Agreed.sameResult {s t : State} (h : Agreed s t) (hs : Inv s) : SameResult s t := by
  rcases h with hrun | ⟨hps, hpt, herr⟩
  · exact hrun.sameResult hs
  · exact ⟨by rw [State.status, State.status, hps, hpt], herr, fun hdone => nomatch hps.symm.trans (Phase.status_done.1 hdone)⟩

/-- Settles O56, as a two-run simulation: START establishes `Agreed`, by induction on the steps the core keeps it, and it gives the same
result. -/
theorem jobIgnoresHistory : Obligations.JobIgnoresHistory := by
  intro s t hs ht hjob n a hrun
  obtain ⟨b, hrun', hab, ha⟩ := Agreed.coreRun n (.inl (hjob.startJob hs ht)) hs.startJob ht.startJob hrun
  exact ⟨b, hrun', hab.sameResult ha⟩

end Sys2Proof.Machine
end
